-- ==== Sys2Proof/Word.lean ====
section
/-! DEFINITION. The widths of the data the Register Sequence Engine moves: bytes on the bus, 16-bit register addresses and
values, 32-bit command operands (00_scope.md R10, R11, R13). -/

namespace Sys2Proof

/-- One byte of a bus frame or of a command frame. -/
abbrev Byte := BitVec 8

/-- A u16: a register address, a register value, a table id (00_scope.md R10, 30_encoding.md R113). -/
abbrev Word := BitVec 16

/-- A u32 operand, or the bits of an s32 one (00_scope.md R11). -/
abbrev Long := BitVec 32

end Sys2Proof
end

