-- ==== Sys2Proof/Syntax.lean ====
section
/-! DEFINITION. The instructions of the Register Sequence Engine: the five host commands, the four internal requests and the
three kinds of table entry, one constructor per row of spec/opcode_table.json (00_scope.md R3), with the enumerations their
operands name. -/

namespace Sys2Proof

/-- The id of a register table, opaque to the RSE (30_encoding.md R113). -/
abbrev TableId := Word

/-- A RegisterEntry: the pair (address, value) a table is made of (30_encoding.md R100). -/
structure Entry where
  addr  : Word
  value : Word
  deriving DecidableEq, Repr, Inhabited

/-- The four modes (30_encoding.md R110). -/
inductive ModeId where
  | m1600x1200
  | m1280x720
  | m800x600
  | m640x480
  deriving DecidableEq, Repr, Inhabited

/-- The class of a mode (43_mode_effect.md R231). -/
inductive ModeClass where
  | capture
  | preview
  deriving DecidableEq, Repr

/-- The four effect items (30_encoding.md R111). -/
inductive EffectItem where
  | effect
  | whiteBalance
  | brightness
  | scene
  deriving DecidableEq, Repr

/-- The two ports commands arrive on: the host command port (format CMD) and the internal request port (format IREQ)
(30_encoding.md R104, R105). -/
inductive Port where
  | host
  | internal
  deriving DecidableEq, Repr

/-- The instructions. Operands are numbers as the frames carry them; what they name is decided by the meanings. -/
inductive Instr where
  /-- OPEN (44_control_surface.md R282). -/
  | openSession
  /-- CLOSE (44_control_surface.md R284). -/
  | closeSession
  /-- SET_MODE(width, height) (43_mode_effect.md R240). -/
  | setMode (width height : Long)
  /-- GET_STATUS (44_control_surface.md R286). -/
  | getStatus
  /-- SET_EFFECT(item, value); value holds the bits of an s32 (43_mode_effect.md R250). -/
  | setEffect (item value : Long)
  /-- READ_REG(address) (40_bus_transport.md R140). -/
  | readReg (address : Word)
  /-- WRITE_REG(address, value) (40_bus_transport.md R143). -/
  | writeReg (address value : Word)
  /-- POLL_STATUS(selAddr, selValue, resultAddr, expected, delayMs, maxAttempts) (41_status_poller.md R170). -/
  | pollStatus (selAddr selValue resultAddr expected : Word) (delayMs maxAttempts : Long)
  /-- APPLY_TABLE(table) (42_table_interpreter.md R200). -/
  | applyTable (table : TableId)
  /-- The WR entry (address, value): a register write (42_table_interpreter.md R201). -/
  | wr (address value : Word)
  /-- The WAIT entry: a delay of ms milliseconds (42_table_interpreter.md R202). -/
  | wait (ms : Word)
  /-- The END entry; its 16 value bits are not read (42_table_interpreter.md R203). -/
  | endTable (ignored : Word)
  deriving DecidableEq, Repr

end Sys2Proof
end

