-- ==== Sys2Proof/Config.lean ====
section
/-! DEFINITION. The configuration record of 00_scope.md R8. The fields the source gives a value have it as their default; each
field the spec calls OPEN is an opaque constant, of which nothing can be proved but what R8 itself requires (the two
sentinel addresses differ). -/

namespace Sys2Proof

/-- EffectTable for one item: the recognized values with their tables, and the default table of every other value
(43_mode_effect.md R251). DESIGN CHOICE (log 11): a list, read by its first match. -/
structure EffectRow where
  recognized   : List (Long × TableId)
  defaultTable : TableId
  deriving DecidableEq, Repr, Inhabited

/-- `Cfg`, the fields of 00_scope.md R8. -/
structure Cfg where
  /-- P_DEV_ADDR; its width is not in the source, so a natural number (log 14). -/
  devAddr            : Nat
  /-- P_WRITE_RETRIES: retries after the first attempt. -/
  writeRetries       : Long
  /-- P_WRITE_RETRY_DELAY_MS. -/
  writeRetryDelayMs  : Long
  /-- P_WAIT_ADDR. -/
  waitAddr           : Word
  /-- P_END_ADDR. -/
  endAddr            : Word
  /-- P_STATUS_SEL_ADDR. -/
  statusSelAddr      : Word
  /-- P_STATUS_SEL_VALUE. -/
  statusSelValue     : Word
  /-- P_STATUS_RESULT_ADDR. -/
  statusResultAddr   : Word
  /-- P_INIT_EXPECT. -/
  initExpect         : Word := 3
  /-- P_INIT_POLL_DELAY_MS. -/
  initPollDelayMs    : Long := 50
  /-- P_INIT_POLL_ATTEMPTS. -/
  initPollAttempts   : Long := 50
  /-- P_PREVIEW_EXPECT. -/
  previewExpect      : Word := 3
  /-- P_CAPTURE_EXPECT. -/
  captureExpect      : Word := 7
  /-- P_MODE_POLL_DELAY_MS. -/
  modePollDelayMs    : Long := 50
  /-- P_MODE_POLL_ATTEMPTS. -/
  modePollAttempts   : Long := 50
  /-- P_INIT_POLL_FATAL. -/
  initPollFatal      : Bool := false
  /-- P_POWER_ON_HOOK: a power-on hook is supplied. -/
  powerOnHook        : Bool
  /-- P_POWER_OFF_HOOK: a power-off hook is supplied. -/
  powerOffHook       : Bool
  /-- T_INIT. -/
  tInit              : TableId
  /-- T_MODE(M1600x1200). -/
  tMode1600x1200     : TableId
  /-- T_MODE(M1280x720). -/
  tMode1280x720      : TableId
  /-- T_MODE(M800x600). -/
  tMode800x600       : TableId
  /-- T_MODE(M640x480). -/
  tMode640x480       : TableId
  /-- T_RETURN_PREVIEW. -/
  tReturnPreview     : TableId
  /-- EffectTable(EFFECT, ·). -/
  effect             : EffectRow
  /-- EffectTable(WHITE_BALANCE, ·). -/
  whiteBalance       : EffectRow
  /-- EffectTable(BRIGHTNESS, ·). -/
  brightness         : EffectRow
  /-- EffectTable(SCENE, ·). -/
  scene              : EffectRow
  /-- TableStore: the tables by id. -/
  tables             : List (TableId × List Entry)
  deriving DecidableEq, Repr

namespace Config

/-- P_DEV_ADDR, OPEN (00_scope.md R8). -/
opaque devAddr : Nat
/-- P_WRITE_RETRIES, OPEN (00_scope.md R8). -/
opaque writeRetries : Long
/-- P_WRITE_RETRY_DELAY_MS, OPEN (00_scope.md R8). -/
opaque writeRetryDelayMs : Long
/-- P_WAIT_ADDR, OPEN (00_scope.md R8). -/
opaque waitAddr : Word
/-- How far P_END_ADDR lies above P_WAIT_ADDR, less one: OPEN, and never a full turn, so that the two sentinels differ as
00_scope.md R8 requires and every pair of different addresses remains possible. -/
opaque endGap : Fin 65535
/-- P_STATUS_SEL_ADDR, OPEN (00_scope.md R8). -/
opaque statusSelAddr : Word
/-- P_STATUS_SEL_VALUE, OPEN (00_scope.md R8). -/
opaque statusSelValue : Word
/-- P_STATUS_RESULT_ADDR, OPEN (00_scope.md R8). -/
opaque statusResultAddr : Word
/-- P_POWER_ON_HOOK, OPEN (00_scope.md R8). -/
opaque powerOnHook : Bool
/-- P_POWER_OFF_HOOK, OPEN (00_scope.md R8). -/
opaque powerOffHook : Bool
/-- T_INIT, OPEN (00_scope.md R8). -/
opaque tInit : TableId
/-- T_MODE(m), OPEN (00_scope.md R8). -/
opaque tMode : ModeId → TableId
/-- T_RETURN_PREVIEW, OPEN (00_scope.md R8). -/
opaque tReturnPreview : TableId
/-- EffectTable, OPEN (00_scope.md R8). -/
opaque effectRow : EffectItem → EffectRow
/-- TableStore, OPEN (00_scope.md R8). -/
opaque tables : List (TableId × List Entry)

/-- P_END_ADDR: another address than P_WAIT_ADDR. -/
def endAddr : Word := waitAddr + BitVec.ofNat 16 (endGap.val + 1)

/-- The configuration the block has at reset: source defaults, and OPEN fields of which nothing is known. -/
def cfg : Cfg where
  devAddr           := devAddr
  writeRetries      := writeRetries
  writeRetryDelayMs := writeRetryDelayMs
  waitAddr          := waitAddr
  endAddr           := endAddr
  statusSelAddr     := statusSelAddr
  statusSelValue    := statusSelValue
  statusResultAddr  := statusResultAddr
  powerOnHook       := powerOnHook
  powerOffHook      := powerOffHook
  tInit             := tInit
  tMode1600x1200    := tMode .m1600x1200
  tMode1280x720     := tMode .m1280x720
  tMode800x600      := tMode .m800x600
  tMode640x480      := tMode .m640x480
  tReturnPreview    := tReturnPreview
  effect            := effectRow .effect
  whiteBalance      := effectRow .whiteBalance
  brightness        := effectRow .brightness
  scene             := effectRow .scene
  tables            := tables

end Config

end Sys2Proof
end

