-- ==== Sys2Proof/WellFormed.lean ====
section
/-! DEFINITION. What a well-formed configuration and a well-formed instruction are. -/

namespace Sys2Proof

/-- The ids of a table store rise strictly: its canonical form (log 11). -/
def risingIds : List (TableId × List Entry) → Bool
  | [] => true
  | [_] => true
  | t :: u :: rest => decide (t.1.toNat < u.1.toNat) && risingIds (u :: rest)

/-- The conditions on `Cfg`: the two sentinel addresses differ (30_encoding.md R101), and the table store is in canonical
form. -/
def Cfg.wellFormed (c : Cfg) : Bool :=
  decide (c.waitAddr ≠ c.endAddr) && risingIds c.tables

/-- The address of a WR entry is no sentinel: such an entry would spell WAIT or END (30_encoding.md R101, R119). The operands
of every other instruction have no illegal values (30_encoding.md R102 to R105): a resolution or an item outside its set is a
valid operand with an error result, and an END is a valid END whatever its value. -/
def Instr.wellFormed (c : Cfg) : Instr → Bool
  | .openSession => true
  | .closeSession => true
  | .setMode _ _ => true
  | .getStatus => true
  | .setEffect _ _ => true
  | .readReg _ => true
  | .writeReg _ _ => true
  | .pollStatus _ _ _ _ _ _ => true
  | .applyTable _ => true
  | .wr a _ => decide (a ≠ c.waitAddr) && decide (a ≠ c.endAddr)
  | .wait _ => true
  | .endTable _ => true

end Sys2Proof
end

