-- ==== Sys2Proof/Decode.lean ====
section
/-! DEFINITION. Decoding and encoding: the packed entry word (format ENTRY, 30_encoding.md R100 to R103), the host command
frames (format CMD, R104), the internal request frames (format IREQ, R105), and the rejection of everything else by name
(R106). -/

namespace Sys2Proof

/-! ## Byte order: the most significant byte first (30_encoding.md R104, 20_memory.md R66) -/

/-- `{hi, lo}` of two bytes (00_scope.md R13). -/
def be16 (hi lo : Byte) : Word := hi ++ lo

/-- The 32-bit value of four bytes, the first most significant. -/
def be32 (b3 b2 b1 b0 : Byte) : Long := be16 b3 b2 ++ be16 b1 b0

/-- `v[15:8]`. -/
def hiByte (v : Word) : Byte := v.extractLsb' 8 8

/-- `v[7:0]`. -/
def loByte (v : Word) : Byte := v.extractLsb' 0 8

/-- `v[31:16]`. -/
def hiWord (v : Long) : Word := v.extractLsb' 16 16

/-- `v[15:0]`. -/
def loWord (v : Long) : Word := v.extractLsb' 0 16

/-- The two bytes of a u16 as a frame sends them. -/
def bytes16 (v : Word) : List Byte := [hiByte v, loByte v]

/-- The four bytes of a u32 as a frame sends them. -/
def bytes32 (v : Long) : List Byte := bytes16 (hiWord v) ++ bytes16 (loWord v)

/-! ## Format ENTRY -/

/-- The entry a packed word holds: address in bits 31:16, value in bits 15:0 (30_encoding.md R100). -/
def unpackEntry (w : Long) : Entry := ⟨hiWord w, loWord w⟩

/-- The packed word of an entry (30_encoding.md R100). -/
def packEntry (e : Entry) : Long := e.addr ++ e.value

/-- The three kinds of entry. -/
inductive EntryKind where
  | wr
  | wait
  | endTable
  deriving DecidableEq, Repr

/-- An entry's kind, decided by its address alone (30_encoding.md R101). -/
def entryKind (c : Cfg) (e : Entry) : EntryKind :=
  if e.addr = c.waitAddr then .wait
  else if e.addr = c.endAddr then .endTable
  else .wr

/-- The instruction an entry is, with its operands (30_encoding.md R101, R102). Every entry is one (R103). -/
def decodeEntry (c : Cfg) (e : Entry) : Instr :=
  match entryKind c e with
  | .wait => .wait e.value
  | .endTable => .endTable e.value
  | .wr => .wr e.addr e.value

/-! ## Formats CMD and IREQ -/

/-- Why a frame decodes to ILLEGAL (30_encoding.md R106). -/
inductive DecodeError where
  /-- The opcode byte is assigned on neither port. -/
  | unassignedOpcode (opcode : Byte)
  /-- An internal opcode on the host port or a host opcode on the internal port. -/
  | wrongPort (opcode : Byte)
  /-- The frame is shorter than its opcode's length. -/
  | shortFrame (opcode : Byte)
  /-- The frame has not even an opcode byte. -/
  | emptyFrame
  deriving DecidableEq, Repr

/-- The opcodes of the host port (30_encoding.md R104). -/
def isHostOpcode (op : Byte) : Bool :=
  op == 0x01#8 || op == 0x02#8 || op == 0x10#8 || op == 0x11#8 || op == 0x12#8

/-- The opcodes of the internal port (30_encoding.md R105). -/
def isInternalOpcode (op : Byte) : Bool :=
  op == 0x20#8 || op == 0x21#8 || op == 0x22#8 || op == 0x23#8

/-- Two u32 operands from the bytes after the opcode. -/
def operandsLL : List Byte → Option (Long × Long)
  | a3 :: a2 :: a1 :: a0 :: b3 :: b2 :: b1 :: b0 :: _ => some (be32 a3 a2 a1 a0, be32 b3 b2 b1 b0)
  | _ => none

/-- One u16 operand. -/
def operandsW : List Byte → Option Word
  | a1 :: a0 :: _ => some (be16 a1 a0)
  | _ => none

/-- Two u16 operands. -/
def operandsWW : List Byte → Option (Word × Word)
  | a1 :: a0 :: b1 :: b0 :: _ => some (be16 a1 a0, be16 b1 b0)
  | _ => none

/-- The operands of POLL_STATUS. -/
def operandsPoll : List Byte → Option (Word × Word × Word × Word × Long × Long)
  | s1 :: s0 :: t1 :: t0 :: r1 :: r0 :: e1 :: e0 :: rest =>
    (operandsLL rest).map fun dn => (be16 s1 s0, be16 t1 t0, be16 r1 r0, be16 e1 e0, dn.1, dn.2)
  | _ => none

/-- The instruction, or the short frame of this opcode. -/
def orShort (op : Byte) : Option Instr → Except DecodeError Instr
  | some i => .ok i
  | none => .error (.shortFrame op)

/-- Decoding of a host frame. The opcode alone decides the length of the frame; bytes after that length are not part of it
(30_encoding.md R104, R106; log 6). -/
def decodeHost : List Byte → Except DecodeError Instr
  | [] => .error .emptyFrame
  | op :: rest =>
    if op = 0x01#8 then .ok .openSession
    else if op = 0x02#8 then .ok .closeSession
    else if op = 0x10#8 then orShort op ((operandsLL rest).map fun p => .setMode p.1 p.2)
    else if op = 0x11#8 then .ok .getStatus
    else if op = 0x12#8 then orShort op ((operandsLL rest).map fun p => .setEffect p.1 p.2)
    else if isInternalOpcode op then .error (.wrongPort op)
    else .error (.unassignedOpcode op)

/-- Decoding of an internal request frame (30_encoding.md R105, R106). -/
def decodeInternal : List Byte → Except DecodeError Instr
  | [] => .error .emptyFrame
  | op :: rest =>
    if op = 0x20#8 then orShort op ((operandsW rest).map .readReg)
    else if op = 0x21#8 then orShort op ((operandsWW rest).map fun p => .writeReg p.1 p.2)
    else if op = 0x22#8 then
      orShort op ((operandsPoll rest).map fun p => .pollStatus p.1 p.2.1 p.2.2.1 p.2.2.2.1 p.2.2.2.2.1 p.2.2.2.2.2)
    else if op = 0x23#8 then orShort op ((operandsW rest).map .applyTable)
    else if isHostOpcode op then .error (.wrongPort op)
    else .error (.unassignedOpcode op)

/-- Decoding of a frame on a port: total on any bytes (30_encoding.md R106). No mode and no state changes it (R107). -/
def decodeFrame : Port → List Byte → Except DecodeError Instr
  | .host, bytes => decodeHost bytes
  | .internal, bytes => decodeInternal bytes

/-! ## Encoding -/

/-- The code of an instruction: a frame on a port, or the packed word of a table entry. -/
inductive Code where
  | frame (port : Port) (bytes : List Byte)
  | entry (word : Long)
  deriving DecidableEq, Repr

/-- The entry a WR, a WAIT and an END are assembled to (30_encoding.md R119). -/
def wrEntry (a v : Word) : Entry := ⟨a, v⟩

def waitEntry (c : Cfg) (ms : Word) : Entry := ⟨c.waitAddr, ms⟩

def endEntry (c : Cfg) (ignored : Word) : Entry := ⟨c.endAddr, ignored⟩

/-- The code of an instruction, from the tables of 30_encoding.md R100, R104 and R105. -/
def encode (c : Cfg) : Instr → Code
  | .openSession => .frame .host [0x01]
  | .closeSession => .frame .host [0x02]
  | .setMode w h => .frame .host (0x10 :: bytes32 w ++ bytes32 h)
  | .getStatus => .frame .host [0x11]
  | .setEffect i v => .frame .host (0x12 :: bytes32 i ++ bytes32 v)
  | .readReg a => .frame .internal (0x20 :: bytes16 a)
  | .writeReg a v => .frame .internal (0x21 :: bytes16 a ++ bytes16 v)
  | .pollStatus s t r e d n =>
    .frame .internal (0x22 :: bytes16 s ++ bytes16 t ++ bytes16 r ++ bytes16 e ++ bytes32 d ++ bytes32 n)
  | .applyTable t => .frame .internal (0x23 :: bytes16 t)
  | .wr a v => .entry (packEntry (wrEntry a v))
  | .wait ms => .entry (packEntry (waitEntry c ms))
  | .endTable x => .entry (packEntry (endEntry c x))

/-- The instruction a code is under a configuration. -/
def decode (c : Cfg) : Code → Except DecodeError Instr
  | .frame p bytes => decodeFrame p bytes
  | .entry w => .ok (decodeEntry c (unpackEntry w))

/-! ## The words of spec/opcode_table.json -/

/-- The length in bytes of the frame an opcode starts (30_encoding.md R104, R105); 1 for an opcode with no frame. -/
def frameLength (op : Byte) : Nat :=
  if op = 0x10#8 ∨ op = 0x12#8 then 9
  else if op = 0x20#8 ∨ op = 0x23#8 then 3
  else if op = 0x21#8 then 5
  else if op = 0x22#8 then 17
  else 1

/-- The `n` bytes of a number, the most significant first. -/
def bytesOfNat : Nat → Nat → List Byte
  | 0, _ => []
  | n + 1, w => BitVec.ofNat 8 (w / 2 ^ (8 * n)) :: bytesOfNat n w

/-- The frame of a table row. The table reads a row's pattern as ONE number, bit 0 least significant, the opcode byte on top
(98_reader.md, and "frame_bits" in the table), so the first byte of the frame is the top byte of the number; operand bytes the
number does not reach are zero (log 7). -/
def tableFrame (nbits w : Nat) : List Byte :=
  let given := bytesOfNat (nbits / 8) w
  match given with
  | [] => []
  | op :: rest => op :: (rest ++ List.replicate (frameLength op - 1 - rest.length) 0)

/-- The port a frame belongs to, by its opcode. -/
def portOf : List Byte → Port
  | [] => .host
  | op :: _ => if isInternalOpcode op then .internal else .host

/-- The code of a table row: 32 bits are an ENTRY word, any other length a frame. -/
def tableCode (nbits w : Nat) : Code :=
  if nbits = 32 then .entry (BitVec.ofNat 32 w)
  else .frame (portOf (tableFrame nbits w)) (tableFrame nbits w)

/-- The instruction the decoder reads from a table row's bits, under the block's own configuration. -/
def decodeTableWord (nbits w : Nat) : Option Instr :=
  match decode Config.cfg (tableCode nbits w) with
  | .ok i => some i
  | .error _ => none

end Sys2Proof
end

