-- ==== Sys2Proof/Machine/State.lean ====
section
/-! DEFINITION. The state of the Register Sequence Engine: the record `S` (10_state.md R30 to R39), the working values of the
command that runs (R40, R43 to R47), the event trace (20_memory.md R80), the inputs of the environment, and the configuration. -/

namespace Sys2Proof.Machine

/-! ## Errors, results, events -/

/-- The errors of the Bus Transport, and the causes of a WriteError (30_encoding.md R114). -/
inductive BusError where
  | noDevice
  | transferError
  deriving DecidableEq, Repr

/-- The errors (30_encoding.md R114). -/
inductive Error where
  | noDevice
  | transferError
  | writeError (index : Nat) (cause : BusError)
  | invalidResolution
  | unknownItem
  | pollTimeout (last : Option Word)
  deriving DecidableEq, Repr

/-- The results (30_encoding.md R115). -/
inductive Result where
  | ok
  | okValue (v : Word)
  | converged (v : Word)
  | timeout (last : Option Word)
  | fail (e : Error)
  deriving DecidableEq, Repr

/-- The oracle's answer to a BusWrite (20_memory.md R81). -/
inductive WriteAnswer where
  | ack
  | nak
  deriving DecidableEq, Repr

/-- The oracle's answer to a BusWriteRead: the two bytes read, the first received first, or `Nak` (20_memory.md R65, R81). -/
inductive ReadAnswer where
  | ack (d0 d1 : Byte)
  | nak
  deriving DecidableEq, Repr

/-- The power hooks (00_scope.md R15). -/
inductive Hook where
  | powerOn
  | powerOff
  deriving DecidableEq, Repr

/-- The kinds of log entry (60_exceptions.md R336). -/
inductive LogKind where
  | writeRetry
  | initPollTimeout
  deriving DecidableEq, Repr

/-- The events of the trace (20_memory.md R80). -/
inductive Event where
  /-- `WR(a, v, o)`: one attempt of a register write. -/
  | wr (a v : Word) (o : WriteAnswer)
  /-- `RD(a, o)`: one register read; `none` is `Nak`. -/
  | rd (a : Word) (o : Option Word)
  /-- `SLEEP(ms)`. -/
  | sleep (ms : Long)
  /-- `LOG(kind, a, v)`; `none` only as the last value of a poll that read none. -/
  | log (kind : LogKind) (a : Word) (v : Option Word)
  /-- `HOOK(h)`. -/
  | hook (h : Hook)
  /-- `CMD(c)`. -/
  | cmd (c : Instr)
  /-- `RESULT(r)`. -/
  | result (r : Result)
  deriving DecidableEq, Repr

/-- The faults the RSE records in `S.fault` (60_exceptions.md R330). -/
inductive FaultKind where
  | reentry
  | sessionOpen
  | noSession
  | illegalCommand
  | noTable
  | tableOverrun
  deriving DecidableEq, Repr

/-! ## Results of the units -/

/-- What `writeRegister` returns (40_bus_transport.md R143). -/
inductive WriteResult where
  | ok
  | fail (e : BusError)
  deriving DecidableEq, Repr

/-- What `readRegister` returns (40_bus_transport.md R140). -/
inductive ReadResult where
  | ok (v : Word)
  | fail (e : BusError)
  deriving DecidableEq, Repr

/-- What `applyTable` returns (42_table_interpreter.md R200). -/
inductive TableResult where
  | ok
  | writeError (index : Nat) (cause : BusError)
  deriving DecidableEq, Repr

/-- What `pollStatus` returns (41_status_poller.md R170). -/
inductive PollOutcome where
  | converged (v : Word)
  | timeout (last : Option Word)
  deriving DecidableEq, Repr

/-! ## The position of the running command -/

/-- The sequencer's latches of a SET_MODE (10_state.md R47); `expected` stands in the poll's request. -/
structure Latch where
  m       : ModeId
  wasInit : Bool
  deriving DecidableEq, Repr

/-- Who receives a table's result: the harness (APPLY_TABLE), SET_EFFECT, or a step of SET_MODE. -/
inductive TableRet where
  | request
  | effect
  | initTable (l : Latch)
  | modeTable (l : Latch)
  | previewTable (l : Latch)
  deriving DecidableEq, Repr

/-- Who receives a poll's outcome: the harness (POLL_STATUS), or one of the two polls of SET_MODE. -/
inductive PollRet where
  | request
  | initPoll (l : Latch)
  | modePoll (l : Latch)
  deriving DecidableEq, Repr

/-- The operands of one `pollStatus` call (41_status_poller.md R170). -/
structure PollReq where
  selAddr     : Word
  selValue    : Word
  resultAddr  : Word
  expected    : Word
  delayMs     : Long
  maxAttempts : Long
  deriving DecidableEq, Repr

/-- A running poll: its operands, the iteration `k` it is in (10_state.md R44), the last value it read (R45), its caller. -/
structure Poll where
  req  : PollReq
  k    : Nat
  last : Option Word
  ret  : PollRet
  deriving DecidableEq, Repr

/-- Who receives a `writeRegister` result: the harness (WRITE_REG), a poll iteration (its selector write), or the WR entry at
a table's cursor `(t, i)` (10_state.md R46). -/
inductive WriteRet where
  | request
  | selector (p : Poll)
  | entry (t : TableId) (i : Nat) (ret : TableRet)
  deriving DecidableEq, Repr

/-- Who receives a `readRegister` result: the harness (READ_REG) or a poll iteration. -/
inductive ReadRet where
  | request
  | result (p : Poll)
  deriving DecidableEq, Repr

/-- The sequence position of the RSE (10_state.md R40), with the working values alive there. -/
inductive Control where
  /-- No command runs. -/
  | idle
  /-- A supplied power hook was invoked and has not returned (60_exceptions.md R332). -/
  | hook (h : Hook)
  /-- Attempt number `attempt` of a register write waits for its answer (10_state.md R43, 20_memory.md R82). -/
  | write (a v : Word) (attempt : Nat) (ret : WriteRet)
  /-- A register read waits for its answer. -/
  | read (a : Word) (ret : ReadRet)
  /-- Entry `i` of table `t` is the next to run. -/
  | table (t : TableId) (i : Nat) (ret : TableRet)
  /-- A table has ended and its result is to be handed to its caller. -/
  | tableDone (ret : TableRet) (r : TableResult)
  deriving DecidableEq, Repr

/-- A frame presented on a port (30_encoding.md R108). -/
structure Presented where
  port  : Port
  bytes : List Byte
  deriving DecidableEq, Repr

/-! ## The state -/

structure State where
  /-- `Cfg`, constant (00_scope.md R8; log 1). -/
  cfg          : Cfg
  /-- `S.open` (10_state.md R32). -/
  sessionOpen  : Bool
  /-- `S.transport` (10_state.md R33). -/
  transport    : Bool
  /-- `S.initialized` (10_state.md R34). -/
  initialized  : Bool
  /-- `S.mode` (10_state.md R35). -/
  mode         : Option ModeId
  /-- `S.busy` (10_state.md R38). -/
  busy         : Bool
  /-- `S.fault` (10_state.md R39). -/
  fault        : Option FaultKind
  /-- The position and working values of the running command (10_state.md R40 to R47). -/
  control      : Control
  /-- The event trace, oldest event first (20_memory.md R80). -/
  trace        : List Event
  /-- Input: the frame presented, if any (30_encoding.md R108; log 6). -/
  port         : Option Presented
  /-- Input: P_TRANSPORT_ATTACHED, read by OPEN (00_scope.md R9). -/
  attached     : Bool
  /-- Input: whether an invoked power hook returns (60_exceptions.md R332; log 13). -/
  hookReturns  : Bool
  /-- Input: the oracle's answers to the coming register writes, in order (20_memory.md R81; log 2). -/
  writeAnswers : List WriteAnswer
  /-- Input: the oracle's answers to the coming register reads, in order (20_memory.md R81; log 2). -/
  readAnswers  : List ReadAnswer
  deriving DecidableEq, Repr

/-- The machine after reset (70_reset_and_hazards.md R350): no session, nothing running, no fault, no event; no input given
(DESIGN CHOICE, log 2, 6, 12, 13); the block's own configuration (log 1). -/
def State.reset : State where
  cfg          := Config.cfg
  sessionOpen  := false
  transport    := false
  initialized  := false
  mode         := none
  busy         := false
  fault        := none
  control      := .idle
  trace        := []
  port         := none
  attached     := false
  hookReturns  := true
  writeAnswers := []
  readAnswers  := []

/-! ## The ways a step has no next state

None of these is a fault of the RSE: those are recorded in `S.fault` by a next state (60_exceptions.md R330, log 5). Each says
that the RSE has no step, and each is safe. -/

/-- Why there is no next step (log 4). -/
inductive Fault where
  /-- Raised by every instruction and by `step` when `S.fault` is set: a faulted RSE accepts nothing (10_state.md R39). Safe. -/
  | halted
  /-- Raised by `step` when nothing is presented and nothing runs: the RSE waits for the host. Safe. -/
  | idle
  /-- Raised by `step` when a transaction has no answer yet: the RSE holds with `S.busy` true (20_memory.md R82). Safe. -/
  | awaitingBus
  /-- Raised by `step` when an invoked power hook has not returned (60_exceptions.md R332). Safe. -/
  | awaitingHook
  /-- Raised by WR, WAIT and END when no table is at an entry: only the Table Interpreter runs entries
  (42_table_interpreter.md R200; log 17). Safe. -/
  | noEntryDue
  /-- Raised by `step` when `S.busy` is true and no work is recorded: no run reaches such a state. Safe. -/
  | nothingRunning
  deriving DecidableEq, Repr

/-- Why an instruction is refused. -/
inductive Refusal where
  /-- Raised by `exec` alone, for an instruction with no meaning yet. Safe. -/
  | notModelled (mnemonic : String)
  deriving DecidableEq, Repr

end Sys2Proof.Machine
end

