-- ==== Sys2Proof/Machine/Operands.lean ====
section
/-! DEFINITION. What the operands name: modes, items, tables, expected values, delays. -/

namespace Sys2Proof.Machine

/-! ## Modes (30_encoding.md R109, R110) -/

/-- The width of a mode. -/
def modeWidth : ModeId → Long
  | .m1600x1200 => 1600
  | .m1280x720 => 1280
  | .m800x600 => 800
  | .m640x480 => 640

/-- The height of a mode. -/
def modeHeight : ModeId → Long
  | .m1600x1200 => 1200
  | .m1280x720 => 720
  | .m800x600 => 600
  | .m640x480 => 480

/-- The mode whose width and height are exactly these, if there is one (43_mode_effect.md R230). -/
def resolve (w h : Long) : Option ModeId :=
  [ModeId.m1600x1200, .m1280x720, .m800x600, .m640x480].find? fun m => modeWidth m = w && modeHeight m = h

/-- The class of a mode (43_mode_effect.md R231). -/
def modeClass : ModeId → ModeClass
  | .m1600x1200 => .capture
  | .m1280x720 => .capture
  | .m800x600 => .preview
  | .m640x480 => .preview

/-- The value the final poll of a SET_MODE expects (43_mode_effect.md R231, R245). -/
def expectedFor (c : Cfg) (m : ModeId) : Word :=
  match modeClass m with
  | .capture => c.captureExpect
  | .preview => c.previewExpect

/-- `T_MODE(m)` (00_scope.md R8). -/
def tMode (c : Cfg) : ModeId → TableId
  | .m1600x1200 => c.tMode1600x1200
  | .m1280x720 => c.tMode1280x720
  | .m800x600 => c.tMode800x600
  | .m640x480 => c.tMode640x480

/-! ## Effect items and their tables (30_encoding.md R111, 43_mode_effect.md R251) -/

/-- The item an item code names; none for an unrecognized code. -/
def itemOf (code : Long) : Option EffectItem :=
  if code = 0#32 then some .effect
  else if code = 1#32 then some .whiteBalance
  else if code = 2#32 then some .brightness
  else if code = 3#32 then some .scene
  else none

/-- The row of `EffectTable` of an item. -/
def effectRow (c : Cfg) : EffectItem → EffectRow
  | .effect => c.effect
  | .whiteBalance => c.whiteBalance
  | .brightness => c.brightness
  | .scene => c.scene

/-- A row's table for a value: its own where the value is recognized, the default table otherwise. -/
def rowTable (r : EffectRow) (value : Long) : TableId :=
  match r.recognized.find? fun p => p.1 = value with
  | some p => p.2
  | none => r.defaultTable

/-- `EffectTable(item, value)`, total (43_mode_effect.md R251, R252). -/
def effectTable (c : Cfg) (item : EffectItem) (value : Long) : TableId :=
  rowTable (effectRow c item) value

/-! ## The table store (20_memory.md R63) -/

/-- `TableStore(t)`: the entries of the table, or absent. -/
def readTable (c : Cfg) (t : TableId) : Option (List Entry) :=
  (c.tables.find? fun p => p.1 = t).map Prod.snd

/-- The delay of a WAIT entry: `zext_32` of its value, unscaled (30_encoding.md R102). -/
def waitMs (v : Word) : Long := v.setWidth 32

/-! ## The sequencer's polls (43_mode_effect.md R232) -/

/-- The `pollStatus` call of `statusPoll(expected, delay, attempts)`. -/
def statusPollReq (c : Cfg) (expected : Word) (delayMs attempts : Long) : PollReq :=
  ⟨c.statusSelAddr, c.statusSelValue, c.statusResultAddr, expected, delayMs, attempts⟩

/-- The initialization poll (43_mode_effect.md R240, step 2). -/
def initPollReq (c : Cfg) : PollReq :=
  statusPollReq c c.initExpect c.initPollDelayMs c.initPollAttempts

/-- The mode poll (43_mode_effect.md R240, step 6). -/
def modePollReq (c : Cfg) (m : ModeId) : PollReq :=
  statusPollReq c (expectedFor c m) c.modePollDelayMs c.modePollAttempts

end Sys2Proof.Machine
end

