-- ==== Sys2Proof/Machine/Flags.lean ====
section
/-! DEFINITION. Status and codes. The RSE has no condition codes (10_state.md R41): what it has is the `converged` component of
a poll outcome, the success signal of a result, the numeric codes, and the views of the state and of the trace. -/

namespace Sys2Proof.Machine

/-! ## Results -/

/-- The poll outcome as the pair (converged, lastObservedValue) (30_encoding.md R117). -/
def pollPair : PollOutcome → Bool × Option Word
  | .converged v => (true, some v)
  | .timeout last => (false, last)

/-- A bus error as an error. -/
def busError : BusError → Error
  | .noDevice => .noDevice
  | .transferError => .transferError

/-- The result of a WRITE_REG (30_encoding.md R115). -/
def writeResult : WriteResult → Result
  | .ok => .ok
  | .fail e => .fail (busError e)

/-- The result of a READ_REG. -/
def readResult : ReadResult → Result
  | .ok v => .okValue v
  | .fail e => .fail (busError e)

/-- The result of a POLL_STATUS. -/
def pollResult : PollOutcome → Result
  | .converged v => .converged v
  | .timeout last => .timeout last

/-- The result of an APPLY_TABLE, and of a SET_EFFECT that applied its table. -/
def tableResult : TableResult → Result
  | .ok => .ok
  | .writeError i c => .fail (.writeError i c)

/-- What the control surface delivers to the host: success exactly when the result is `Ok` (30_encoding.md R116). -/
def signal : Result → Bool
  | .ok => true
  | .okValue _ => false
  | .converged _ => false
  | .timeout _ => false
  | .fail _ => false

/-! ## Codes -/

/-- The code of an error (30_encoding.md R114). -/
def errorCode : Error → Byte
  | .noDevice => 0x01
  | .transferError => 0x02
  | .writeError _ _ => 0x03
  | .invalidResolution => 0x04
  | .unknownItem => 0x05
  | .pollTimeout _ => 0x06

/-- The code of a result (30_encoding.md R115). -/
def resultCode : Result → Byte
  | .ok => 0x00
  | .okValue _ => 0x00
  | .converged _ => 0x10
  | .timeout _ => 0x11
  | .fail e => errorCode e

/-- The code of a fault kind (60_exceptions.md R330). -/
def faultCode : FaultKind → Nat
  | .reentry => 1
  | .sessionOpen => 2
  | .noSession => 3
  | .illegalCommand => 4
  | .noTable => 5
  | .tableOverrun => 6

/-- The code of a mode (30_encoding.md R110). -/
def modeCode : ModeId → BitVec 2
  | .m1600x1200 => 0
  | .m1280x720 => 1
  | .m800x600 => 2
  | .m640x480 => 3

/-- `S.mode` as a valid bit and a mode code; `none` is valid = 0 (30_encoding.md R112). The code under a clear valid bit means
nothing and is given as 0 (log 20). -/
def modeField : Option ModeId → Bool × BitVec 2
  | some m => (true, modeCode m)
  | none => (false, 0)

/-- The code of an item (30_encoding.md R111). -/
def itemCode : EffectItem → Long
  | .effect => 0
  | .whiteBalance => 1
  | .brightness => 2
  | .scene => 3

/-! ## Views of the state -/

/-- The source's state machine (10_state.md R36). -/
inductive SessionView where
  | noSession
  | uninitialized
  | initialized (m : ModeId)
  deriving DecidableEq, Repr

/-- The state of the source's state machine a state of `S` stands for; none where `S.initialized` is true and no mode is
recorded, which no run reaches (10_state.md R36, R37). -/
def sessionView (s : State) : Option SessionView :=
  if s.sessionOpen then
    if s.initialized then s.mode.map .initialized else some .uninitialized
  else some .noSession

/-- The SET_MODE step the RSE stands in (10_state.md R40(b)): steps 1, 4 and 7 wait for nothing, so a state between two steps
of the machine stands in step 2, 3, 5 or 6. -/
def tableRetStep : TableRet → Option Nat
  | .request => none
  | .effect => none
  | .initTable _ => some 2
  | .modeTable _ => some 3
  | .previewTable _ => some 5

/-- As `tableRetStep`, for a poll. -/
def pollRetStep : PollRet → Option Nat
  | .request => none
  | .initPoll _ => some 2
  | .modePoll _ => some 6

/-- The SET_MODE step of a control position. -/
def seqStep : Control → Option Nat
  | .idle => none
  | .hook _ => none
  | .write _ _ _ .request => none
  | .write _ _ _ (.selector p) => pollRetStep p.ret
  | .write _ _ _ (.entry _ _ ret) => tableRetStep ret
  | .read _ .request => none
  | .read _ (.result p) => pollRetStep p.ret
  | .table _ _ ret => tableRetStep ret
  | .tableDone ret _ => tableRetStep ret

/-! ## Views of the trace -/

/-- One transfer on the bus: the device addressed, the bytes sent, and what came back (none for `Nak`; no bytes for an
acknowledged write). -/
structure Transfer where
  dev      : Nat
  sent     : List Byte
  received : Option (List Byte)
  deriving DecidableEq, Repr

/-- The 4-byte frame of a register write (20_memory.md R64). -/
def writeFrame (a v : Word) : List Byte := bytes16 a ++ bytes16 v

/-- The 2-byte address phase of a register read (20_memory.md R65). -/
def readFrame (a : Word) : List Byte := bytes16 a

/-- The transfer an event is; the events that are no bus transaction are none (20_memory.md R62, R64, R65, R80). -/
def transfer (c : Cfg) : Event → Option Transfer
  | .wr a v .ack => some ⟨c.devAddr, writeFrame a v, some []⟩
  | .wr a v .nak => some ⟨c.devAddr, writeFrame a v, none⟩
  | .rd a (some x) => some ⟨c.devAddr, readFrame a, some (bytes16 x)⟩
  | .rd a none => some ⟨c.devAddr, readFrame a, none⟩
  | .sleep _ => none
  | .log _ _ _ => none
  | .hook _ => none
  | .cmd _ => none
  | .result _ => none

/-- The transfers of a trace, in the order the bus carried them (20_memory.md R78). -/
def wire (c : Cfg) (tr : List Event) : List Transfer := tr.filterMap (transfer c)

/-- The least milliseconds an event takes: only a sleep has a bound (20_memory.md R79). -/
def eventMs : Event → Nat
  | .sleep ms => ms.toNat
  | .wr _ _ _ => 0
  | .rd _ _ => 0
  | .log _ _ _ => 0
  | .hook _ => 0
  | .cmd _ => 0
  | .result _ => 0

/-- The least milliseconds a trace has slept (70_reset_and_hazards.md R370). -/
def sleptAtLeast (tr : List Event) : Nat := (tr.map eventMs).sum

/-- The result an event delivers. -/
def eventResult : Event → Option Result
  | .result r => some r
  | .wr _ _ _ => none
  | .rd _ _ => none
  | .sleep _ => none
  | .log _ _ _ => none
  | .hook _ => none
  | .cmd _ => none

/-- The results of a trace, in order: what the host port and the harness got (20_memory.md R80). -/
def results (tr : List Event) : List Result := tr.filterMap eventResult

end Sys2Proof.Machine
end

