-- ==== Sys2Proof/Machine/Ops.lean ====
section
/-! DEFINITION. The operations the meanings share: the primitives of 00_scope.md R15, taking a fault (60_exceptions.md R330),
the dispatch of a command (44_control_surface.md R280, 60_exceptions.md R334), and the end of one. -/

namespace Sys2Proof.Machine

/-- An outcome of this machine. -/
abbrev Outcome := Host.Outcome State Fault Refusal

/-! ## Updates of the state -/

/-- Append one event to the trace (00_scope.md R15). -/
def State.emit (s : State) (e : Event) : State := { s with trace := s.trace ++ [e] }

/-- `Sleep(ms)`: its event; the wait itself is only a lower bound on time (20_memory.md R79, 41_status_poller.md R181). -/
def State.sleep (s : State) (ms : Long) : State := s.emit (.sleep ms)

/-- `Log(kind, a, v)` (60_exceptions.md R336). -/
def State.log (s : State) (kind : LogKind) (a : Word) (v : Option Word) : State := s.emit (.log kind a v)

/-- Record where the RSE stands. -/
def State.setControl (s : State) (c : Control) : State := { s with control := c }

/-- Taking a fault: `S.fault` holds its kind, no event is emitted, and every other field keeps its value
(60_exceptions.md R330; 95_test_vectors.md V-CS-04, V-TI-08). -/
def State.raiseFault (s : State) (f : FaultKind) : State := { s with fault := some f }

/-- Accepting a command: its CMD event, and `S.busy` set (44_control_surface.md R280). -/
def State.accept (s : State) (i : Instr) : State := { s with trace := s.trace ++ [.cmd i], busy := true }

/-- Delivering a command's result, an error among them: its RESULT event, and `S.busy` cleared (44_control_surface.md R280,
60_exceptions.md R314). This is all the return from an error there is (R315). -/
def State.finish (s : State) (r : Result) : State :=
  { s with trace := s.trace ++ [.result r], busy := false, control := .idle }

/-- Taking the presented frame from the port. -/
def State.clearPort (s : State) : State := { s with port := none }

/-- Acquiring a session at OPEN, before the hook (44_control_surface.md R282). -/
def State.acquireSession (s : State) : State := { s with sessionOpen := true, transport := s.attached }

/-- The end of OPEN's work, after the hook (44_control_surface.md R282). -/
def State.clearMode (s : State) : State := { s with initialized := false, mode := none }

/-- Releasing the session at CLOSE, after the hook (44_control_surface.md R284). -/
def State.releaseSession (s : State) : State :=
  { s with sessionOpen := false, transport := false, initialized := false, mode := none }

/-- Step 7 of SET_MODE (43_mode_effect.md R240, R248). -/
def State.commitMode (s : State) (m : ModeId) : State := { s with initialized := true, mode := some m }

/-! ## The environment's actions between steps (44_control_surface.md R288, 20_memory.md R81) -/

/-- Present a frame on a port. -/
def State.present (s : State) (p : Port) (bytes : List Byte) : State := { s with port := some ⟨p, bytes⟩ }

/-- The oracle answers a coming register write. -/
def State.answerWrite (s : State) (o : WriteAnswer) : State := { s with writeAnswers := s.writeAnswers ++ [o] }

/-- The oracle answers a coming register read. -/
def State.answerRead (s : State) (o : ReadAnswer) : State := { s with readAnswers := s.readAnswers ++ [o] }

/-- The oracle answers some coming register writes and some coming register reads. -/
def State.moreAnswers (s : State) (ws : List WriteAnswer) (rs : List ReadAnswer) : State :=
  { s with writeAnswers := s.writeAnswers ++ ws, readAnswers := s.readAnswers ++ rs }

/-! ## Transactions (00_scope.md R15) -/

/-- `BusWrite`: the next answer of the oracle with the WR event, or none while there is no answer (20_memory.md R69, R82). -/
def busWrite (a v : Word) (s : State) : Option (WriteAnswer × State) :=
  match s.writeAnswers with
  | [] => none
  | o :: rest => some (o, { s with writeAnswers := rest }.emit (.wr a v o))

/-- `BusWriteRead`: one outcome for both phases; the bytes are assembled big-endian (20_memory.md R65, R70). -/
def busWriteRead (a : Word) (s : State) : Option (Option Word × State) :=
  match s.readAnswers with
  | [] => none
  | .nak :: rest => some (none, { s with readAnswers := rest }.emit (.rd a none))
  | .ack d0 d1 :: rest => some (some (be16 d0 d1), { s with readAnswers := rest }.emit (.rd a (some (be16 d0 d1))))

/-! ## Runs of a unit -/

/-- How far a unit got: it returned a result, or the RSE stands still in the state given, waiting or faulted. -/
inductive Run (α : Type) where
  | done (r : α) (s : State)
  | stop (s : State)
  deriving DecidableEq, Repr

/-- Go on with a unit's result; a run that stands still stays. -/
def Run.bind {α β : Type} (x : Run α) (f : α → State → Run β) : Run β :=
  match x with
  | .done r s => f r s
  | .stop s => .stop s

/-- Hand a unit's result to its caller. -/
def Run.elim {α : Type} (x : Run α) (f : α → State → State) : State :=
  match x with
  | .done r s => f r s
  | .stop s => s

/-- The state a run ends in. -/
def Run.state {α : Type} (x : Run α) : State :=
  match x with
  | .done _ s => s
  | .stop s => s

/-! ## Dispatch -/

/-- The session check of a host command (44_control_surface.md R280). -/
def sessionFault (i : Instr) (s : State) : Option FaultKind :=
  if i = .openSession then
    if s.sessionOpen then some .sessionOpen else none
  else if s.sessionOpen then none
  else some .noSession

/-- The dispatch of a decoded host command: no step once faulted, then the busy check, then the session check, then CMD, the
command's own work, and whatever ends it (44_control_surface.md R280, 60_exceptions.md R313). -/
def hostCommand (i : Instr) (run : State → State) (s : State) : Outcome :=
  if s.fault.isSome then .fault .halted
  else if s.busy then .next (s.raiseFault .reentry)
  else
    match sessionFault i s with
    | some f => .next (s.raiseFault f)
    | none => .next (run (s.accept i))

/-- The dispatch of a harness request: as a host command, but it needs no session (60_exceptions.md R334). -/
def harnessRequest (i : Instr) (run : State → State) (s : State) : Outcome :=
  if s.fault.isSome then .fault .halted
  else if s.busy then .next (s.raiseFault .reentry)
  else .next (run (s.accept i))

/-- A table entry runs where a table application has come to it (42_table_interpreter.md R200): at the cursor. -/
def atEntry (run : TableId → Nat → TableRet → State → State) (s : State) : Outcome :=
  if s.fault.isSome then .fault .halted
  else
    match s.control with
    | .table t i ret => .next (run t i ret s)
    | _ => .fault .noEntryDue

end Sys2Proof.Machine
end

