-- ==== Sys2Proof/Machine/BusTransport.lean ====
section
/-! DEFINITION. The Bus Transport: readRegister and writeRegister, and the harness requests READ_REG and WRITE_REG
(40_bus_transport.md). -/

namespace Sys2Proof.Machine

/-! ## readRegister (40_bus_transport.md R140 to R142) -/

/-- `readRegister(a)` on behalf of `ret`: the transport check, then one transaction and no retry. With no answer yet the RSE
holds (20_memory.md R82). -/
def readRegister (ret : ReadRet) (a : Word) (s : State) : Run ReadResult :=
  if s.transport then
    match busWriteRead a s with
    | none => .stop (s.setControl (.read a ret))
    | some (some v, s') => .done (.ok v) s'
    | some (none, s') => .done (.fail .transferError) s'
  else .done (.fail .noDevice) s

/-! ## writeRegister (40_bus_transport.md R143 to R148) -/

/-- The number of the attempt with `left` attempts to go after it, of the `1 + P_WRITE_RETRIES` there are (10_state.md R43,
40_bus_transport.md R144). -/
def attemptNumber (c : Cfg) (left : Nat) : Nat := 1 + c.writeRetries.toNat - left

/-- The attempts of a register write from the one with `left` attempts after it: after a `Nak` that is not the last, one log
entry and one delay, then the next attempt; after the last, the final failure with neither (40_bus_transport.md R143 to
R146). -/
def writeAttempts (ret : WriteRet) (a v : Word) : Nat → State → Run WriteResult
  | left, s =>
    match busWrite a v s with
    | none => .stop (s.setControl (.write a v (attemptNumber s.cfg left) ret))
    | some (.ack, s') => .done .ok s'
    | some (.nak, s') =>
      match left with
      | 0 => .done (.fail .transferError) s'
      | n + 1 =>
        writeAttempts ret a v n ((s'.log .writeRetry a (some v)).sleep s'.cfg.writeRetryDelayMs)

/-- `writeRegister(a, v)` on behalf of `ret`: the transport check, once, then the attempts (40_bus_transport.md R143, R147). -/
def writeRegister (ret : WriteRet) (a v : Word) (s : State) : Run WriteResult :=
  if s.transport then writeAttempts ret a v s.cfg.writeRetries.toNat s
  else .done (.fail .noDevice) s

/-- Going on with a write that waited in attempt `attempt`. -/
def resumeWrite (ret : WriteRet) (a v : Word) (attempt : Nat) (s : State) : Run WriteResult :=
  writeAttempts ret a v (1 + s.cfg.writeRetries.toNat - attempt) s

/-- Going on with a read that waited: its transport check is behind it (40_bus_transport.md R147). -/
def resumeRead (ret : ReadRet) (a : Word) (s : State) : Run ReadResult :=
  match busWriteRead a s with
  | none => .stop (s.setControl (.read a ret))
  | some (some v, s') => .done (.ok v) s'
  | some (none, s') => .done (.fail .transferError) s'

/-! ## The harness requests -/

/-- The end of a READ_REG. -/
def finishRead (r : ReadResult) (s : State) : State := s.finish (readResult r)

/-- The end of a WRITE_REG. -/
def finishWrite (r : WriteResult) (s : State) : State := s.finish (writeResult r)

/-- READ_REG (40_bus_transport.md R140). -/
def execReadReg (a : Word) (s : State) : Outcome :=
  harnessRequest (.readReg a) (fun s => (readRegister .request a s).elim finishRead) s

/-- WRITE_REG (40_bus_transport.md R143). -/
def execWriteReg (a v : Word) (s : State) : Outcome :=
  harnessRequest (.writeReg a v) (fun s => (writeRegister .request a v s).elim finishWrite) s

end Sys2Proof.Machine
end

