-- ==== Sys2Proof/Machine/StatusPoller.lean ====
section
/-! DEFINITION. The Status Poller: pollStatus, and the harness request POLL_STATUS (41_status_poller.md). -/

namespace Sys2Proof.Machine

/-- How one iteration of the poll ended: it read the expected value, or the loop goes on with this last observed value
(41_status_poller.md R170, R172). -/
inductive Iteration where
  | converged (v : Word)
  | again (last : Option Word)
  deriving DecidableEq, Repr

/-- The end of an iteration after its result read: a value read becomes `last` and is compared over all 16 bits; a failed read
skips the iteration (41_status_poller.md R170, R172, R175). -/
def pollAfterRead (p : Poll) (r : ReadResult) (s : State) : Run Iteration :=
  match r with
  | .ok x => if x = p.req.expected then .done (.converged x) s else .done (.again (some x)) s
  | .fail _ => .done (.again p.last) s

/-- The iteration after its selector write: the result read, or, after a failed write, no read (41_status_poller.md R173). -/
def pollAfterWrite (p : Poll) (r : WriteResult) (s : State) : Run Iteration :=
  match r with
  | .ok => (readRegister (.result p) p.req.resultAddr s).bind (pollAfterRead p)
  | .fail _ => .done (.again p.last) s

/-- One iteration: the delay first, then the selector write with its retries, then the result read (41_status_poller.md R171,
R174). -/
def pollIteration (p : Poll) (s : State) : Run Iteration :=
  (writeRegister (.selector p) p.req.selAddr p.req.selValue (s.sleep p.req.delayMs)).bind (pollAfterWrite p)

/-- The poll in its next iteration. -/
def nextIteration (p : Poll) (last : Option Word) : Poll := { p with k := p.k + 1, last := last }

/-- The iterations from number `p.k`, `left` of them: until one converges or none is left (41_status_poller.md R170, R179). -/
def pollLoop : Nat → Poll → State → Run PollOutcome
  | 0, p, s => .done (.timeout p.last) s
  | left + 1, p, s =>
    match pollIteration p s with
    | .stop s' => .stop s'
    | .done (.converged v) s' => .done (.converged v) s'
    | .done (.again last) s' => pollLoop left (nextIteration p last) s'

/-- `pollStatus` on behalf of `ret`: iteration 1 first, nothing observed yet; no iteration when `maxAttempts = 0`
(41_status_poller.md R170, R176, R180). -/
def pollStatus (req : PollReq) (ret : PollRet) (s : State) : Run PollOutcome :=
  pollLoop req.maxAttempts.toNat ⟨req, 1, none, ret⟩ s

/-- Going on with a poll whose iteration `p.k` has just ended. -/
def pollContinue (p : Poll) (r : Iteration) (s : State) : Run PollOutcome :=
  match r with
  | .converged v => .done (.converged v) s
  | .again last => pollLoop (p.req.maxAttempts.toNat - p.k) (nextIteration p last) s

/-- The end of a POLL_STATUS. -/
def finishPoll (o : PollOutcome) (s : State) : State := s.finish (pollResult o)

/-- POLL_STATUS (41_status_poller.md R170). -/
def execPollStatus (selAddr selValue resultAddr expected : Word) (delayMs maxAttempts : Long) (s : State) : Outcome :=
  harnessRequest (.pollStatus selAddr selValue resultAddr expected delayMs maxAttempts)
    (fun s =>
      (pollStatus ⟨selAddr, selValue, resultAddr, expected, delayMs, maxAttempts⟩ .request s).elim finishPoll) s

end Sys2Proof.Machine
end

