-- ==== Sys2Proof/Machine/TableInterpreter.lean ====
section
/-! DEFINITION. The Table Interpreter: the entry kinds WR, WAIT and END, applyTable, and the harness request APPLY_TABLE
(42_table_interpreter.md). -/

namespace Sys2Proof.Machine

/-! ## The entries -/

/-- What an entry does to the table application. -/
inductive EntryResult where
  /-- Go on at the next entry. -/
  | goOn
  /-- The table has ended with `Ok`. -/
  | finished
  /-- The entry's write failed. -/
  | failed (c : BusError)
  deriving DecidableEq, Repr

/-- What a WR entry makes of its write's result (42_table_interpreter.md R201). -/
def afterEntryWrite : WriteResult → EntryResult
  | .ok => .goOn
  | .fail c => .failed c

/-- A WR entry at index `i` of table `t`: `writeRegister(a, v)` with its retries (42_table_interpreter.md R201). -/
def entryWr (t : TableId) (i : Nat) (ret : TableRet) (a v : Word) (s : State) : Run EntryResult :=
  (writeRegister (.entry t i ret) a v s).bind fun r s' => .done (afterEntryWrite r) s'

/-- A WAIT entry: one sleep and no bus access (42_table_interpreter.md R202). -/
def entryWait (ms : Word) (s : State) : Run EntryResult := .done .goOn (s.sleep (waitMs ms))

/-- An END entry: the table stops with `Ok` (42_table_interpreter.md R203). -/
def entryEnd (s : State) : Run EntryResult := .done .finished s

/-- Entry `e` at index `i` of table `t`, by its kind (42_table_interpreter.md R200, 30_encoding.md R101). -/
def runEntry (t : TableId) (i : Nat) (ret : TableRet) (e : Entry) (s : State) : Run EntryResult :=
  match entryKind s.cfg e with
  | .wait => entryWait e.value s
  | .endTable => entryEnd s
  | .wr => entryWr t i ret e.addr e.value s

/-! ## applyTable (42_table_interpreter.md R200) -/

/-- The entries of table `t` from index `i`. Past the last entry with no END there is a fault, with the events so far kept
(42_table_interpreter.md R204). -/
def tableLoop (t : TableId) (ret : TableRet) : List Entry → Nat → State → Run TableResult
  | [], i, s => .stop ((s.setControl (.table t i ret)).raiseFault .tableOverrun)
  | e :: rest, i, s =>
    match runEntry t i ret e s with
    | .stop s' => .stop s'
    | .done .goOn s' => tableLoop t ret rest (i + 1) s'
    | .done .finished s' => .done .ok s'
    | .done (.failed c) s' => .done (.writeError i c) s'

/-- `applyTable(t)` on behalf of `ret`, from entry 0; an unknown id is a fault before any event (42_table_interpreter.md R200,
R204). -/
def applyTable (t : TableId) (ret : TableRet) (s : State) : Run TableResult :=
  match readTable s.cfg t with
  | none => .stop ((s.setControl (.table t 0 ret)).raiseFault .noTable)
  | some entries => tableLoop t ret entries 0 s

/-! ## One entry at the cursor -/

/-- Where the table stands after the entry at index `i`: at the next entry, or ended with its result (42_table_interpreter.md
R200, R209). -/
def afterEntry (t : TableId) (i : Nat) (ret : TableRet) (r : EntryResult) (s : State) : State :=
  match r with
  | .goOn => s.setControl (.table t (i + 1) ret)
  | .finished => s.setControl (.tableDone ret .ok)
  | .failed c => s.setControl (.tableDone ret (.writeError i c))

/-- WR (42_table_interpreter.md R201), at the cursor. -/
def execWr (a v : Word) (s : State) : Outcome :=
  atEntry (fun t i ret s => (entryWr t i ret a v s).elim (afterEntry t i ret)) s

/-- WAIT (42_table_interpreter.md R202), at the cursor. -/
def execWait (ms : Word) (s : State) : Outcome :=
  atEntry (fun t i ret s => (entryWait ms s).elim (afterEntry t i ret)) s

/-- END (42_table_interpreter.md R203), at the cursor; its value is not read. -/
def execEndTable (_ignored : Word) (s : State) : Outcome :=
  atEntry (fun t i ret s => (entryEnd s).elim (afterEntry t i ret)) s

/-! ## The harness request -/

/-- The end of an APPLY_TABLE, and of a SET_EFFECT whose table was applied. -/
def finishTable (r : TableResult) (s : State) : State := s.finish (tableResult r)

/-- APPLY_TABLE (42_table_interpreter.md R200). -/
def execApplyTable (t : TableId) (s : State) : Outcome :=
  harnessRequest (.applyTable t) (fun s => (applyTable t .request s).elim finishTable) s

end Sys2Proof.Machine
end

