-- ==== Sys2Proof/Machine/Sequencer.lean ====
section
/-! DEFINITION. The Mode/Effect Sequencer: SET_MODE and SET_EFFECT (43_mode_effect.md). Each step of SET_MODE is a definition;
the `after…` ones take what the step's table or poll returned, so that a command that had to wait goes on through the same
text. -/

namespace Sys2Proof.Machine

/-! ## SET_MODE, its last step first (43_mode_effect.md R240) -/

/-- Steps 6 and 7, the poll's outcome: a Timeout is the call's result and changes no session state; convergence commits the
mode (43_mode_effect.md R247, R248). -/
def afterModePoll (l : Latch) (o : PollOutcome) (s : State) : State :=
  match o with
  | .converged _ => (s.commitMode l.m).finish .ok
  | .timeout last => s.finish (.fail (.pollTimeout last))

/-- Step 6: the final convergence check, for the value of step 4 (43_mode_effect.md R245, R247). -/
def runModePoll (l : Latch) (s : State) : State :=
  (pollStatus (modePollReq s.cfg l.m) (.modePoll l) s).elim (afterModePoll l)

/-- Step 5, the table's result (43_mode_effect.md R246). -/
def afterPreviewTable (l : Latch) (r : TableResult) (s : State) : State :=
  match r with
  | .ok => runModePoll l s
  | .writeError i c => s.finish (.fail (.writeError i c))

/-- Step 5: the return-to-preview table, exactly when the session was initialized at the start and the requested mode is
preview-class, whatever the mode before (43_mode_effect.md R246; 90_conflicts.md C2, C3). -/
def runPreviewTable (l : Latch) (s : State) : State :=
  if l.wasInit && modeClass l.m = .preview then
    (applyTable s.cfg.tReturnPreview (.previewTable l) s).elim (afterPreviewTable l)
  else runModePoll l s

/-- Step 3, the table's result (43_mode_effect.md R244). -/
def afterModeTable (l : Latch) (r : TableResult) (s : State) : State :=
  match r with
  | .ok => runPreviewTable l s
  | .writeError i c => s.finish (.fail (.writeError i c))

/-- Step 3: the mode's table (43_mode_effect.md R244). -/
def runModeTable (l : Latch) (s : State) : State :=
  (applyTable (tMode s.cfg l.m) (.modeTable l) s).elim (afterModeTable l)

/-- Step 2, the initialization poll's outcome: a Timeout is logged and ignored, or ends the call under the policy flag
(43_mode_effect.md R242). -/
def afterInitPoll (l : Latch) (o : PollOutcome) (s : State) : State :=
  match o with
  | .converged _ => runModeTable l s
  | .timeout last =>
    if s.cfg.initPollFatal then s.finish (.fail (.pollTimeout last))
    else runModeTable l (s.log .initPollTimeout s.cfg.statusResultAddr last)

/-- Step 2: the initialization poll. -/
def runInitPoll (l : Latch) (s : State) : State :=
  (pollStatus (initPollReq s.cfg) (.initPoll l) s).elim (afterInitPoll l)

/-- Step 2, the init table's result (43_mode_effect.md R243). -/
def afterInitTable (l : Latch) (r : TableResult) (s : State) : State :=
  match r with
  | .ok => runInitPoll l s
  | .writeError i c => s.finish (.fail (.writeError i c))

/-- Step 2: the init table. -/
def runInitTable (l : Latch) (s : State) : State :=
  (applyTable s.cfg.tInit (.initTable l) s).elim (afterInitTable l)

/-- `setMode(w, h)`: step 1, the resolution, then step 2 where the session is not initialized and step 3 where it is; the flag
is read once and latched (43_mode_effect.md R240, R241; 10_state.md R47). -/
def setMode (w h : Long) (s : State) : State :=
  match resolve w h with
  | none => s.finish (.fail .invalidResolution)
  | some m =>
    if s.initialized then runModeTable ⟨m, true⟩ s
    else runInitTable ⟨m, false⟩ s

/-- SET_MODE (43_mode_effect.md R240). -/
def execSetMode (w h : Long) (s : State) : Outcome :=
  hostCommand (.setMode w h) (setMode w h) s

/-! ## SET_EFFECT (43_mode_effect.md R250 to R255) -/

/-- `setEffect(item, value)`: the item's table for the value is applied, and no poll follows (43_mode_effect.md R250, R253). -/
def setEffect (item value : Long) (s : State) : State :=
  match itemOf item with
  | none => s.finish (.fail .unknownItem)
  | some it => (applyTable (effectTable s.cfg it value) .effect s).elim finishTable

/-- SET_EFFECT (43_mode_effect.md R250). -/
def execSetEffect (item value : Long) (s : State) : Outcome :=
  hostCommand (.setEffect item value) (setEffect item value) s

/-! ## The callers of a table and of a poll -/

/-- Hand a table's result to the caller it has. -/
def afterTable (ret : TableRet) (r : TableResult) (s : State) : State :=
  match ret with
  | .request => finishTable r s
  | .effect => finishTable r s
  | .initTable l => afterInitTable l r s
  | .modeTable l => afterModeTable l r s
  | .previewTable l => afterPreviewTable l r s

/-- Hand a poll's outcome to the caller it has. -/
def afterPoll (ret : PollRet) (o : PollOutcome) (s : State) : State :=
  match ret with
  | .request => finishPoll o s
  | .initPoll l => afterInitPoll l o s
  | .modePoll l => afterModePoll l o s

end Sys2Proof.Machine
end

