-- ==== Sys2Proof/Machine/Session.lean ====
section
/-! DEFINITION. The session commands of the control surface: OPEN, CLOSE, GET_STATUS (44_control_surface.md). -/

namespace Sys2Proof.Machine

/-- `Hook(h)` if it is supplied, and then what follows it. The hook is invoked once; until it returns the RSE holds, and that
is all a hook can do to it (44_control_surface.md R283, 60_exceptions.md R332). DESIGN CHOICE (log 13): `HOOK(h)` is appended
when the hook is invoked, so it stands in the trace while the hook has not returned; the spec does not say when it is appended
in that case. -/
def withHook (supplied : Bool) (h : Hook) (after : State → State) (s : State) : State :=
  if supplied then
    if s.hookReturns then after (s.emit (.hook h))
    else (s.emit (.hook h)).setControl (.hook h)
  else after s

/-- OPEN after its hook (44_control_surface.md R282). -/
def afterPowerOn (s : State) : State := s.clearMode.finish .ok

/-- CLOSE after its hook (44_control_surface.md R284). -/
def afterPowerOff (s : State) : State := s.releaseSession.finish .ok

/-- Going on after a hook that has returned. -/
def afterHook (h : Hook) (s : State) : State :=
  match h with
  | .powerOn => afterPowerOn s
  | .powerOff => afterPowerOff s

/-- OPEN (44_control_surface.md R282). -/
def execOpenSession (s : State) : Outcome :=
  hostCommand .openSession (fun s => withHook s.cfg.powerOnHook .powerOn afterPowerOn s.acquireSession) s

/-- CLOSE (44_control_surface.md R284). -/
def execCloseSession (s : State) : Outcome :=
  hostCommand .closeSession (fun s => withHook s.cfg.powerOffHook .powerOff afterPowerOff s) s

/-- GET_STATUS: a success that reads nothing (44_control_surface.md R286). -/
def execGetStatus (s : State) : Outcome :=
  hostCommand .getStatus (fun s => s.finish .ok) s

end Sys2Proof.Machine
end

