-- ==== Sys2Proof/Machine/Dispatch.lean ====
section
/-! DEFINITION. The dispatch of an instruction to its meaning. -/

namespace Sys2Proof.Machine

def exec (i : Instr) (s : State) : Host.Outcome State Fault Refusal :=
  match i with
  | .openSession => Sys2Proof.Machine.execOpenSession s
  | .closeSession => Sys2Proof.Machine.execCloseSession s
  | .setMode w h => Sys2Proof.Machine.execSetMode w h s
  | .getStatus => Sys2Proof.Machine.execGetStatus s
  | .setEffect item value => Sys2Proof.Machine.execSetEffect item value s
  | .readReg a => Sys2Proof.Machine.execReadReg a s
  | .writeReg a v => Sys2Proof.Machine.execWriteReg a v s
  | .pollStatus sa sv ra e d n => Sys2Proof.Machine.execPollStatus sa sv ra e d n s
  | .applyTable t => Sys2Proof.Machine.execApplyTable t s
  | .wr a v => Sys2Proof.Machine.execWr a v s
  | .wait ms => Sys2Proof.Machine.execWait ms s
  | .endTable x => Sys2Proof.Machine.execEndTable x s

end Sys2Proof.Machine
end

