-- ==== Sys2Proof/Machine/Resume.lean ====
section
/-! DEFINITION. The steps of a command that is still running: going on after a wait, running the next entry of a table, handing a
table's result on (10_state.md R48, the small-step form; log 3), and taking a presented frame. -/

namespace Sys2Proof.Machine

/-- Going on with a register write whose answer may have come. -/
def stepWrite (a v : Word) (attempt : Nat) (ret : WriteRet) (s : State) : State :=
  let run := resumeWrite ret a v attempt s
  match ret with
  | .request => run.elim finishWrite
  | .selector p => ((run.bind (pollAfterWrite p)).bind (pollContinue p)).elim (afterPoll p.ret)
  | .entry t i tret => (run.bind fun r s' => .done (afterEntryWrite r) s').elim (afterEntry t i tret)

/-- Going on with a register read whose answer may have come. -/
def stepRead (a : Word) (ret : ReadRet) (s : State) : State :=
  let run := resumeRead ret a s
  match ret with
  | .request => run.elim finishRead
  | .result p => ((run.bind (pollAfterRead p)).bind (pollContinue p)).elim (afterPoll p.ret)

/-- Fetching entry `i` of table `t` and running the instruction it is. The entry is read when it is run and not before
(42_table_interpreter.md R200, R211). -/
def stepEntry (t : TableId) (i : Nat) (s : State) : Outcome :=
  match readTable s.cfg t with
  | none => .next (s.raiseFault .noTable)
  | some entries =>
    match entries[i]? with
    | none => .next (s.raiseFault .tableOverrun)
    | some e => exec (decodeEntry s.cfg e) s

/-- One step of the running command. -/
def stepRunning (s : State) : Outcome :=
  match s.control with
  | .idle => .fault .nothingRunning
  | .hook h => if s.hookReturns then .next (afterHook h s) else .fault .awaitingHook
  | .write a v attempt ret =>
    if s.writeAnswers.isEmpty then .fault .awaitingBus else .next (stepWrite a v attempt ret s)
  | .read a ret =>
    if s.readAnswers.isEmpty then .fault .awaitingBus else .next (stepRead a ret s)
  | .table t i _ => stepEntry t i s
  | .tableDone ret r => .next (afterTable ret r s)

/-- Taking a presented frame: the busy check, then decoding, then the instruction; an illegal frame is a fault
(44_control_surface.md R280, 30_encoding.md R106, 60_exceptions.md R313). -/
def stepPresented (p : Presented) (s : State) : Outcome :=
  if s.busy then .next (s.clearPort.raiseFault .reentry)
  else
    match decodeFrame p.port p.bytes with
    | .error _ => .next (s.clearPort.raiseFault .illegalCommand)
    | .ok i => exec i s.clearPort

/-- A step: none once faulted; else a presented frame, else the running command, else nothing to do (44_control_surface.md
R280; log 4, log 6). -/
def stepMachine (s : State) : Outcome :=
  if s.fault.isSome then .fault .halted
  else
    match s.port with
    | some p => stepPresented p s
    | none => if s.busy then stepRunning s else .fault .idle

/-- Place the code of an instruction where the next step fetches it: a frame on its port; an entry as the whole of table 0 of
the store, with a harness request standing at its entry 0 (log 8). -/
def placeCode (s : State) : Code → State
  | .frame p bytes => s.present p bytes
  | .entry w =>
    { s with
      cfg := { s.cfg with tables := (0, [unpackEntry w]) :: s.cfg.tables.filter fun p => p.1 ≠ 0 }
      busy := true
      port := none
      control := .table 0 0 .request }

end Sys2Proof.Machine
end

