-- ==== Sys2Proof/Machine/Step.lean ====
section
/-! DEFINITION. One step of the machine, and the placing of an instruction where the next step fetches it. -/

namespace Sys2Proof.Machine

/-- One step (Machine/Resume.lean). -/
def step (s : State) : Host.Outcome State Fault Refusal := stepMachine s

/-- The state with the instruction of an opcode-table row placed where `step` fetches (log 7, log 8). -/
def State.withFetchWord (s : State) (nbits w : Nat) : State := placeCode s (tableCode nbits w)

end Sys2Proof.Machine
end

