-- ==== Sys2Proof/Safety.lean ====
section
/-! DEFINITION. The terms claims are made in: when the RSE accepts a command, what a finished command leaves, the events of the
units, what a run leaves alone, a configuration that is ready to boot, and the invariant of every step. -/

namespace Sys2Proof.Machine

/-! ## Accepting a command -/

/-- The RSE accepts a harness request: no fault, nothing running (60_exceptions.md R334). -/
def ready (s : State) : Prop := s.fault = none ∧ s.busy = false

/-- The RSE accepts every host command but OPEN (44_control_surface.md R280). -/
def readyInSession (s : State) : Prop := ready s ∧ s.sessionOpen = true

/-- The host commands and the harness requests: what a port can deliver. -/
def isCommand : Instr → Bool
  | .openSession => true
  | .closeSession => true
  | .setMode _ _ => true
  | .getStatus => true
  | .setEffect _ _ => true
  | .readReg _ => true
  | .writeReg _ _ => true
  | .pollStatus _ _ _ _ _ _ => true
  | .applyTable _ => true
  | .wr _ _ => false
  | .wait _ => false
  | .endTable _ => false

/-- The host commands (30_encoding.md R104). -/
def isHostCommand : Instr → Bool
  | .openSession => true
  | .closeSession => true
  | .setMode _ _ => true
  | .getStatus => true
  | .setEffect _ _ => true
  | .readReg _ => false
  | .writeReg _ _ => false
  | .pollStatus _ _ _ _ _ _ => false
  | .applyTable _ => false
  | .wr _ _ => false
  | .wait _ => false
  | .endTable _ => false

/-! ## States after a piece of work -/

/-- The state after events `evs`, with these answers still to come. -/
def State.after (s : State) (evs : List Event) (ws : List WriteAnswer) (rs : List ReadAnswer) : State :=
  { s with trace := s.trace ++ evs, writeAnswers := ws, readAnswers := rs }

/-- The state after command `i` was accepted, did `evs` and delivered result `r`: nothing else has changed. -/
def completed (s : State) (i : Instr) (evs : List Event) (r : Result) (ws : List WriteAnswer) (rs : List ReadAnswer) :
    State :=
  { s with
    trace := s.trace ++ (.cmd i :: evs ++ [.result r])
    busy := false
    control := .idle
    writeAnswers := ws
    readAnswers := rs }

/-! ## The events of the units -/

/-- One failed attempt with its log and its delay (40_bus_transport.md R145, R146). -/
def retryEvents (c : Cfg) (a v : Word) : List Event :=
  [.wr a v .nak, .log .writeRetry a (some v), .sleep c.writeRetryDelayMs]

/-- A register write acknowledged after `j` failed attempts (40_bus_transport.md R148). -/
def ackedAfter (c : Cfg) (a v : Word) (j : Nat) : List Event :=
  (List.replicate j (retryEvents c a v)).flatten ++ [.wr a v .ack]

/-- A register write that failed all its `1 + N` attempts (40_bus_transport.md R148). -/
def failedWrite (c : Cfg) (a v : Word) : List Event :=
  (List.replicate c.writeRetries.toNat (retryEvents c a v)).flatten ++ [.wr a v .nak]

/-- The answers that fail a register write: `1 + N` times `Nak`. -/
def failingAnswers (c : Cfg) : List WriteAnswer := List.replicate (c.writeRetries.toNat + 1) .nak

/-- The value a read answer carries (20_memory.md R65). -/
def readValue : ReadAnswer → Option Word
  | .ack d0 d1 => some (be16 d0 d1)
  | .nak => none

/-- How the transactions of one poll iteration are answered: `none`, the selector write fails all its attempts; `some (j, r)`,
it is acknowledged after `j` failed attempts and the read is answered by `r`. -/
abbrev IterationAnswers := Option (Nat × ReadAnswer)

/-- The answers an iteration takes from the writes. -/
def iterationWrites (c : Cfg) : IterationAnswers → List WriteAnswer
  | none => failingAnswers c
  | some (j, _) => List.replicate j .nak ++ [.ack]

/-- The answers an iteration takes from the reads: none after a failed selector write (41_status_poller.md R173). -/
def iterationReads : IterationAnswers → List ReadAnswer
  | none => []
  | some (_, r) => [r]

/-- What an iteration reads, if it reads anything. -/
def iterationValue : IterationAnswers → Option Word
  | none => none
  | some (_, r) => readValue r

/-- The selector write is within its budget of attempts (40_bus_transport.md R144). -/
def iterationFits (c : Cfg) : IterationAnswers → Prop
  | none => True
  | some (j, _) => j ≤ c.writeRetries.toNat

/-- The events of an iteration: the delay, the attempts of the selector write, and the read unless that write failed
(41_status_poller.md R171, R173, R174). -/
def iterationEvents (c : Cfg) (q : PollReq) : IterationAnswers → List Event
  | none => .sleep q.delayMs :: failedWrite c q.selAddr q.selValue
  | some (j, r) => .sleep q.delayMs :: ackedAfter c q.selAddr q.selValue j ++ [.rd q.resultAddr (readValue r)]

/-- The events, the write answers and the read answers of a poll's iterations. -/
def pollEvents (c : Cfg) (q : PollReq) (its : List IterationAnswers) : List Event := its.flatMap (iterationEvents c q)

def pollWrites (c : Cfg) (its : List IterationAnswers) : List WriteAnswer := its.flatMap (iterationWrites c)

def pollReads (its : List IterationAnswers) : List ReadAnswer := its.flatMap iterationReads

/-- The last value that was read, if any was (41_status_poller.md R177). -/
def lastRead (its : List IterationAnswers) : Option Word := (its.filterMap iterationValue).getLast?

/-- Iterations within their budgets that never read the expected value. -/
def misses (c : Cfg) (expected : Word) (its : List IterationAnswers) : Prop :=
  ∀ x ∈ its, iterationFits c x ∧ iterationValue x ≠ some expected

/-- An iteration within its budget that reads the expected value: it produces it, in the words of 41_status_poller.md R178. -/
def hits (c : Cfg) (expected : Word) (x : IterationAnswers) : Prop :=
  iterationFits c x ∧ iterationValue x = some expected

/-- The events of a table entry whose write, if it is a WR, is acknowledged after `j` failed attempts; END has none
(42_table_interpreter.md R201 to R203). -/
def entryEvents (c : Cfg) (x : Entry × Nat) : List Event :=
  match entryKind c x.1 with
  | .wr => ackedAfter c x.1.addr x.1.value x.2
  | .wait => [.sleep (waitMs x.1.value)]
  | .endTable => []

/-- The events of an entry on a fault-free transport (42_table_interpreter.md R208). -/
def ackedEntryEvents (c : Cfg) (e : Entry) : List Event :=
  match entryKind c e with
  | .wr => [.wr e.addr e.value .ack]
  | .wait => [.sleep (waitMs e.value)]
  | .endTable => []

/-- The write answers an entry takes, of `entryEvents`. -/
def entryWrites (c : Cfg) (x : Entry × Nat) : List WriteAnswer :=
  match entryKind c x.1 with
  | .wr => List.replicate x.2 .nak ++ [.ack]
  | .wait => []
  | .endTable => []

/-- The entry is no END, and its write is within its budget of attempts. -/
def entryFits (c : Cfg) (x : Entry × Nat) : Prop :=
  entryKind c x.1 ≠ .endTable ∧ x.2 ≤ c.writeRetries.toNat

/-- The events and the write answers of a list of entries, each with the number of failed attempts before its write's
acknowledgement. -/
def tableEvents (c : Cfg) (xs : List (Entry × Nat)) : List Event := xs.flatMap (entryEvents c)

def tableWrites (c : Cfg) (xs : List (Entry × Nat)) : List WriteAnswer := xs.flatMap (entryWrites c)

/-- Entries with no failed attempt. -/
def atOnce (es : List Entry) : List (Entry × Nat) := es.map fun e => (e, 0)

/-- Entries, none an END, with failed attempts within the budget of each write. -/
def entriesFit (c : Cfg) (xs : List (Entry × Nat)) : Prop := ∀ x ∈ xs, entryFits c x

/-- `es` is what table `t` holds before its first END. -/
def tableBody (c : Cfg) (t : TableId) (es : List Entry) : Prop :=
  (∀ e ∈ es, entryKind c e ≠ .endTable) ∧
    ∃ stop rest, entryKind c stop = .endTable ∧ readTable c t = some (es ++ stop :: rest)

/-- Table `t` holds `es`, with no END among them, and then the WR entry `e`. -/
def tableReaches (c : Cfg) (t : TableId) (es : List Entry) (e : Entry) : Prop :=
  (∀ x ∈ es, entryKind c x ≠ .endTable) ∧ entryKind c e = .wr ∧ ∃ rest, readTable c t = some (es ++ e :: rest)

/-! ## What a table and a poll do

All the ways a table application and a poll can go in a state, told by the answers: neither is a step of the machine, and a
statement that speaks of them holds with a transport and without one. -/

/-- Table `t` emits `evs`, takes the write answers `ws` and returns `r`: with a transport, every write acknowledged within its
retries up to an END, or up to the WR entry whose attempts all fail; without one, WAITs up to an END, or up to the first WR entry
(42_table_interpreter.md R200, R209, R210). -/
def tableDoes (s : State) (t : TableId) (evs : List Event) (ws : List WriteAnswer) (r : TableResult) : Prop :=
  (s.transport = true ∧ ∃ xs, entriesFit s.cfg xs ∧
    ((r = .ok ∧ tableBody s.cfg t (xs.map Prod.fst) ∧ evs = tableEvents s.cfg xs ∧ ws = tableWrites s.cfg xs) ∨
      ∃ e, r = .writeError xs.length .transferError ∧ tableReaches s.cfg t (xs.map Prod.fst) e ∧
        evs = tableEvents s.cfg xs ++ failedWrite s.cfg e.addr e.value ∧
        ws = tableWrites s.cfg xs ++ failingAnswers s.cfg)) ∨
  (s.transport = false ∧ ws = [] ∧ ∃ es : List Entry, (∀ x ∈ es, entryKind s.cfg x = .wait) ∧
    evs = (es.map fun x => .sleep (waitMs x.value)) ∧
    ((r = .ok ∧ tableBody s.cfg t es) ∨ ∃ e, r = .writeError es.length .noDevice ∧ tableReaches s.cfg t es e))

/-- The poll `q` emits `evs`, takes the answers `ws` and `rs` and ends with `o`: with a transport, at the first iteration of its
budget that produces the expected value, or after all of them; without one, after its sleeps (41_status_poller.md R172, R177,
R178). -/
def pollDoes (s : State) (q : PollReq) (evs : List Event) (ws : List WriteAnswer) (rs : List ReadAnswer) (o : PollOutcome) :
    Prop :=
  (s.transport = true ∧ ∃ its, misses s.cfg q.expected its ∧
    ((∃ x, hits s.cfg q.expected x ∧ its.length < q.maxAttempts.toNat ∧ o = .converged q.expected ∧
        evs = pollEvents s.cfg q (its ++ [x]) ∧ ws = pollWrites s.cfg (its ++ [x]) ∧ rs = pollReads (its ++ [x])) ∨
      (its.length = q.maxAttempts.toNat ∧ o = .timeout (lastRead its) ∧ evs = pollEvents s.cfg q its ∧
        ws = pollWrites s.cfg its ∧ rs = pollReads its))) ∨
  (s.transport = false ∧ ws = [] ∧ rs = [] ∧ o = .timeout none ∧
    evs = List.replicate q.maxAttempts.toNat (.sleep q.delayMs))

/-- The initialization poll after which SET_MODE goes on to step 3: one that converges, or one that times out, with its log
entry, when the policy flag does not make that fatal (43_mode_effect.md R242). -/
def initPollPasses (s : State) (evs : List Event) (ws : List WriteAnswer) (rs : List ReadAnswer) : Prop :=
  (∃ v, pollDoes s (initPollReq s.cfg) evs ws rs (.converged v)) ∨
  (s.cfg.initPollFatal = false ∧ ∃ before last, pollDoes s (initPollReq s.cfg) before ws rs (.timeout last) ∧
    evs = before ++ [.log .initPollTimeout s.cfg.statusResultAddr last])

/-- The events that are bus transactions. -/
def isBusEvent : Event → Bool
  | .wr _ _ _ => true
  | .rd _ _ => true
  | .sleep _ => false
  | .log _ _ _ => false
  | .hook _ => false
  | .cmd _ => false
  | .result _ => false

/-- The attempts of a register write. -/
def isWriteEvent : Event → Bool
  | .wr _ _ _ => true
  | .rd _ _ => false
  | .sleep _ => false
  | .log _ _ _ => false
  | .hook _ => false
  | .cmd _ => false
  | .result _ => false

/-- The register reads. -/
def isReadEvent : Event → Bool
  | .wr _ _ _ => false
  | .rd _ _ => true
  | .sleep _ => false
  | .log _ _ _ => false
  | .hook _ => false
  | .cmd _ => false
  | .result _ => false

/-- The events of the command port. -/
def isPortEvent : Event → Bool
  | .wr _ _ _ => false
  | .rd _ _ => false
  | .sleep _ => false
  | .log _ _ _ => false
  | .hook _ => false
  | .cmd _ => true
  | .result _ => true

/-! ## Whose work it is -/

/-- The table was applied by a host command, not by an APPLY_TABLE. -/
def isHostTable : TableRet → Bool
  | .request => false
  | .effect => true
  | .initTable _ => true
  | .modeTable _ => true
  | .previewTable _ => true

/-- The poll was called by a SET_MODE, not by a POLL_STATUS. -/
def isHostPoll : PollRet → Bool
  | .request => false
  | .initPoll _ => true
  | .modePoll _ => true

/-- The position is one of a host command (60_exceptions.md R334 tells it from a harness request). -/
def isHostPosition : Control → Bool
  | .idle => false
  | .hook _ => true
  | .write _ _ _ .request => false
  | .write _ _ _ (.selector p) => isHostPoll p.ret
  | .write _ _ _ (.entry _ _ ret) => isHostTable ret
  | .read _ .request => false
  | .read _ (.result p) => isHostPoll p.ret
  | .table _ _ ret => isHostTable ret
  | .tableDone ret _ => isHostTable ret

/-- The results a host command can deliver (60_exceptions.md R312). -/
def isHostResult (r : Result) : Prop :=
  r = .ok ∨ r = .fail .invalidResolution ∨ r = .fail .unknownItem ∨ (∃ k c, r = .fail (.writeError k c)) ∨
    (∃ last, r = .fail (.pollTimeout last))

/-! ## Runs of single steps -/

/-- `n` steps, one after another, ending early where there is no next state: `Host.Core.run` of this machine. -/
def steps : Nat → State → Outcome
  | 0, s => .next s
  | n + 1, s =>
    match step s with
    | .next s' => steps n s'
    | .fault r => .fault r
    | .refused r => .refused r

/-! ## What a piece of work leaves alone -/

/-- Between `s` and `t` nothing changed but events added at the end of the trace, answers taken from the front of the queues,
the position, and `S.busy`, `S.fault`, `S.initialized`, `S.mode`, `S.open`, `S.transport`. -/
structure Extends (s t : State) : Prop where
  cfg          : t.cfg = s.cfg
  port         : t.port = s.port
  attached     : t.attached = s.attached
  hookReturns  : t.hookReturns = s.hookReturns
  trace        : ∃ evs, t.trace = s.trace ++ evs
  writeAnswers : ∃ used, s.writeAnswers = used ++ t.writeAnswers
  readAnswers  : ∃ used, s.readAnswers = used ++ t.readAnswers

/-- The session fields of `S` did not change (10_state.md R32 to R35). -/
structure SameSession (s t : State) : Prop where
  sessionOpen : t.sessionOpen = s.sessionOpen
  transport   : t.transport = s.transport
  initialized : t.initialized = s.initialized
  mode        : t.mode = s.mode

/-! ## Boot (70_reset_and_hazards.md R355) -/

/-- Table `t` is in the store and has an END entry. -/
def tableComplete (c : Cfg) (t : TableId) : Bool :=
  match readTable c t with
  | some es => es.any fun e => entryKind c e = .endTable
  | none => false

/-- Every table an effect row can name is complete. -/
def rowComplete (c : Cfg) (r : EffectRow) : Bool :=
  tableComplete c r.defaultTable && r.recognized.all fun p => tableComplete c p.2

/-- Item 1 of R355: the sentinels differ, and every table `Cfg` names is in the store with an END. -/
def bootReady (c : Cfg) : Bool :=
  c.wellFormed && tableComplete c c.tInit && tableComplete c c.tMode1600x1200 && tableComplete c c.tMode1280x720 &&
    tableComplete c c.tMode800x600 && tableComplete c c.tMode640x480 && tableComplete c c.tReturnPreview &&
    rowComplete c c.effect && rowComplete c c.whiteBalance && rowComplete c c.brightness && rowComplete c c.scene

/-! ## The invariant of every step -/

/-- The latches and the session of a SET_MODE in step 2: the flag was read false (43_mode_effect.md R240). -/
def initLatchOk (s : State) (l : Latch) : Prop :=
  s.sessionOpen = true ∧ s.initialized = false ∧ l.wasInit = false

/-- In the later steps: the latch is the flag, since no step before the last writes it (10_state.md R47). -/
def modeLatchOk (s : State) (l : Latch) : Prop :=
  s.sessionOpen = true ∧ l.wasInit = s.initialized

/-- The caller of a table is one that can be waiting for it. -/
def tableRetOk (s : State) : TableRet → Prop
  | .request => True
  | .effect => s.sessionOpen = true
  | .initTable l => initLatchOk s l
  | .modeTable l => modeLatchOk s l
  | .previewTable l => modeLatchOk s l ∧ l.wasInit = true ∧ modeClass l.m = .preview

/-- The caller of a poll is one that can be waiting for it. -/
def pollRetOk (s : State) : PollRet → Prop
  | .request => True
  | .initPoll l => initLatchOk s l
  | .modePoll l => modeLatchOk s l

/-- A poll stands in one of its iterations (10_state.md R44). -/
def pollOk (s : State) (p : Poll) : Prop :=
  1 ≤ p.k ∧ p.k ≤ p.req.maxAttempts.toNat ∧ pollRetOk s p.ret

/-- The caller of a register write. -/
def writeRetOk (s : State) : WriteRet → Prop
  | .request => True
  | .selector p => pollOk s p
  | .entry _ _ ret => tableRetOk s ret

/-- The caller of a register read. -/
def readRetOk (s : State) : ReadRet → Prop
  | .request => True
  | .result p => pollOk s p

/-- The position fits the state: a transaction waits only with a transport and in an attempt of its budget (10_state.md R43,
40_bus_transport.md R143), a hook only in a session, and the power-on hook before the first SET_MODE of it. -/
def controlOk (s : State) : Control → Prop
  | .idle => True
  | .hook .powerOn => s.sessionOpen = true ∧ s.initialized = false
  | .hook .powerOff => s.sessionOpen = true
  | .write _ _ attempt ret =>
    s.transport = true ∧ 1 ≤ attempt ∧ attempt ≤ 1 + s.cfg.writeRetries.toNat ∧ writeRetOk s ret
  | .read _ ret => s.transport = true ∧ readRetOk s ret
  | .table _ _ ret => tableRetOk s ret
  | .tableDone ret _ => tableRetOk s ret

/-- The invariant: `S.initialized` means an open session and a recorded mode (10_state.md R37), a mode is recorded only then
(R36), a transport is held only in a session (R33), `S.busy` says that a command runs (R38), and its position fits. -/
structure StateInv (s : State) : Prop where
  initialized_mode : s.initialized = s.mode.isSome
  initialized_open : s.initialized = true → s.sessionOpen = true
  transport_open   : s.transport = true → s.sessionOpen = true
  busy_control     : s.busy = true ↔ s.control ≠ .idle
  control_ok       : controlOk s s.control

end Sys2Proof.Machine
end

