-- ==== Sys2Proof/Certificates/Slice0/Obligations.lean ====
section
/-! DEFINITION. The statements for the provers, each from the numbered rules of spec/. A statement about a command's result gives
the whole next state (`completed`), and with it what the command leaves unchanged. -/

open Sys2Proof Sys2Proof.Machine

/-! ## Encoding (30_encoding.md) -/

/-- Decoding the code of a well-formed instruction gives that instruction, whatever its operands: every row of the opcode
table. The premise on `c` is `Cfg`'s own condition (R101). -/
def Obligations.DecodeOfEncode : Prop :=
  ∀ (c : Cfg) (i : Instr), c.waitAddr ≠ c.endAddr → i.wellFormed c = true → decode c (encode c i) = .ok i

/-- Every 32-bit entry word is a WR, a WAIT or an END: it decodes, to a well-formed instruction that encodes to the same word
(R100 to R103). -/
def Obligations.EveryEntryWordIsAnEntry : Prop :=
  ∀ (c : Cfg) (w : Long), ∃ i,
    decode c (.entry w) = .ok i ∧ i.wellFormed c = true ∧ isCommand i = false ∧ encode c i = .entry w

/-- R101 and R102: the kind is decided by the address alone, and the sentinels of a well-formed configuration differ; the
operands are taken unchanged, a WAIT's delay is its value zero-extended, and END's value is not read. -/
def Obligations.EntryKindByAddress : Prop :=
  ∀ (c : Cfg) (e : Entry),
    (c.wellFormed = true → c.waitAddr ≠ c.endAddr) ∧
    (e.addr = c.waitAddr → decodeEntry c e = .wait e.value ∧ waitMs e.value = e.value.setWidth 32) ∧
    (e.addr = c.endAddr ∧ e.addr ≠ c.waitAddr → decodeEntry c e = .endTable e.value ∧
      ∀ (x : Word) (s : State), exec (.endTable e.value) s = exec (.endTable x) s) ∧
    (e.addr ≠ c.waitAddr ∧ e.addr ≠ c.endAddr → decodeEntry c e = .wr e.addr e.value)

/-- Frames and words written out from R100, R104 and R105 (95_test_vectors.md V-EN-01 to V-EN-23) decode to what they stand
for; the entry words under any configuration whose sentinels are 0 and 1. -/
def Obligations.SpecFramesDecode : Prop :=
  decodeFrame .host [0x01] = .ok .openSession ∧
  decodeFrame .host [0x02] = .ok .closeSession ∧
  decodeFrame .host [0x11] = .ok .getStatus ∧
  decodeFrame .host [0x10, 0x00, 0x00, 0x02, 0x80, 0x00, 0x00, 0x01, 0xE0] = .ok (.setMode 640 480) ∧
  decodeFrame .host [0x12, 0x00, 0x00, 0x00, 0x00, 0xFF, 0xFF, 0xFF, 0xFF] = .ok (.setEffect 0 (BitVec.ofInt 32 (-1))) ∧
  decodeFrame .internal [0x20, 0x30, 0x12] = .ok (.readReg 0x3012) ∧
  decodeFrame .internal [0x21, 0x30, 0x1A, 0x10, 0xDC] = .ok (.writeReg 0x301A 0x10DC) ∧
  decodeFrame .internal [0x22, 0x00, 0xF0, 0x01, 0x04, 0x00, 0xF2, 0x00, 0x03, 0x00, 0x00, 0x00, 0x32, 0x00, 0x00, 0x00,
    0x33] = .ok (.pollStatus 0x00F0 0x0104 0x00F2 3 50 51) ∧
  decodeFrame .internal [0x23, 0x00, 0x64] = .ok (.applyTable 100) ∧
  (∀ c : Cfg, c.waitAddr = 0 → c.endAddr = 1 →
    decode c (.entry 0x00100001) = .ok (.wr 0x0010 0x0001) ∧ decode c (.entry 0x0000FFFF) = .ok (.wait 0xFFFF) ∧
    decode c (.entry 0x0001ABCD) = .ok (.endTable 0xABCD))

/-- A presented frame that is empty, whose opcode is not one of its port, or that is shorter than its opcode's length, is the
fault F_ILLEGAL_COMMAND: no event, nothing changed but `S.fault` (and the frame is off the port), in a session or without
one (R106, 60_exceptions.md R330). -/
def Obligations.IllegalFrameFaults : Prop :=
  ∀ (s : State) (p : Port) (bytes : List Byte),
    s.fault = none → s.busy = false → s.port = some ⟨p, bytes⟩ →
    (bytes = [] ∨ ∃ op rest, bytes = op :: rest ∧
      ((p = .host ∧ isHostOpcode op = false) ∨ (p = .internal ∧ isInternalOpcode op = false) ∨
        rest.length + 1 < frameLength op)) →
    step s = .next { s with port := none, fault := some .illegalCommand }

/-! ## Steps and dispatch (44_control_surface.md, 60_exceptions.md) -/

/-- A step takes a presented frame that decodes off the port and runs its instruction. -/
def Obligations.StepRunsPresentedFrame : Prop :=
  ∀ (s : State) (p : Presented) (i : Instr),
    s.fault = none → s.busy = false → s.port = some p → decodeFrame p.port p.bytes = .ok i →
    step s = exec i { s with port := none }

/-- With nothing presented and a table at an entry, a step runs the instruction that entry is. -/
def Obligations.StepRunsEntryAtCursor : Prop :=
  ∀ (s : State) (t : TableId) (i : Nat) (ret : TableRet) (es : List Entry) (e : Entry),
    s.fault = none → s.busy = true → s.port = none → s.control = .table t i ret →
    readTable s.cfg t = some es → es[i]? = some e →
    step s = exec (decodeEntry s.cfg e) s

/-- R39: reset has no fault; once a fault is set nothing clears it, since there is no further step and no instruction is
accepted. -/
def Obligations.FaultedMachineHasNoStep : Prop :=
  State.reset.fault = none ∧
  ∀ (s : State) (f : FaultKind), s.fault = some f →
    step s = .fault .halted ∧ ∀ i : Instr, exec i s = .fault .halted

/-- A command (44_control_surface.md R280) or a harness request (60_exceptions.md R334) presented while one runs is F_REENTRY and
does nothing else (R330, R331), whatever it is: the check comes before the decoding (R280). That the step takes the frame off the
port is the model's own choice (log 6). -/
def Obligations.CommandWhileBusyFaults : Prop :=
  ∀ s : State, s.fault = none → s.busy = true →
    (∀ i : Instr, isCommand i = true → exec i s = .next { s with fault := some .reentry }) ∧
    (∀ p : Presented, s.port = some p → step s = .next { s with port := none, fault := some .reentry })

/-- OPEN in an open session is F_SESSION_OPEN, and every other host command without a session F_NO_SESSION; neither emits
anything (R280, R288). -/
def Obligations.SessionMisuseFaults : Prop :=
  ∀ s : State, ready s →
    (s.sessionOpen = true → exec .openSession s = .next { s with fault := some .sessionOpen }) ∧
    (s.sessionOpen = false → ∀ i : Instr, isHostCommand i = true → i ≠ .openSession →
      exec i s = .next { s with fault := some .noSession })

/-- With nothing presented and nothing running there is no step: the RSE waits for the host (the model's own stop, log 4). -/
def Obligations.IdleMachineWaits : Prop :=
  ∀ s : State, ready s → s.port = none → step s = .fault .idle

/-! ## OPEN, CLOSE, GET_STATUS (44_control_surface.md) -/

/-- R282: OPEN, its effect and its events in order, its fault, its frame. It completes when no hook is supplied or the hook
returns. -/
def Obligations.OpenCreatesSession : Prop :=
  (∀ s : State, ready s → s.sessionOpen = false → (s.cfg.powerOnHook = true → s.hookReturns = true) →
    exec .openSession s = .next
      { completed s .openSession (if s.cfg.powerOnHook then [.hook .powerOn] else []) .ok s.writeAnswers s.readAnswers with
        sessionOpen := true, transport := s.attached, initialized := false, mode := none }) ∧
  (∀ s : State, ready s → s.sessionOpen = true → exec .openSession s = .next { s with fault := some .sessionOpen }) ∧
  (∀ c : Cfg, encode c .openSession = .frame .host [0x01])

/-- R284: CLOSE, its effect and its events in order, its fault, its frame. -/
def Obligations.CloseEndsSession : Prop :=
  (∀ s : State, readyInSession s → (s.cfg.powerOffHook = true → s.hookReturns = true) →
    exec .closeSession s = .next
      { completed s .closeSession (if s.cfg.powerOffHook then [.hook .powerOff] else []) .ok s.writeAnswers s.readAnswers with
        sessionOpen := false, transport := false, initialized := false, mode := none }) ∧
  (∀ s : State, ready s → s.sessionOpen = false → exec .closeSession s = .next { s with fault := some .noSession }) ∧
  (∀ c : Cfg, encode c .closeSession = .frame .host [0x02])

/-- R286: GET_STATUS, always `Ok`, its two events and nothing else, its fault, its frame. -/
def Obligations.GetStatusReadsNothing : Prop :=
  (∀ s : State, readyInSession s →
    exec .getStatus s = .next (completed s .getStatus [] .ok s.writeAnswers s.readAnswers)) ∧
  (∀ s : State, ready s → s.sessionOpen = false → exec .getStatus s = .next { s with fault := some .noSession }) ∧
  (∀ c : Cfg, encode c .getStatus = .frame .host [0x11])

/-- A supplied hook that does not return leaves the RSE in OPEN or CLOSE with `S.busy` true and no step; when it returns, the
next step ends the command as if it had returned at once (R283, 60_exceptions.md R332). -/
def Obligations.HookThatDoesNotReturnHolds : Prop :=
  ∀ (s : State) (i : Instr),
    ready s → s.port = none → s.hookReturns = false →
    ((i = .openSession ∧ s.sessionOpen = false ∧ s.cfg.powerOnHook = true) ∨
      (i = .closeSession ∧ s.sessionOpen = true ∧ s.cfg.powerOffHook = true)) →
    ∃ t, exec i s = .next t ∧ t.busy = true ∧ step t = .fault .awaitingHook ∧
      ∃ u, step { t with hookReturns := true } = .next u ∧ exec i { s with hookReturns := true } = .next u

/-! ## READ_REG and WRITE_REG (40_bus_transport.md) -/

/-- R140 and R141: one transaction and no retry; the value read, or TransferError at once, or NoDevice with no event at all.
No field of `S` changes. -/
def Obligations.ReadRegOutcomes : Prop :=
  ∀ (s : State) (a : Word), ready s →
    (s.transport = true → ∀ (d0 d1 : Byte) (rs : List ReadAnswer), s.readAnswers = .ack d0 d1 :: rs →
      exec (.readReg a) s = .next
        (completed s (.readReg a) [.rd a (some (be16 d0 d1))] (.okValue (be16 d0 d1)) s.writeAnswers rs)) ∧
    (s.transport = true → ∀ rs : List ReadAnswer, s.readAnswers = .nak :: rs →
      exec (.readReg a) s = .next
        (completed s (.readReg a) [.rd a none] (.fail .transferError) s.writeAnswers rs)) ∧
    (s.transport = false →
      exec (.readReg a) s = .next (completed s (.readReg a) [] (.fail .noDevice) s.writeAnswers s.readAnswers)) ∧
    encode s.cfg (.readReg a) = .frame .internal (0x20 :: bytes16 a)

/-- R143 to R148: `j` refused attempts and an acknowledged one, with `j` up to the retries of the configuration; all `1 + N`
refused; no transport. One log and one delay between two attempts, none before the first or after the last. -/
def Obligations.WriteRegOutcomes : Prop :=
  ∀ (s : State) (a v : Word), ready s →
    (s.transport = true → ∀ (j : Nat) (ws : List WriteAnswer), j ≤ s.cfg.writeRetries.toNat →
      s.writeAnswers = List.replicate j .nak ++ .ack :: ws →
      exec (.writeReg a v) s = .next
        (completed s (.writeReg a v) (ackedAfter s.cfg a v j) .ok ws s.readAnswers)) ∧
    (s.transport = true → ∀ ws : List WriteAnswer, s.writeAnswers = failingAnswers s.cfg ++ ws →
      exec (.writeReg a v) s = .next
        (completed s (.writeReg a v) (failedWrite s.cfg a v) (.fail .transferError) ws s.readAnswers)) ∧
    (s.transport = false →
      exec (.writeReg a v) s = .next
        (completed s (.writeReg a v) [] (.fail .noDevice) s.writeAnswers s.readAnswers)) ∧
    encode s.cfg (.writeReg a v) = .frame .internal (0x21 :: bytes16 a ++ bytes16 v)

/-- R62, R64 and R65: a register write is the one 4-byte frame, address then value, each most significant byte first; a
register read sends the 2 bytes of its address and assembles the 2 it receives, the first most significant; both go to the
one device. -/
def Obligations.TransferBytes : Prop :=
  ∀ (c : Cfg) (a v : Word) (o : WriteAnswer) (d0 d1 : Byte),
    (∃ b0 b1 b2 b3 : Byte, ∃ r, transfer c (.wr a v o) = some ⟨c.devAddr, [b0, b1, b2, b3], r⟩ ∧
      a.toNat = b0.toNat * 256 + b1.toNat ∧ v.toNat = b2.toNat * 256 + b3.toNat) ∧
    (be16 d0 d1).toNat = d0.toNat * 256 + d1.toNat ∧
    (∃ b0 b1 : Byte, transfer c (.rd a (some (be16 d0 d1))) = some ⟨c.devAddr, [b0, b1], some [d0, d1]⟩ ∧
      a.toNat = b0.toNat * 256 + b1.toNat)

/-- A read whose answer has not come leaves the RSE with `S.busy` true and no step (20_memory.md R82), and nothing is lost by the
wait: when the answer comes, and whatever other answers come with it, the next step ends in the very state in which the
instruction would have ended had all these answers been there (10_state.md R48). First READ_REG, where the read waits; then every
instruction that stands at a read: in READ_REG, or in an iteration of a poll, of POLL_STATUS or of SET_MODE. -/
def Obligations.ReadWaitsForItsAnswer : Prop :=
  (∀ (s : State) (a : Word) (r : ReadAnswer),
    ready s → s.port = none → s.transport = true → s.readAnswers = [] →
    ∃ t, exec (.readReg a) s = .next t ∧ t.busy = true ∧ step t = .fault .awaitingBus ∧
      ∃ u, step (t.answerRead r) = .next u ∧ exec (.readReg a) (s.answerRead r) = .next u) ∧
  (∀ (s t : State) (i : Instr) (a : Word) (ret : ReadRet),
    s.port = none → exec i s = .next t → t.busy = true → t.fault = none → t.control = .read a ret →
    step t = .fault .awaitingBus ∧
      ∀ (ws : List WriteAnswer) (rs : List ReadAnswer), rs ≠ [] →
        step (t.moreAnswers ws rs) = exec i (s.moreAnswers ws rs))

/-- A write that waits in any of its attempts goes on where it was: with the later answers it ends in the state it would have
ended in had all answers been there (20_memory.md R82, 10_state.md R43, R48). First WRITE_REG, in one step; then every instruction
that stands at a write: in WRITE_REG, in the selector write of a poll iteration, of POLL_STATUS or of SET_MODE, or in a WR entry of
a table, of APPLY_TABLE, SET_EFFECT or SET_MODE or run alone at the cursor. There some number of steps leads to that state, since a
table that went on runs one entry per step (log 3). -/
def Obligations.WriteWaitsForItsAnswer : Prop :=
  (∀ (s : State) (a v : Word) (more : List WriteAnswer) (t : State),
    ready s → s.port = none → s.transport = true →
    exec (.writeReg a v) s = .next t → t.busy = true → more ≠ [] →
    step t = .fault .awaitingBus ∧
      step { t with writeAnswers := more } = exec (.writeReg a v) { s with writeAnswers := s.writeAnswers ++ more }) ∧
  (∀ (s t : State) (i : Instr) (a v : Word) (attempt : Nat) (ret : WriteRet),
    s.port = none → exec i s = .next t → t.busy = true → t.fault = none → t.control = .write a v attempt ret →
    step t = .fault .awaitingBus ∧
      ∀ (ws : List WriteAnswer) (rs : List ReadAnswer), ws ≠ [] →
        ∃ n, steps n (t.moreAnswers ws rs) = exec i (s.moreAnswers ws rs))

/-! ## POLL_STATUS (41_status_poller.md) -/

/-- R178, one direction with its whole trace: when the first iteration that produces `expected` is iteration `k ≤ maxAttempts`,
the poll converges there, having done exactly the iterations 1 to `k`: each the delay, the selector write with its retries, and
a read unless the write failed (R170 to R174). Iterations before it may fail or read anything else. -/
def Obligations.PollConvergesAtFirstHit : Prop :=
  ∀ (s : State) (sa sv ra e : Word) (d n : Long) (its : List IterationAnswers) (x : IterationAnswers)
    (ws : List WriteAnswer) (rs : List ReadAnswer),
    ready s → s.transport = true → misses s.cfg e its → hits s.cfg e x → its.length < n.toNat →
    s.writeAnswers = pollWrites s.cfg (its ++ [x]) ++ ws → s.readAnswers = pollReads (its ++ [x]) ++ rs →
    exec (.pollStatus sa sv ra e d n) s = .next
      (completed s (.pollStatus sa sv ra e d n) (pollEvents s.cfg ⟨sa, sv, ra, e, d, n⟩ (its ++ [x])) (.converged e) ws rs)

/-- R176 and R177, and the other direction of R178: when no iteration of the budget produces `expected`, the poll times out
after exactly `maxAttempts` of them, with the last value read in the call or none; with no iteration allowed it does nothing.
With no transport every iteration is skipped with no bus traffic: `maxAttempts` sleeps, then Timeout with no value (R172). -/
def Obligations.PollTimesOutWithLastRead : Prop :=
  (∀ (s : State) (sa sv ra e : Word) (d n : Long) (its : List IterationAnswers) (ws : List WriteAnswer)
      (rs : List ReadAnswer),
    ready s → s.transport = true → misses s.cfg e its → its.length = n.toNat →
    s.writeAnswers = pollWrites s.cfg its ++ ws → s.readAnswers = pollReads its ++ rs →
    exec (.pollStatus sa sv ra e d n) s = .next
      (completed s (.pollStatus sa sv ra e d n) (pollEvents s.cfg ⟨sa, sv, ra, e, d, n⟩ its) (.timeout (lastRead its)) ws
        rs)) ∧
  (∀ (s : State) (sa sv ra e : Word) (d n : Long), ready s → s.transport = false →
    exec (.pollStatus sa sv ra e d n) s = .next
      (completed s (.pollStatus sa sv ra e d n) (List.replicate n.toNat (.sleep d)) (.timeout none) s.writeAnswers
        s.readAnswers))

/-- R179's bounds, however the transactions are answered and also while the poll waits: at most `maxAttempts` reads, at most
`maxAttempts × (1 + P_WRITE_RETRIES)` selector writes, and after a Timeout at least `maxAttempts × delayMs` of sleep. -/
def Obligations.PollStaysInBudget : Prop :=
  ∀ (s t : State) (sa sv ra e : Word) (d n : Long), ready s →
    exec (.pollStatus sa sv ra e d n) s = .next t →
    ∃ evs, t.trace = s.trace ++ evs ∧
      evs.countP isReadEvent ≤ n.toNat ∧
      evs.countP isWriteEvent ≤ n.toNat * (1 + s.cfg.writeRetries.toNat) ∧
      ((∃ last, .result (.timeout last) ∈ evs) → n.toNat * d.toNat ≤ sleptAtLeast evs)

/-! ## APPLY_TABLE and the entries (42_table_interpreter.md) -/

/-- R208: on a fault-free transport a table with an END does exactly one write per WR entry and one sleep per WAIT entry before
it, in table order, and returns `Ok`. -/
def Obligations.ApplyTableFaultFree : Prop :=
  ∀ (s : State) (t : TableId) (es : List Entry) (ws : List WriteAnswer),
    ready s → s.transport = true → tableBody s.cfg t es →
    s.writeAnswers = List.replicate (es.countP fun e => entryKind s.cfg e = .wr) .ack ++ ws →
    exec (.applyTable t) s = .next
      (completed s (.applyTable t) (es.flatMap (ackedEntryEvents s.cfg)) .ok ws s.readAnswers)

/-- A table whose writes all succeed, each after any number of refused attempts in its budget, ends with `Ok` at its END; a
table whose WR entry at index `i` fails its last attempt ends there with WriteError(i, TransferError), the index counting every
entry from 0, with no event of a later entry and none of an earlier one repeated or undone (R200, R206, R207, R209). That an entry
before the failing one may have had several attempts is the model's reading (log 16, DEDUCED): R205 says in one sentence that only
the failing entry may, against R200, R201 and 40_bus_transport.md R143. -/
def Obligations.ApplyTableOutcomes : Prop :=
  ∀ (s : State) (t : TableId) (xs : List (Entry × Nat)) (ws : List WriteAnswer),
    ready s → s.transport = true → entriesFit s.cfg xs →
    (tableBody s.cfg t (xs.map Prod.fst) → s.writeAnswers = tableWrites s.cfg xs ++ ws →
      exec (.applyTable t) s = .next
        (completed s (.applyTable t) (tableEvents s.cfg xs) .ok ws s.readAnswers)) ∧
    (∀ e : Entry, tableReaches s.cfg t (xs.map Prod.fst) e →
      s.writeAnswers = tableWrites s.cfg xs ++ (failingAnswers s.cfg ++ ws) →
      exec (.applyTable t) s = .next
        (completed s (.applyTable t) (tableEvents s.cfg xs ++ failedWrite s.cfg e.addr e.value)
          (.fail (.writeError xs.length .transferError)) ws s.readAnswers))

/-- R210: with no transport the WAITs before the first WR entry still sleep and that entry fails with NoDevice at its index; a
table with no WR entry before its END returns `Ok`. -/
def Obligations.ApplyTableWithoutTransport : Prop :=
  ∀ (s : State) (t : TableId) (es : List Entry), ready s → s.transport = false →
    (∀ e ∈ es, entryKind s.cfg e = .wait) →
    (∀ e : Entry, tableReaches s.cfg t es e →
      exec (.applyTable t) s = .next
        (completed s (.applyTable t) (es.map fun x => .sleep (waitMs x.value)) (.fail (.writeError es.length .noDevice))
          s.writeAnswers s.readAnswers)) ∧
    (tableBody s.cfg t es →
      exec (.applyTable t) s = .next
        (completed s (.applyTable t) (es.map fun x => .sleep (waitMs x.value)) .ok s.writeAnswers s.readAnswers))

/-- R204: an unknown table id is F_NO_TABLE before any event of the table; a table whose list ends before an END is
F_TABLE_OVERRUN after the events of its entries, which stay in the trace, with a transport or (a table of WAITs) without one.
Neither delivers a result, and `S.busy` stays true. -/
def Obligations.TableFaults : Prop :=
  ∀ (s : State) (t : TableId), ready s →
    (readTable s.cfg t = none →
      ∃ u, exec (.applyTable t) s = .next u ∧ u.fault = some .noTable ∧ u.busy = true ∧
        u.trace = s.trace ++ [.cmd (.applyTable t)] ∧ SameSession s u) ∧
    (∀ (xs : List (Entry × Nat)) (ws : List WriteAnswer), s.transport = true → entriesFit s.cfg xs →
      readTable s.cfg t = some (xs.map Prod.fst) → s.writeAnswers = tableWrites s.cfg xs ++ ws →
      ∃ u, exec (.applyTable t) s = .next u ∧ u.fault = some .tableOverrun ∧ u.busy = true ∧
        u.trace = s.trace ++ .cmd (.applyTable t) :: tableEvents s.cfg xs ∧ SameSession s u) ∧
    (∀ es : List Entry, s.transport = false → (∀ e ∈ es, entryKind s.cfg e = .wait) → readTable s.cfg t = some es →
      ∃ u, exec (.applyTable t) s = .next u ∧ u.fault = some .tableOverrun ∧ u.busy = true ∧
        u.trace = s.trace ++ .cmd (.applyTable t) :: es.map (fun x => .sleep (waitMs x.value)) ∧ SameSession s u)

/-- R201: a WR entry at the cursor is `writeRegister(a, v)` with its retries; on `Ok` the table stands at the next entry, on a
failure it has ended with WriteError at this index; nothing else changes. -/
def Obligations.WrEntryWritesRegister : Prop :=
  ∀ (s : State) (t : TableId) (i : Nat) (ret : TableRet) (a v : Word),
    s.fault = none → s.control = .table t i ret →
    (s.transport = true → ∀ (j : Nat) (ws : List WriteAnswer), j ≤ s.cfg.writeRetries.toNat →
      s.writeAnswers = List.replicate j .nak ++ .ack :: ws →
      exec (.wr a v) s = .next
        { s with
          trace := s.trace ++ ackedAfter s.cfg a v j, writeAnswers := ws, control := .table t (i + 1) ret }) ∧
    (s.transport = true → ∀ ws : List WriteAnswer, s.writeAnswers = failingAnswers s.cfg ++ ws →
      exec (.wr a v) s = .next
        { s with
          trace := s.trace ++ failedWrite s.cfg a v
          writeAnswers := ws
          control := .tableDone ret (.writeError i .transferError) }) ∧
    (s.transport = false →
      exec (.wr a v) s = .next { s with control := .tableDone ret (.writeError i .noDevice) })

/-- R202: a WAIT entry at the cursor sleeps its value in milliseconds, zero included, with no bus access, and the table stands
at the next entry; nothing else changes. -/
def Obligations.WaitEntrySleeps : Prop :=
  ∀ (s : State) (t : TableId) (i : Nat) (ret : TableRet) (ms : Word),
    s.fault = none → s.control = .table t i ret →
    exec (.wait ms) s = .next
      { s with trace := s.trace ++ [.sleep (ms.setWidth 32)], control := .table t (i + 1) ret }

/-- R203: an END entry at the cursor ends the table with `Ok`, whatever its value, with no event; nothing else changes. A table
whose first entry is an END returns `Ok` with no event, whatever stands after it. -/
def Obligations.EndEntryEndsTable : Prop :=
  (∀ (s : State) (t : TableId) (i : Nat) (ret : TableRet) (x : Word),
    s.fault = none → s.control = .table t i ret →
    exec (.endTable x) s = .next { s with control := .tableDone ret .ok }) ∧
  (∀ (s : State) (t : TableId), ready s → tableBody s.cfg t [] →
    exec (.applyTable t) s = .next (completed s (.applyTable t) [] .ok s.writeAnswers s.readAnswers))

/-- Only the Table Interpreter runs entries: where no table is at one, WR, WAIT and END have no step (the model's own stop,
log 17). -/
def Obligations.EntryNeedsTable : Prop :=
  ∀ (s : State) (i : Instr), s.fault = none → isCommand i = false →
    (∀ (t : TableId) (k : Nat) (ret : TableRet), s.control ≠ .table t k ret) →
    exec i s = .fault .noEntryDue

/-- The big-step and the small-step form agree (10_state.md R48): from a table standing at any of its entries, some number of
single steps leads to the very state in which running the rest of the table and its caller in one go ends. -/
def Obligations.SmallStepsAgreeWithBigStep : Prop :=
  ∀ (s : State) (t : TableId) (i : Nat) (ret : TableRet) (es : List Entry),
    s.fault = none → s.busy = true → s.port = none → s.control = .table t i ret →
    readTable s.cfg t = some es → i ≤ es.length →
    ∃ n, steps n s = .next ((tableLoop t ret (es.drop i) i s).elim (afterTable ret))

/-! ## SET_MODE and SET_EFFECT (43_mode_effect.md) -/

/-- R230: `resolve` gives a mode exactly for its own width and height, in this order. -/
def Obligations.ResolveMatchesExactly : Prop :=
  ∀ (w h : Long) (m : ModeId),
    resolve w h = some m ↔
      (m = .m1600x1200 ∧ w = 1600 ∧ h = 1200) ∨ (m = .m1280x720 ∧ w = 1280 ∧ h = 720) ∨
      (m = .m800x600 ∧ w = 800 ∧ h = 600) ∨ (m = .m640x480 ∧ w = 640 ∧ h = 480)

/-- R241: any other pair fails with InvalidResolution before anything else, initialized or not, transport or not. -/
def Obligations.SetModeRejectsOtherResolutions : Prop :=
  ∀ (s : State) (w h : Long), readyInSession s →
    ¬(w = 1600 ∧ h = 1200) → ¬(w = 1280 ∧ h = 720) → ¬(w = 800 ∧ h = 600) → ¬(w = 640 ∧ h = 480) →
    exec (.setMode w h) s = .next
      (completed s (.setMode w h) [] (.fail .invalidResolution) s.writeAnswers s.readAnswers)

/-- R231 and R245: the class and the expected value of each mode; with the source's defaults 7 for the two highest
resolutions and 3 for the others. -/
def Obligations.ExpectedValueByClass : Prop :=
  (∀ c : Cfg,
    expectedFor c .m1600x1200 = c.captureExpect ∧ expectedFor c .m1280x720 = c.captureExpect ∧
    expectedFor c .m800x600 = c.previewExpect ∧ expectedFor c .m640x480 = c.previewExpect) ∧
  modeClass .m1600x1200 = .capture ∧ modeClass .m1280x720 = .capture ∧
  modeClass .m800x600 = .preview ∧ modeClass .m640x480 = .preview ∧
  Config.cfg.captureExpect = 7 ∧ Config.cfg.previewExpect = 3

/-- SET_MODE on a session not yet initialized, for each mode (R249, rows 1 and 2): the init table, the initialization poll, the
mode's table, the mode poll, and then `Ok` with the mode recorded. Every write of a table may take retries; each poll may
converge at any iteration of its budget. -/
def Obligations.SetModeFirstUse : Prop :=
  ∀ (s : State) (m : ModeId) (xi xm : List (Entry × Nat)) (pi pm : List IterationAnswers) (hi hm : IterationAnswers)
    (ws : List WriteAnswer) (rs : List ReadAnswer),
    readyInSession s → s.transport = true → s.initialized = false →
    tableBody s.cfg s.cfg.tInit (xi.map Prod.fst) → entriesFit s.cfg xi →
    tableBody s.cfg (tMode s.cfg m) (xm.map Prod.fst) → entriesFit s.cfg xm →
    misses s.cfg s.cfg.initExpect pi → hits s.cfg s.cfg.initExpect hi → pi.length < s.cfg.initPollAttempts.toNat →
    misses s.cfg (expectedFor s.cfg m) pm → hits s.cfg (expectedFor s.cfg m) hm →
    pm.length < s.cfg.modePollAttempts.toNat →
    s.writeAnswers = tableWrites s.cfg xi ++ pollWrites s.cfg (pi ++ [hi]) ++ tableWrites s.cfg xm ++
      pollWrites s.cfg (pm ++ [hm]) ++ ws →
    s.readAnswers = pollReads (pi ++ [hi]) ++ pollReads (pm ++ [hm]) ++ rs →
    exec (.setMode (modeWidth m) (modeHeight m)) s = .next
      { completed s (.setMode (modeWidth m) (modeHeight m))
          (tableEvents s.cfg xi ++ pollEvents s.cfg (initPollReq s.cfg) (pi ++ [hi]) ++ tableEvents s.cfg xm ++
            pollEvents s.cfg (modePollReq s.cfg m) (pm ++ [hm])) .ok ws rs with
        initialized := true, mode := some m }

/-- SET_MODE on an initialized session, for each mode (R249, rows 3 and 4; R246): the mode's table, the return-to-preview table
exactly for a preview-class mode and whatever the mode before, the mode poll, and then `Ok` with the mode recorded. -/
def Obligations.SetModeInitialized : Prop :=
  ∀ (s : State) (m : ModeId) (xm xp : List (Entry × Nat)) (pm : List IterationAnswers) (hm : IterationAnswers)
    (ws : List WriteAnswer) (rs : List ReadAnswer),
    readyInSession s → s.transport = true → s.initialized = true →
    tableBody s.cfg (tMode s.cfg m) (xm.map Prod.fst) → entriesFit s.cfg xm →
    (modeClass m = .preview → tableBody s.cfg s.cfg.tReturnPreview (xp.map Prod.fst)) → entriesFit s.cfg xp →
    (modeClass m = .capture → xp = []) →
    misses s.cfg (expectedFor s.cfg m) pm → hits s.cfg (expectedFor s.cfg m) hm →
    pm.length < s.cfg.modePollAttempts.toNat →
    s.writeAnswers = tableWrites s.cfg xm ++ tableWrites s.cfg xp ++ pollWrites s.cfg (pm ++ [hm]) ++ ws →
    s.readAnswers = pollReads (pm ++ [hm]) ++ rs →
    exec (.setMode (modeWidth m) (modeHeight m)) s = .next
      { completed s (.setMode (modeWidth m) (modeHeight m))
          (tableEvents s.cfg xm ++ tableEvents s.cfg xp ++ pollEvents s.cfg (modePollReq s.cfg m) (pm ++ [hm])) .ok ws rs with
        initialized := true, mode := some m }

/-- R242: an initialization poll that times out, with a transport or without one, ends the call with PollTimeout and `S`
unchanged under the policy flag, with no log and no further table; without the flag it is logged and ignored, and the mode's table
and poll follow. -/
def Obligations.InitPollTimeoutPolicy : Prop :=
  ∀ (s : State) (m : ModeId) (ei ep em eq : List Event) (wi wp wm wq ws : List WriteAnswer) (rp rq rs : List ReadAnswer)
    (last : Option Word) (v : Word),
    readyInSession s → s.initialized = false →
    tableDoes s s.cfg.tInit ei wi .ok → pollDoes s (initPollReq s.cfg) ep wp rp (.timeout last) →
    (s.cfg.initPollFatal = true → s.writeAnswers = wi ++ wp ++ ws → s.readAnswers = rp ++ rs →
      exec (.setMode (modeWidth m) (modeHeight m)) s = .next
        (completed s (.setMode (modeWidth m) (modeHeight m)) (ei ++ ep) (.fail (.pollTimeout last)) ws rs)) ∧
    (s.cfg.initPollFatal = false →
      tableDoes s (tMode s.cfg m) em wm .ok → pollDoes s (modePollReq s.cfg m) eq wq rq (.converged v) →
      s.writeAnswers = wi ++ wp ++ wm ++ wq ++ ws → s.readAnswers = rp ++ rq ++ rs →
      exec (.setMode (modeWidth m) (modeHeight m)) s = .next
        { completed s (.setMode (modeWidth m) (modeHeight m))
            (ei ++ ep ++ [.log .initPollTimeout s.cfg.statusResultAddr last] ++ em ++ eq) .ok ws rs with
          initialized := true, mode := some m })

/-- R243: a write of the init table that fails ends SET_MODE at once with that WriteError, after the retries of a transfer or
for want of a transport: no poll, no mode table, `S` unchanged. -/
def Obligations.InitTableFailureEndsSetMode : Prop :=
  ∀ (s : State) (m : ModeId), readyInSession s → s.initialized = false →
    (∀ (xi : List (Entry × Nat)) (e : Entry) (ws : List WriteAnswer),
      s.transport = true → tableReaches s.cfg s.cfg.tInit (xi.map Prod.fst) e → entriesFit s.cfg xi →
      s.writeAnswers = tableWrites s.cfg xi ++ (failingAnswers s.cfg ++ ws) →
      exec (.setMode (modeWidth m) (modeHeight m)) s = .next
        (completed s (.setMode (modeWidth m) (modeHeight m))
          (tableEvents s.cfg xi ++ failedWrite s.cfg e.addr e.value) (.fail (.writeError xi.length .transferError)) ws
          s.readAnswers)) ∧
    (∀ (es : List Entry) (e : Entry),
      s.transport = false → tableReaches s.cfg s.cfg.tInit es e → (∀ x ∈ es, entryKind s.cfg x = .wait) →
      exec (.setMode (modeWidth m) (modeHeight m)) s = .next
        (completed s (.setMode (modeWidth m) (modeHeight m)) (es.map fun x => .sleep (waitMs x.value))
          (.fail (.writeError es.length .noDevice)) s.writeAnswers s.readAnswers))

/-- A write of the mode's table that fails, after its retries or for want of a transport, ends SET_MODE with that WriteError: no
poll after it, and `S` is unchanged, on an initialized session and on one that step 2 ran for, the init poll converged or its
timeout ignored (R244). The same for the return-to-preview table, which only an initialized session and a preview-class mode
apply (R246). -/
def Obligations.LaterTableFailureEndsSetMode : Prop :=
  ∀ (s : State) (m : ModeId) (ei ep em er : List Event) (wi wp wm wr ws : List WriteAnswer) (rp rs : List ReadAnswer)
    (k : Nat) (c : BusError),
    readyInSession s →
    (s.initialized = true → tableDoes s (tMode s.cfg m) em wm (.writeError k c) → s.writeAnswers = wm ++ ws →
      exec (.setMode (modeWidth m) (modeHeight m)) s = .next
        (completed s (.setMode (modeWidth m) (modeHeight m)) em (.fail (.writeError k c)) ws s.readAnswers)) ∧
    (s.initialized = true → modeClass m = .preview → tableDoes s (tMode s.cfg m) em wm .ok →
      tableDoes s s.cfg.tReturnPreview er wr (.writeError k c) → s.writeAnswers = wm ++ wr ++ ws →
      exec (.setMode (modeWidth m) (modeHeight m)) s = .next
        (completed s (.setMode (modeWidth m) (modeHeight m)) (em ++ er) (.fail (.writeError k c)) ws s.readAnswers)) ∧
    (s.initialized = false → tableDoes s s.cfg.tInit ei wi .ok → initPollPasses s ep wp rp →
      tableDoes s (tMode s.cfg m) em wm (.writeError k c) →
      s.writeAnswers = wi ++ wp ++ wm ++ ws → s.readAnswers = rp ++ rs →
      exec (.setMode (modeWidth m) (modeHeight m)) s = .next
        (completed s (.setMode (modeWidth m) (modeHeight m)) (ei ++ ep ++ em) (.fail (.writeError k c)) ws rs))

/-- R247: a mode poll that times out is the call's result, and `S` is unchanged, with a transport or without one: on an
initialized session, with the return-to-preview table before the poll for a preview-class mode; and on one that step 2 ran for,
the init poll converged or its timeout ignored (95_test_vectors.md V-TM-02). -/
def Obligations.ModePollTimeoutIsTheResult : Prop :=
  ∀ (s : State) (m : ModeId) (ei ep em er eq : List Event) (wi wp wm wr wq ws : List WriteAnswer)
    (rp rq rs : List ReadAnswer) (last : Option Word),
    readyInSession s → tableDoes s (tMode s.cfg m) em wm .ok →
    pollDoes s (modePollReq s.cfg m) eq wq rq (.timeout last) →
    (s.initialized = true →
      (modeClass m = .preview → tableDoes s s.cfg.tReturnPreview er wr .ok) →
      (modeClass m = .capture → er = [] ∧ wr = []) →
      s.writeAnswers = wm ++ wr ++ wq ++ ws → s.readAnswers = rq ++ rs →
      exec (.setMode (modeWidth m) (modeHeight m)) s = .next
        (completed s (.setMode (modeWidth m) (modeHeight m)) (em ++ er ++ eq) (.fail (.pollTimeout last)) ws rs)) ∧
    (s.initialized = false → tableDoes s s.cfg.tInit ei wi .ok → initPollPasses s ep wp rp →
      s.writeAnswers = wi ++ wp ++ wm ++ wq ++ ws → s.readAnswers = rp ++ rq ++ rs →
      exec (.setMode (modeWidth m) (modeHeight m)) s = .next
        (completed s (.setMode (modeWidth m) (modeHeight m)) (ei ++ ep ++ em ++ eq) (.fail (.pollTimeout last)) ws rs))

/-- Only a SET_MODE that ends with `Ok` writes `S.initialized` and `S.mode`; any other end, and any wait, leaves both (R248). -/
def Obligations.SetModeWritesSessionOnlyOnOk : Prop :=
  ∀ (s t : State) (w h : Long), ready s → exec (.setMode w h) s = .next t →
    (t.initialized = s.initialized ∧ t.mode = s.mode) ∨
    (t.initialized = true ∧ t.mode = resolve w h ∧ t.mode ≠ none ∧ t.busy = false ∧
      ∃ evs, t.trace = s.trace ++ evs ++ [.result .ok])

/-- R250, R253 to R255: an unrecognized item fails with UnknownItem before any event; else the item's table for the value is
applied, with no poll after it, and its result is the call's: `Ok`, or the WriteError of a write that failed after its retries or
for want of a transport. No field of `S` changes. -/
def Obligations.SetEffectOutcomes : Prop :=
  ∀ (s : State) (code value : Long), readyInSession s →
    (itemOf code = none →
      exec (.setEffect code value) s = .next
        (completed s (.setEffect code value) [] (.fail .unknownItem) s.writeAnswers s.readAnswers)) ∧
    (∀ (item : EffectItem) (evs : List Event) (used ws : List WriteAnswer), itemOf code = some item →
      (tableDoes s (effectTable s.cfg item value) evs used .ok → s.writeAnswers = used ++ ws →
        exec (.setEffect code value) s = .next (completed s (.setEffect code value) evs .ok ws s.readAnswers)) ∧
      (∀ (k : Nat) (c : BusError), tableDoes s (effectTable s.cfg item value) evs used (.writeError k c) →
        s.writeAnswers = used ++ ws →
        exec (.setEffect code value) s = .next
          (completed s (.setEffect code value) evs (.fail (.writeError k c)) ws s.readAnswers)))

/-- R111 and R251: the four item codes and no other name an item; a recognized value (listed once) selects its own table and
every other value the item's default table. -/
def Obligations.EffectTableSelection : Prop :=
  (∀ code : Long, itemOf code =
    if code = 0 then some .effect else if code = 1 then some .whiteBalance else if code = 2 then some .brightness
    else if code = 3 then some .scene else none) ∧
  ∀ (c : Cfg) (item : EffectItem) (value : Long),
    ((∀ p ∈ (effectRow c item).recognized, p.1 ≠ value) → effectTable c item value = (effectRow c item).defaultTable) ∧
    (∀ t : TableId, (value, t) ∈ (effectRow c item).recognized →
      ((effectRow c item).recognized.map Prod.fst).Nodup → effectTable c item value = t)

/-- R252: SET_EFFECT(BRIGHTNESS, unrecognized value) applies the default brightness table, and is no error. -/
def Obligations.BrightnessDefaultTable : Prop :=
  ∀ (s : State) (value : Long) (xs : List (Entry × Nat)) (ws : List WriteAnswer),
    readyInSession s → s.transport = true → (∀ p ∈ s.cfg.brightness.recognized, p.1 ≠ value) →
    tableBody s.cfg s.cfg.brightness.defaultTable (xs.map Prod.fst) → entriesFit s.cfg xs →
    s.writeAnswers = tableWrites s.cfg xs ++ ws →
    exec (.setEffect 2 value) s = .next
      (completed s (.setEffect 2 value) (tableEvents s.cfg xs) .ok ws s.readAnswers)

/-! ## Frames: what an instruction leaves unchanged

The RSE has no numbered registers, flags or memory (10_state.md R31, R41; 20_memory.md R60): its registers are the fields of
`S`, and there is no stored byte to speak of. `Extends` says that the configuration, the port and the inputs keep their values
and that events and answers are only added and taken at the ends. -/

/-- READ_REG, WRITE_REG and POLL_STATUS, in every state, also while they wait: no session field changes, and no fault but the
refusal of a request while another runs (40_bus_transport.md R149, 41_status_poller.md R180). -/
def Obligations.UnitRequestFrame : Prop :=
  ∀ (s t : State) (i : Instr),
    ((∃ a, i = .readReg a) ∨ (∃ a v, i = .writeReg a v) ∨ (∃ sa sv ra e d n, i = .pollStatus sa sv ra e d n)) →
    exec i s = .next t →
    Extends s t ∧ SameSession s t ∧ (t.fault = none ∨ (s.busy = true ∧ t.fault = some .reentry))

/-- APPLY_TABLE, SET_EFFECT and GET_STATUS: no session field changes (42_table_interpreter.md R212, 43_mode_effect.md R254,
44_control_surface.md R286). -/
def Obligations.TableCommandFrame : Prop :=
  ∀ (s t : State) (i : Instr),
    ((∃ k, i = .applyTable k) ∨ (∃ k v, i = .setEffect k v) ∨ i = .getStatus) →
    exec i s = .next t → Extends s t ∧ SameSession s t

/-- WR, WAIT and END: no session field, no fault, and not `S.busy`; WAIT and END take no answer and END adds no event
(42_table_interpreter.md R201 to R203). -/
def Obligations.EntryFrame : Prop :=
  ∀ (s t : State) (i : Instr), isCommand i = false → exec i s = .next t →
    Extends s t ∧ SameSession s t ∧ t.fault = s.fault ∧ t.busy = s.busy ∧ t.readAnswers = s.readAnswers ∧
    ((∃ ms, i = .wait ms) → t.writeAnswers = s.writeAnswers) ∧
    ((∃ x, i = .endTable x) → t.writeAnswers = s.writeAnswers ∧ t.trace = s.trace)

/-- SET_MODE: the session stays open or closed and the transport stays (43_mode_effect.md R240: only `S.initialized` and
`S.mode` are written). -/
def Obligations.SetModeFrame : Prop :=
  ∀ (s t : State) (w h : Long), exec (.setMode w h) s = .next t →
    Extends s t ∧ t.sessionOpen = s.sessionOpen ∧ t.transport = s.transport

/-- OPEN and CLOSE: no bus traffic, no answer taken (44_control_surface.md R282, R284). -/
def Obligations.SessionCommandFrame : Prop :=
  ∀ (s t : State) (i : Instr), (i = .openSession ∨ i = .closeSession) → exec i s = .next t →
    Extends s t ∧ t.writeAnswers = s.writeAnswers ∧ t.readAnswers = s.readAnswers ∧
    ∃ evs, t.trace = s.trace ++ evs ∧ ∀ e ∈ evs, isBusEvent e = false

/-! ## The whole machine -/

/-- No step and no instruction changes the configuration, the table store in it included (10_state.md R50). -/
def Obligations.ConfigurationIsConstant : Prop :=
  (∀ s t : State, step s = .next t → t.cfg = s.cfg) ∧
  (∀ (i : Instr) (s t : State), exec i s = .next t → t.cfg = s.cfg)

/-- A step only adds events at the end of the trace: what the bus carried is never undone or reordered (20_memory.md R78, R80),
and takes answers only from the front. -/
def Obligations.StepOnlyAddsEvents : Prop :=
  ∀ s t : State, step s = .next t →
    (∃ evs, t.trace = s.trace ++ evs) ∧ (∃ used, s.writeAnswers = used ++ t.writeAnswers) ∧
    (∃ used, s.readAnswers = used ++ t.readAnswers)

/-- Every step keeps the invariant `StateInv` (10_state.md R33, R36 to R38, R43, R44, R47). -/
def Obligations.StepKeepsInvariant : Prop :=
  ∀ s t : State, StateInv s → step s = .next t → StateInv t

/-- Reset has the invariant. -/
def Obligations.ResetHasInvariant : Prop := StateInv State.reset

/-- R350: the block after reset is "no session", with no event. -/
def Obligations.ResetState : Prop :=
  State.reset.sessionOpen = false ∧ State.reset.transport = false ∧ State.reset.initialized = false ∧
  State.reset.mode = none ∧ State.reset.busy = false ∧ State.reset.fault = none ∧ State.reset.trace = []

/-- Only a SET_MODE sets `S.initialized`: the step that delivers its `Ok`, which records its mode with it, be it the step that
accepted its frame or one that went on with it. Only a CLOSE clears it: the step that delivers its `Ok`, be it the step that
accepted its frame or the one after its hook (10_state.md R34, R35). OPEN finds it false, since there is no session (R37). -/
def Obligations.OnlySetModeInitializes : Prop :=
  ∀ s t : State, StateInv s → step s = .next t →
    (s.initialized = false → t.initialized = true →
      t.busy = false ∧ (∃ evs, t.trace = s.trace ++ evs ++ [.result .ok]) ∧
      ∃ m, t.mode = some m ∧
        ((∃ p w h, s.port = some p ∧ decodeFrame p.port p.bytes = .ok (.setMode w h) ∧ resolve w h = some m) ∨
          (s.port = none ∧ ∃ k, seqStep s.control = some k))) ∧
    (s.initialized = true → t.initialized = false →
      t.sessionOpen = false ∧ t.mode = none ∧ (∃ evs, t.trace = s.trace ++ evs ++ [.result .ok]) ∧
      ((∃ p, s.port = some p ∧ decodeFrame p.port p.bytes = .ok .closeSession) ∨
        (s.port = none ∧ s.control = .hook .powerOff)))

/-- The source's state machine (10_state.md R36): a step leaves its state, or opens a session in Uninitialized, or ends one, or
goes to Initialized(m) from a session that is open, with the `Ok` that delivers it. -/
def Obligations.SessionTransitions : Prop :=
  ∀ s t : State, StateInv s → step s = .next t →
    ∃ v w, sessionView s = some v ∧ sessionView t = some w ∧
      (w = v ∨ (v = .noSession ∧ w = .uninitialized) ∨ (v ≠ .noSession ∧ w = .noSession) ∨
        (v ≠ .noSession ∧ ∃ m evs, w = .initialized m ∧ t.trace = s.trace ++ evs ++ [.result .ok]))

/-- Without a transport no step puts anything on the bus or takes an answer of it, whatever runs (40_bus_transport.md R140,
R143). -/
def Obligations.NoTransportNoBusTraffic : Prop :=
  ∀ s t : State, StateInv s → s.transport = false → step s = .next t →
    (∃ evs, t.trace = s.trace ++ evs ∧ ∀ e ∈ evs, isBusEvent e = false) ∧
    t.writeAnswers = s.writeAnswers ∧ t.readAnswers = s.readAnswers

/-- A host command never returns NoDevice, TransferError or a value: what it delivers is `Ok`, InvalidResolution, UnknownItem,
WriteError or PollTimeout, whether it delivers it when it is accepted or in a step after it had to wait (60_exceptions.md R312). -/
def Obligations.HostResultKinds : Prop :=
  (∀ (s t : State) (i : Instr) (r : Result), ready s → isHostCommand i = true → exec i s = .next t →
    (∃ evs, t.trace = s.trace ++ evs ∧ .result r ∈ evs) → isHostResult r) ∧
  (∀ (s t : State) (r : Result), StateInv s → isHostPosition s.control = true → step s = .next t →
    (∃ evs, t.trace = s.trace ++ evs ∧ .result r ∈ evs) → isHostResult r)

/-- An accepted command emits its CMD event first; it emits exactly one RESULT, as its last event, if it has ended, and none
while it waits or when it met a fault. A step of a command that runs emits no CMD, and exactly one RESULT, as its last event, if
the command has ended with it, and none otherwise (44_control_surface.md R280, R281). -/
def Obligations.OneResultPerCommand : Prop :=
  (∀ (s t : State) (i : Instr), ready s → isCommand i = true → exec i s = .next t → t.trace ≠ s.trace →
    ∃ evs, (∀ e ∈ evs, isPortEvent e = false) ∧
      ((t.busy = false ∧ t.fault = none ∧ ∃ r, t.trace = s.trace ++ (.cmd i :: evs ++ [.result r])) ∨
        (t.busy = true ∧ t.trace = s.trace ++ .cmd i :: evs))) ∧
  (∀ s t : State, StateInv s → s.busy = true → step s = .next t →
    ∃ evs, (∀ e ∈ evs, isPortEvent e = false) ∧
      ((t.busy = false ∧ t.fault = none ∧ ∃ r, t.trace = s.trace ++ (evs ++ [.result r])) ∨
        (t.busy = true ∧ t.trace = s.trace ++ evs)))
end

