-- ==== Sys2Proof/Laws/State.lean ====
section
/-! SUPPORT. What each update of the state does to each field, one lemma per field per update. -/

namespace Sys2Proof.Machine

variable (s : State)

@[simp] theorem State.emit_cfg (e : Event) : (s.emit e).cfg = s.cfg := rfl
@[simp] theorem State.emit_sessionOpen (e : Event) : (s.emit e).sessionOpen = s.sessionOpen := rfl
@[simp] theorem State.emit_transport (e : Event) : (s.emit e).transport = s.transport := rfl
@[simp] theorem State.emit_initialized (e : Event) : (s.emit e).initialized = s.initialized := rfl
@[simp] theorem State.emit_mode (e : Event) : (s.emit e).mode = s.mode := rfl
@[simp] theorem State.emit_busy (e : Event) : (s.emit e).busy = s.busy := rfl
@[simp] theorem State.emit_fault (e : Event) : (s.emit e).fault = s.fault := rfl
@[simp] theorem State.emit_control (e : Event) : (s.emit e).control = s.control := rfl
@[simp] theorem State.emit_trace (e : Event) : (s.emit e).trace = s.trace ++ [e] := rfl
@[simp] theorem State.emit_port (e : Event) : (s.emit e).port = s.port := rfl
@[simp] theorem State.emit_attached (e : Event) : (s.emit e).attached = s.attached := rfl
@[simp] theorem State.emit_hookReturns (e : Event) : (s.emit e).hookReturns = s.hookReturns := rfl
@[simp] theorem State.emit_writeAnswers (e : Event) : (s.emit e).writeAnswers = s.writeAnswers := rfl
@[simp] theorem State.emit_readAnswers (e : Event) : (s.emit e).readAnswers = s.readAnswers := rfl

@[simp] theorem State.sleep_cfg (ms : Long) : (s.sleep ms).cfg = s.cfg := rfl
@[simp] theorem State.sleep_sessionOpen (ms : Long) : (s.sleep ms).sessionOpen = s.sessionOpen := rfl
@[simp] theorem State.sleep_transport (ms : Long) : (s.sleep ms).transport = s.transport := rfl
@[simp] theorem State.sleep_initialized (ms : Long) : (s.sleep ms).initialized = s.initialized := rfl
@[simp] theorem State.sleep_mode (ms : Long) : (s.sleep ms).mode = s.mode := rfl
@[simp] theorem State.sleep_busy (ms : Long) : (s.sleep ms).busy = s.busy := rfl
@[simp] theorem State.sleep_fault (ms : Long) : (s.sleep ms).fault = s.fault := rfl
@[simp] theorem State.sleep_control (ms : Long) : (s.sleep ms).control = s.control := rfl
@[simp] theorem State.sleep_trace (ms : Long) : (s.sleep ms).trace = s.trace ++ [.sleep ms] := rfl
@[simp] theorem State.sleep_port (ms : Long) : (s.sleep ms).port = s.port := rfl
@[simp] theorem State.sleep_attached (ms : Long) : (s.sleep ms).attached = s.attached := rfl
@[simp] theorem State.sleep_hookReturns (ms : Long) : (s.sleep ms).hookReturns = s.hookReturns := rfl
@[simp] theorem State.sleep_writeAnswers (ms : Long) : (s.sleep ms).writeAnswers = s.writeAnswers := rfl
@[simp] theorem State.sleep_readAnswers (ms : Long) : (s.sleep ms).readAnswers = s.readAnswers := rfl

@[simp] theorem State.log_cfg (k : LogKind) (a : Word) (v : Option Word) : (s.log k a v).cfg = s.cfg := rfl
@[simp] theorem State.log_sessionOpen (k : LogKind) (a : Word) (v : Option Word) : (s.log k a v).sessionOpen = s.sessionOpen := rfl
@[simp] theorem State.log_transport (k : LogKind) (a : Word) (v : Option Word) : (s.log k a v).transport = s.transport := rfl
@[simp] theorem State.log_initialized (k : LogKind) (a : Word) (v : Option Word) : (s.log k a v).initialized = s.initialized := rfl
@[simp] theorem State.log_mode (k : LogKind) (a : Word) (v : Option Word) : (s.log k a v).mode = s.mode := rfl
@[simp] theorem State.log_busy (k : LogKind) (a : Word) (v : Option Word) : (s.log k a v).busy = s.busy := rfl
@[simp] theorem State.log_fault (k : LogKind) (a : Word) (v : Option Word) : (s.log k a v).fault = s.fault := rfl
@[simp] theorem State.log_control (k : LogKind) (a : Word) (v : Option Word) : (s.log k a v).control = s.control := rfl
@[simp] theorem State.log_trace (k : LogKind) (a : Word) (v : Option Word) : (s.log k a v).trace = s.trace ++ [.log k a v] := rfl
@[simp] theorem State.log_port (k : LogKind) (a : Word) (v : Option Word) : (s.log k a v).port = s.port := rfl
@[simp] theorem State.log_attached (k : LogKind) (a : Word) (v : Option Word) : (s.log k a v).attached = s.attached := rfl
@[simp] theorem State.log_hookReturns (k : LogKind) (a : Word) (v : Option Word) : (s.log k a v).hookReturns = s.hookReturns := rfl
@[simp] theorem State.log_writeAnswers (k : LogKind) (a : Word) (v : Option Word) : (s.log k a v).writeAnswers = s.writeAnswers := rfl
@[simp] theorem State.log_readAnswers (k : LogKind) (a : Word) (v : Option Word) : (s.log k a v).readAnswers = s.readAnswers := rfl

@[simp] theorem State.setControl_cfg (c : Control) : (s.setControl c).cfg = s.cfg := rfl
@[simp] theorem State.setControl_sessionOpen (c : Control) : (s.setControl c).sessionOpen = s.sessionOpen := rfl
@[simp] theorem State.setControl_transport (c : Control) : (s.setControl c).transport = s.transport := rfl
@[simp] theorem State.setControl_initialized (c : Control) : (s.setControl c).initialized = s.initialized := rfl
@[simp] theorem State.setControl_mode (c : Control) : (s.setControl c).mode = s.mode := rfl
@[simp] theorem State.setControl_busy (c : Control) : (s.setControl c).busy = s.busy := rfl
@[simp] theorem State.setControl_fault (c : Control) : (s.setControl c).fault = s.fault := rfl
@[simp] theorem State.setControl_control (c : Control) : (s.setControl c).control = c := rfl
@[simp] theorem State.setControl_trace (c : Control) : (s.setControl c).trace = s.trace := rfl
@[simp] theorem State.setControl_port (c : Control) : (s.setControl c).port = s.port := rfl
@[simp] theorem State.setControl_attached (c : Control) : (s.setControl c).attached = s.attached := rfl
@[simp] theorem State.setControl_hookReturns (c : Control) : (s.setControl c).hookReturns = s.hookReturns := rfl
@[simp] theorem State.setControl_writeAnswers (c : Control) : (s.setControl c).writeAnswers = s.writeAnswers := rfl
@[simp] theorem State.setControl_readAnswers (c : Control) : (s.setControl c).readAnswers = s.readAnswers := rfl

@[simp] theorem State.raiseFault_cfg (f : FaultKind) : (s.raiseFault f).cfg = s.cfg := rfl
@[simp] theorem State.raiseFault_sessionOpen (f : FaultKind) : (s.raiseFault f).sessionOpen = s.sessionOpen := rfl
@[simp] theorem State.raiseFault_transport (f : FaultKind) : (s.raiseFault f).transport = s.transport := rfl
@[simp] theorem State.raiseFault_initialized (f : FaultKind) : (s.raiseFault f).initialized = s.initialized := rfl
@[simp] theorem State.raiseFault_mode (f : FaultKind) : (s.raiseFault f).mode = s.mode := rfl
@[simp] theorem State.raiseFault_busy (f : FaultKind) : (s.raiseFault f).busy = s.busy := rfl
@[simp] theorem State.raiseFault_fault (f : FaultKind) : (s.raiseFault f).fault = some f := rfl
@[simp] theorem State.raiseFault_control (f : FaultKind) : (s.raiseFault f).control = s.control := rfl
@[simp] theorem State.raiseFault_trace (f : FaultKind) : (s.raiseFault f).trace = s.trace := rfl
@[simp] theorem State.raiseFault_port (f : FaultKind) : (s.raiseFault f).port = s.port := rfl
@[simp] theorem State.raiseFault_attached (f : FaultKind) : (s.raiseFault f).attached = s.attached := rfl
@[simp] theorem State.raiseFault_hookReturns (f : FaultKind) : (s.raiseFault f).hookReturns = s.hookReturns := rfl
@[simp] theorem State.raiseFault_writeAnswers (f : FaultKind) : (s.raiseFault f).writeAnswers = s.writeAnswers := rfl
@[simp] theorem State.raiseFault_readAnswers (f : FaultKind) : (s.raiseFault f).readAnswers = s.readAnswers := rfl

@[simp] theorem State.accept_cfg (i : Instr) : (s.accept i).cfg = s.cfg := rfl
@[simp] theorem State.accept_sessionOpen (i : Instr) : (s.accept i).sessionOpen = s.sessionOpen := rfl
@[simp] theorem State.accept_transport (i : Instr) : (s.accept i).transport = s.transport := rfl
@[simp] theorem State.accept_initialized (i : Instr) : (s.accept i).initialized = s.initialized := rfl
@[simp] theorem State.accept_mode (i : Instr) : (s.accept i).mode = s.mode := rfl
@[simp] theorem State.accept_busy (i : Instr) : (s.accept i).busy = true := rfl
@[simp] theorem State.accept_fault (i : Instr) : (s.accept i).fault = s.fault := rfl
@[simp] theorem State.accept_control (i : Instr) : (s.accept i).control = s.control := rfl
@[simp] theorem State.accept_trace (i : Instr) : (s.accept i).trace = s.trace ++ [.cmd i] := rfl
@[simp] theorem State.accept_port (i : Instr) : (s.accept i).port = s.port := rfl
@[simp] theorem State.accept_attached (i : Instr) : (s.accept i).attached = s.attached := rfl
@[simp] theorem State.accept_hookReturns (i : Instr) : (s.accept i).hookReturns = s.hookReturns := rfl
@[simp] theorem State.accept_writeAnswers (i : Instr) : (s.accept i).writeAnswers = s.writeAnswers := rfl
@[simp] theorem State.accept_readAnswers (i : Instr) : (s.accept i).readAnswers = s.readAnswers := rfl

@[simp] theorem State.finish_cfg (r : Result) : (s.finish r).cfg = s.cfg := rfl
@[simp] theorem State.finish_sessionOpen (r : Result) : (s.finish r).sessionOpen = s.sessionOpen := rfl
@[simp] theorem State.finish_transport (r : Result) : (s.finish r).transport = s.transport := rfl
@[simp] theorem State.finish_initialized (r : Result) : (s.finish r).initialized = s.initialized := rfl
@[simp] theorem State.finish_mode (r : Result) : (s.finish r).mode = s.mode := rfl
@[simp] theorem State.finish_busy (r : Result) : (s.finish r).busy = false := rfl
@[simp] theorem State.finish_fault (r : Result) : (s.finish r).fault = s.fault := rfl
@[simp] theorem State.finish_control (r : Result) : (s.finish r).control = .idle := rfl
@[simp] theorem State.finish_trace (r : Result) : (s.finish r).trace = s.trace ++ [.result r] := rfl
@[simp] theorem State.finish_port (r : Result) : (s.finish r).port = s.port := rfl
@[simp] theorem State.finish_attached (r : Result) : (s.finish r).attached = s.attached := rfl
@[simp] theorem State.finish_hookReturns (r : Result) : (s.finish r).hookReturns = s.hookReturns := rfl
@[simp] theorem State.finish_writeAnswers (r : Result) : (s.finish r).writeAnswers = s.writeAnswers := rfl
@[simp] theorem State.finish_readAnswers (r : Result) : (s.finish r).readAnswers = s.readAnswers := rfl

@[simp] theorem State.clearPort_cfg : (s.clearPort).cfg = s.cfg := rfl
@[simp] theorem State.clearPort_sessionOpen : (s.clearPort).sessionOpen = s.sessionOpen := rfl
@[simp] theorem State.clearPort_transport : (s.clearPort).transport = s.transport := rfl
@[simp] theorem State.clearPort_initialized : (s.clearPort).initialized = s.initialized := rfl
@[simp] theorem State.clearPort_mode : (s.clearPort).mode = s.mode := rfl
@[simp] theorem State.clearPort_busy : (s.clearPort).busy = s.busy := rfl
@[simp] theorem State.clearPort_fault : (s.clearPort).fault = s.fault := rfl
@[simp] theorem State.clearPort_control : (s.clearPort).control = s.control := rfl
@[simp] theorem State.clearPort_trace : (s.clearPort).trace = s.trace := rfl
@[simp] theorem State.clearPort_port : (s.clearPort).port = none := rfl
@[simp] theorem State.clearPort_attached : (s.clearPort).attached = s.attached := rfl
@[simp] theorem State.clearPort_hookReturns : (s.clearPort).hookReturns = s.hookReturns := rfl
@[simp] theorem State.clearPort_writeAnswers : (s.clearPort).writeAnswers = s.writeAnswers := rfl
@[simp] theorem State.clearPort_readAnswers : (s.clearPort).readAnswers = s.readAnswers := rfl

@[simp] theorem State.acquireSession_cfg : (s.acquireSession).cfg = s.cfg := rfl
@[simp] theorem State.acquireSession_sessionOpen : (s.acquireSession).sessionOpen = true := rfl
@[simp] theorem State.acquireSession_transport : (s.acquireSession).transport = s.attached := rfl
@[simp] theorem State.acquireSession_initialized : (s.acquireSession).initialized = s.initialized := rfl
@[simp] theorem State.acquireSession_mode : (s.acquireSession).mode = s.mode := rfl
@[simp] theorem State.acquireSession_busy : (s.acquireSession).busy = s.busy := rfl
@[simp] theorem State.acquireSession_fault : (s.acquireSession).fault = s.fault := rfl
@[simp] theorem State.acquireSession_control : (s.acquireSession).control = s.control := rfl
@[simp] theorem State.acquireSession_trace : (s.acquireSession).trace = s.trace := rfl
@[simp] theorem State.acquireSession_port : (s.acquireSession).port = s.port := rfl
@[simp] theorem State.acquireSession_attached : (s.acquireSession).attached = s.attached := rfl
@[simp] theorem State.acquireSession_hookReturns : (s.acquireSession).hookReturns = s.hookReturns := rfl
@[simp] theorem State.acquireSession_writeAnswers : (s.acquireSession).writeAnswers = s.writeAnswers := rfl
@[simp] theorem State.acquireSession_readAnswers : (s.acquireSession).readAnswers = s.readAnswers := rfl

@[simp] theorem State.clearMode_cfg : (s.clearMode).cfg = s.cfg := rfl
@[simp] theorem State.clearMode_sessionOpen : (s.clearMode).sessionOpen = s.sessionOpen := rfl
@[simp] theorem State.clearMode_transport : (s.clearMode).transport = s.transport := rfl
@[simp] theorem State.clearMode_initialized : (s.clearMode).initialized = false := rfl
@[simp] theorem State.clearMode_mode : (s.clearMode).mode = none := rfl
@[simp] theorem State.clearMode_busy : (s.clearMode).busy = s.busy := rfl
@[simp] theorem State.clearMode_fault : (s.clearMode).fault = s.fault := rfl
@[simp] theorem State.clearMode_control : (s.clearMode).control = s.control := rfl
@[simp] theorem State.clearMode_trace : (s.clearMode).trace = s.trace := rfl
@[simp] theorem State.clearMode_port : (s.clearMode).port = s.port := rfl
@[simp] theorem State.clearMode_attached : (s.clearMode).attached = s.attached := rfl
@[simp] theorem State.clearMode_hookReturns : (s.clearMode).hookReturns = s.hookReturns := rfl
@[simp] theorem State.clearMode_writeAnswers : (s.clearMode).writeAnswers = s.writeAnswers := rfl
@[simp] theorem State.clearMode_readAnswers : (s.clearMode).readAnswers = s.readAnswers := rfl

@[simp] theorem State.releaseSession_cfg : (s.releaseSession).cfg = s.cfg := rfl
@[simp] theorem State.releaseSession_sessionOpen : (s.releaseSession).sessionOpen = false := rfl
@[simp] theorem State.releaseSession_transport : (s.releaseSession).transport = false := rfl
@[simp] theorem State.releaseSession_initialized : (s.releaseSession).initialized = false := rfl
@[simp] theorem State.releaseSession_mode : (s.releaseSession).mode = none := rfl
@[simp] theorem State.releaseSession_busy : (s.releaseSession).busy = s.busy := rfl
@[simp] theorem State.releaseSession_fault : (s.releaseSession).fault = s.fault := rfl
@[simp] theorem State.releaseSession_control : (s.releaseSession).control = s.control := rfl
@[simp] theorem State.releaseSession_trace : (s.releaseSession).trace = s.trace := rfl
@[simp] theorem State.releaseSession_port : (s.releaseSession).port = s.port := rfl
@[simp] theorem State.releaseSession_attached : (s.releaseSession).attached = s.attached := rfl
@[simp] theorem State.releaseSession_hookReturns : (s.releaseSession).hookReturns = s.hookReturns := rfl
@[simp] theorem State.releaseSession_writeAnswers : (s.releaseSession).writeAnswers = s.writeAnswers := rfl
@[simp] theorem State.releaseSession_readAnswers : (s.releaseSession).readAnswers = s.readAnswers := rfl

@[simp] theorem State.commitMode_cfg (m : ModeId) : (s.commitMode m).cfg = s.cfg := rfl
@[simp] theorem State.commitMode_sessionOpen (m : ModeId) : (s.commitMode m).sessionOpen = s.sessionOpen := rfl
@[simp] theorem State.commitMode_transport (m : ModeId) : (s.commitMode m).transport = s.transport := rfl
@[simp] theorem State.commitMode_initialized (m : ModeId) : (s.commitMode m).initialized = true := rfl
@[simp] theorem State.commitMode_mode (m : ModeId) : (s.commitMode m).mode = some m := rfl
@[simp] theorem State.commitMode_busy (m : ModeId) : (s.commitMode m).busy = s.busy := rfl
@[simp] theorem State.commitMode_fault (m : ModeId) : (s.commitMode m).fault = s.fault := rfl
@[simp] theorem State.commitMode_control (m : ModeId) : (s.commitMode m).control = s.control := rfl
@[simp] theorem State.commitMode_trace (m : ModeId) : (s.commitMode m).trace = s.trace := rfl
@[simp] theorem State.commitMode_port (m : ModeId) : (s.commitMode m).port = s.port := rfl
@[simp] theorem State.commitMode_attached (m : ModeId) : (s.commitMode m).attached = s.attached := rfl
@[simp] theorem State.commitMode_hookReturns (m : ModeId) : (s.commitMode m).hookReturns = s.hookReturns := rfl
@[simp] theorem State.commitMode_writeAnswers (m : ModeId) : (s.commitMode m).writeAnswers = s.writeAnswers := rfl
@[simp] theorem State.commitMode_readAnswers (m : ModeId) : (s.commitMode m).readAnswers = s.readAnswers := rfl

@[simp] theorem State.present_cfg (p : Port) (b : List Byte) : (s.present p b).cfg = s.cfg := rfl
@[simp] theorem State.present_sessionOpen (p : Port) (b : List Byte) : (s.present p b).sessionOpen = s.sessionOpen := rfl
@[simp] theorem State.present_transport (p : Port) (b : List Byte) : (s.present p b).transport = s.transport := rfl
@[simp] theorem State.present_initialized (p : Port) (b : List Byte) : (s.present p b).initialized = s.initialized := rfl
@[simp] theorem State.present_mode (p : Port) (b : List Byte) : (s.present p b).mode = s.mode := rfl
@[simp] theorem State.present_busy (p : Port) (b : List Byte) : (s.present p b).busy = s.busy := rfl
@[simp] theorem State.present_fault (p : Port) (b : List Byte) : (s.present p b).fault = s.fault := rfl
@[simp] theorem State.present_control (p : Port) (b : List Byte) : (s.present p b).control = s.control := rfl
@[simp] theorem State.present_trace (p : Port) (b : List Byte) : (s.present p b).trace = s.trace := rfl
@[simp] theorem State.present_port (p : Port) (b : List Byte) : (s.present p b).port = some ⟨p, b⟩ := rfl
@[simp] theorem State.present_attached (p : Port) (b : List Byte) : (s.present p b).attached = s.attached := rfl
@[simp] theorem State.present_hookReturns (p : Port) (b : List Byte) : (s.present p b).hookReturns = s.hookReturns := rfl
@[simp] theorem State.present_writeAnswers (p : Port) (b : List Byte) : (s.present p b).writeAnswers = s.writeAnswers := rfl
@[simp] theorem State.present_readAnswers (p : Port) (b : List Byte) : (s.present p b).readAnswers = s.readAnswers := rfl

@[simp] theorem State.answerWrite_cfg (o : WriteAnswer) : (s.answerWrite o).cfg = s.cfg := rfl
@[simp] theorem State.answerWrite_sessionOpen (o : WriteAnswer) : (s.answerWrite o).sessionOpen = s.sessionOpen := rfl
@[simp] theorem State.answerWrite_transport (o : WriteAnswer) : (s.answerWrite o).transport = s.transport := rfl
@[simp] theorem State.answerWrite_initialized (o : WriteAnswer) : (s.answerWrite o).initialized = s.initialized := rfl
@[simp] theorem State.answerWrite_mode (o : WriteAnswer) : (s.answerWrite o).mode = s.mode := rfl
@[simp] theorem State.answerWrite_busy (o : WriteAnswer) : (s.answerWrite o).busy = s.busy := rfl
@[simp] theorem State.answerWrite_fault (o : WriteAnswer) : (s.answerWrite o).fault = s.fault := rfl
@[simp] theorem State.answerWrite_control (o : WriteAnswer) : (s.answerWrite o).control = s.control := rfl
@[simp] theorem State.answerWrite_trace (o : WriteAnswer) : (s.answerWrite o).trace = s.trace := rfl
@[simp] theorem State.answerWrite_port (o : WriteAnswer) : (s.answerWrite o).port = s.port := rfl
@[simp] theorem State.answerWrite_attached (o : WriteAnswer) : (s.answerWrite o).attached = s.attached := rfl
@[simp] theorem State.answerWrite_hookReturns (o : WriteAnswer) : (s.answerWrite o).hookReturns = s.hookReturns := rfl
@[simp] theorem State.answerWrite_writeAnswers (o : WriteAnswer) : (s.answerWrite o).writeAnswers = s.writeAnswers ++ [o] := rfl
@[simp] theorem State.answerWrite_readAnswers (o : WriteAnswer) : (s.answerWrite o).readAnswers = s.readAnswers := rfl

@[simp] theorem State.answerRead_cfg (o : ReadAnswer) : (s.answerRead o).cfg = s.cfg := rfl
@[simp] theorem State.answerRead_sessionOpen (o : ReadAnswer) : (s.answerRead o).sessionOpen = s.sessionOpen := rfl
@[simp] theorem State.answerRead_transport (o : ReadAnswer) : (s.answerRead o).transport = s.transport := rfl
@[simp] theorem State.answerRead_initialized (o : ReadAnswer) : (s.answerRead o).initialized = s.initialized := rfl
@[simp] theorem State.answerRead_mode (o : ReadAnswer) : (s.answerRead o).mode = s.mode := rfl
@[simp] theorem State.answerRead_busy (o : ReadAnswer) : (s.answerRead o).busy = s.busy := rfl
@[simp] theorem State.answerRead_fault (o : ReadAnswer) : (s.answerRead o).fault = s.fault := rfl
@[simp] theorem State.answerRead_control (o : ReadAnswer) : (s.answerRead o).control = s.control := rfl
@[simp] theorem State.answerRead_trace (o : ReadAnswer) : (s.answerRead o).trace = s.trace := rfl
@[simp] theorem State.answerRead_port (o : ReadAnswer) : (s.answerRead o).port = s.port := rfl
@[simp] theorem State.answerRead_attached (o : ReadAnswer) : (s.answerRead o).attached = s.attached := rfl
@[simp] theorem State.answerRead_hookReturns (o : ReadAnswer) : (s.answerRead o).hookReturns = s.hookReturns := rfl
@[simp] theorem State.answerRead_writeAnswers (o : ReadAnswer) : (s.answerRead o).writeAnswers = s.writeAnswers := rfl
@[simp] theorem State.answerRead_readAnswers (o : ReadAnswer) : (s.answerRead o).readAnswers = s.readAnswers ++ [o] := rfl

@[simp] theorem State.after_cfg (evs : List Event) (ws : List WriteAnswer) (rs : List ReadAnswer) : (s.after evs ws rs).cfg = s.cfg := rfl
@[simp] theorem State.after_sessionOpen (evs : List Event) (ws : List WriteAnswer) (rs : List ReadAnswer) : (s.after evs ws rs).sessionOpen = s.sessionOpen := rfl
@[simp] theorem State.after_transport (evs : List Event) (ws : List WriteAnswer) (rs : List ReadAnswer) : (s.after evs ws rs).transport = s.transport := rfl
@[simp] theorem State.after_initialized (evs : List Event) (ws : List WriteAnswer) (rs : List ReadAnswer) : (s.after evs ws rs).initialized = s.initialized := rfl
@[simp] theorem State.after_mode (evs : List Event) (ws : List WriteAnswer) (rs : List ReadAnswer) : (s.after evs ws rs).mode = s.mode := rfl
@[simp] theorem State.after_busy (evs : List Event) (ws : List WriteAnswer) (rs : List ReadAnswer) : (s.after evs ws rs).busy = s.busy := rfl
@[simp] theorem State.after_fault (evs : List Event) (ws : List WriteAnswer) (rs : List ReadAnswer) : (s.after evs ws rs).fault = s.fault := rfl
@[simp] theorem State.after_control (evs : List Event) (ws : List WriteAnswer) (rs : List ReadAnswer) : (s.after evs ws rs).control = s.control := rfl
@[simp] theorem State.after_trace (evs : List Event) (ws : List WriteAnswer) (rs : List ReadAnswer) : (s.after evs ws rs).trace = s.trace ++ evs := rfl
@[simp] theorem State.after_port (evs : List Event) (ws : List WriteAnswer) (rs : List ReadAnswer) : (s.after evs ws rs).port = s.port := rfl
@[simp] theorem State.after_attached (evs : List Event) (ws : List WriteAnswer) (rs : List ReadAnswer) : (s.after evs ws rs).attached = s.attached := rfl
@[simp] theorem State.after_hookReturns (evs : List Event) (ws : List WriteAnswer) (rs : List ReadAnswer) : (s.after evs ws rs).hookReturns = s.hookReturns := rfl
@[simp] theorem State.after_writeAnswers (evs : List Event) (ws : List WriteAnswer) (rs : List ReadAnswer) : (s.after evs ws rs).writeAnswers = ws := rfl
@[simp] theorem State.after_readAnswers (evs : List Event) (ws : List WriteAnswer) (rs : List ReadAnswer) : (s.after evs ws rs).readAnswers = rs := rfl

@[simp] theorem State.moreAnswers_cfg (ws : List WriteAnswer) (rs : List ReadAnswer) : (s.moreAnswers ws rs).cfg = s.cfg := rfl
@[simp] theorem State.moreAnswers_sessionOpen (ws : List WriteAnswer) (rs : List ReadAnswer) : (s.moreAnswers ws rs).sessionOpen = s.sessionOpen := rfl
@[simp] theorem State.moreAnswers_transport (ws : List WriteAnswer) (rs : List ReadAnswer) : (s.moreAnswers ws rs).transport = s.transport := rfl
@[simp] theorem State.moreAnswers_initialized (ws : List WriteAnswer) (rs : List ReadAnswer) : (s.moreAnswers ws rs).initialized = s.initialized := rfl
@[simp] theorem State.moreAnswers_mode (ws : List WriteAnswer) (rs : List ReadAnswer) : (s.moreAnswers ws rs).mode = s.mode := rfl
@[simp] theorem State.moreAnswers_busy (ws : List WriteAnswer) (rs : List ReadAnswer) : (s.moreAnswers ws rs).busy = s.busy := rfl
@[simp] theorem State.moreAnswers_fault (ws : List WriteAnswer) (rs : List ReadAnswer) : (s.moreAnswers ws rs).fault = s.fault := rfl
@[simp] theorem State.moreAnswers_control (ws : List WriteAnswer) (rs : List ReadAnswer) : (s.moreAnswers ws rs).control = s.control := rfl
@[simp] theorem State.moreAnswers_trace (ws : List WriteAnswer) (rs : List ReadAnswer) : (s.moreAnswers ws rs).trace = s.trace := rfl
@[simp] theorem State.moreAnswers_port (ws : List WriteAnswer) (rs : List ReadAnswer) : (s.moreAnswers ws rs).port = s.port := rfl
@[simp] theorem State.moreAnswers_attached (ws : List WriteAnswer) (rs : List ReadAnswer) : (s.moreAnswers ws rs).attached = s.attached := rfl
@[simp] theorem State.moreAnswers_hookReturns (ws : List WriteAnswer) (rs : List ReadAnswer) : (s.moreAnswers ws rs).hookReturns = s.hookReturns := rfl
@[simp] theorem State.moreAnswers_writeAnswers (ws : List WriteAnswer) (rs : List ReadAnswer) : (s.moreAnswers ws rs).writeAnswers = s.writeAnswers ++ ws := rfl
@[simp] theorem State.moreAnswers_readAnswers (ws : List WriteAnswer) (rs : List ReadAnswer) : (s.moreAnswers ws rs).readAnswers = s.readAnswers ++ rs := rfl

end Sys2Proof.Machine
end

