-- ==== Sys2Proof/Laws/Bus.lean ====
section
/-! SUPPORT. The Bus Transport: what each of its operations can do, said once (40_bus_transport.md). -/

namespace Sys2Proof.Machine

/-! ## States after work -/

@[simp] theorem State.after_after (s : State) (e1 e2 : List Event) (w1 w2 : List WriteAnswer) (r1 r2 : List ReadAnswer) :
    (s.after e1 w1 r1).after e2 w2 r2 = s.after (e1 ++ e2) w2 r2 := by
  simp [State.after]

theorem State.emit_eq_after (s : State) (e : Event) : s.emit e = s.after [e] s.writeAnswers s.readAnswers := rfl

theorem State.sleep_eq_after (s : State) (ms : Long) :
    s.sleep ms = s.after [.sleep ms] s.writeAnswers s.readAnswers := rfl

theorem State.log_eq_after (s : State) (k : LogKind) (a : Word) (v : Option Word) :
    s.log k a v = s.after [.log k a v] s.writeAnswers s.readAnswers := rfl

theorem State.after_nil (s : State) : s.after [] s.writeAnswers s.readAnswers = s := by
  simp [State.after]

/-- A command that was accepted, worked and finished. -/
theorem completed_eq (s : State) (i : Instr) (evs : List Event) (r : Result) (ws : List WriteAnswer)
    (rs : List ReadAnswer) : ((s.accept i).after evs ws rs).finish r = completed s i evs r ws rs := by
  simp [completed, State.after, State.accept, State.finish]

/-! ## Runs -/

@[simp] theorem Run.bind_done {α β : Type} (r : α) (s : State) (f : α → State → Run β) : (Run.done r s).bind f = f r s := rfl
@[simp] theorem Run.bind_stop {α β : Type} (s : State) (f : α → State → Run β) : (Run.stop s).bind f = .stop s := rfl
@[simp] theorem Run.elim_done {α : Type} (r : α) (s : State) (f : α → State → State) : (Run.done r s).elim f = f r s := rfl
@[simp] theorem Run.elim_stop {α : Type} (s : State) (f : α → State → State) : (Run.stop s).elim f = s := rfl
@[simp] theorem Run.state_done {α : Type} (r : α) (s : State) : (Run.done r s).state = s := rfl
@[simp] theorem Run.state_stop {α : Type} (s : State) : (Run.stop s : Run α).state = s := rfl

/-! ## Transactions -/

@[simp] theorem busWrite_nil (a v : Word) (s : State) (h : s.writeAnswers = []) : busWrite a v s = none := by
  simp [busWrite, h]

theorem busWrite_cons (a v : Word) (s : State) (o : WriteAnswer) (ws : List WriteAnswer) (h : s.writeAnswers = o :: ws) :
    busWrite a v s = some (o, s.after [.wr a v o] ws s.readAnswers) := by
  simp [busWrite, h, State.after, State.emit]

theorem busWriteRead_cons (a : Word) (s : State) (r : ReadAnswer) (rs : List ReadAnswer) (h : s.readAnswers = r :: rs) :
    busWriteRead a s = some (readValue r, s.after [.rd a (readValue r)] s.writeAnswers rs) := by
  cases r <;> simp [busWriteRead, h, State.after, State.emit, readValue]

/-! ## readRegister -/

theorem readRegister_noTransport (ret : ReadRet) (a : Word) (s : State) (h : s.transport = false) :
    readRegister ret a s = .done (.fail .noDevice) s := by
  simp [readRegister, h]

/-- With a transport, a read is going on with a read that waits for its answer (40_bus_transport.md R147). -/
theorem readRegister_transport (ret : ReadRet) (a : Word) (s : State) (h : s.transport = true) :
    readRegister ret a s = resumeRead ret a s := by
  simp [readRegister, resumeRead, h]

/-- What a read's answer makes of it (40_bus_transport.md R140). -/
def readOutcome : ReadAnswer → ReadResult
  | .ack d0 d1 => .ok (be16 d0 d1)
  | .nak => .fail .transferError

theorem resumeRead_held (ret : ReadRet) (a : Word) (s : State) (h : s.readAnswers = []) :
    resumeRead ret a s = .stop (s.setControl (.read a ret)) := by
  simp [resumeRead, busWriteRead, h]

theorem resumeRead_answered (ret : ReadRet) (a : Word) (s : State) (r : ReadAnswer) (rs : List ReadAnswer)
    (h : s.readAnswers = r :: rs) :
    resumeRead ret a s = .done (readOutcome r) (s.after [.rd a (readValue r)] s.writeAnswers rs) := by
  simp only [resumeRead, busWriteRead_cons a s r rs h]
  cases r <;> simp [readValue, readOutcome]

/-! ## writeRegister -/

theorem writeRegister_noTransport (ret : WriteRet) (a v : Word) (s : State) (h : s.transport = false) :
    writeRegister ret a v s = .done (.fail .noDevice) s := by
  simp [writeRegister, h]

theorem writeRegister_transport (ret : WriteRet) (a v : Word) (s : State) (h : s.transport = true) :
    writeRegister ret a v s = writeAttempts ret a v s.cfg.writeRetries.toNat s := by
  simp [writeRegister, h]

/-- The attempt after one that was answered `Nak`. -/
theorem writeAttempts_nak (ret : WriteRet) (a v : Word) (n : Nat) (s : State) (ws : List WriteAnswer)
    (h : s.writeAnswers = .nak :: ws) :
    writeAttempts ret a v (n + 1) s = writeAttempts ret a v n (s.after (retryEvents s.cfg a v) ws s.readAnswers) := by
  rw [writeAttempts, busWrite_cons a v s _ ws h]
  simp [State.log_eq_after, State.sleep_eq_after, retryEvents]

/-- `j` failed attempts, then whatever comes. -/
theorem writeAttempts_naks (ret : WriteRet) (a v : Word) (j n : Nat) (s : State) (ws : List WriteAnswer)
    (h : s.writeAnswers = List.replicate j .nak ++ ws) :
    writeAttempts ret a v (j + n) s =
      writeAttempts ret a v n (s.after (List.replicate j (retryEvents s.cfg a v)).flatten ws s.readAnswers) := by
  induction j generalizing s with
  | zero =>
    simp only [List.replicate_zero, List.nil_append] at h
    simp [← h, State.after_nil]
  | succ j ih =>
    simp only [List.replicate_succ, List.cons_append] at h
    rw [Nat.succ_add, Nat.succ_eq_add_one, writeAttempts_nak ret a v _ s _ h, ih _ (by simp)]
    simp [List.replicate_succ]

/-- A write acknowledged after `j` failed attempts (40_bus_transport.md R148). -/
theorem writeAttempts_acked (ret : WriteRet) (a v : Word) (j left : Nat) (s : State) (ws : List WriteAnswer)
    (hj : j ≤ left) (h : s.writeAnswers = List.replicate j .nak ++ .ack :: ws) :
    writeAttempts ret a v left s = .done .ok (s.after (ackedAfter s.cfg a v j) ws s.readAnswers) := by
  obtain ⟨n, rfl⟩ := Nat.exists_eq_add_of_le hj
  rw [writeAttempts_naks ret a v j n s _ h, writeAttempts, busWrite_cons a v _ .ack ws (by simp)]
  simp [ackedAfter]

/-- A write that fails its last attempt (40_bus_transport.md R148). -/
theorem writeAttempts_failed (ret : WriteRet) (a v : Word) (left : Nat) (s : State) (ws : List WriteAnswer)
    (h : s.writeAnswers = List.replicate (left + 1) .nak ++ ws) :
    writeAttempts ret a v left s = .done (.fail .transferError)
      (s.after ((List.replicate left (retryEvents s.cfg a v)).flatten ++ [.wr a v .nak]) ws s.readAnswers) := by
  rw [List.replicate_succ', List.append_assoc] at h
  have := writeAttempts_naks ret a v left 0 s _ h
  simp only [Nat.add_zero] at this
  rw [this, writeAttempts, busWrite_cons a v _ .nak ws (by simp)]
  simp

/-- A write that waits after `j` failed attempts (20_memory.md R82). -/
theorem writeAttempts_held (ret : WriteRet) (a v : Word) (j left : Nat) (s : State)
    (hj : j ≤ left) (h : s.writeAnswers = List.replicate j .nak) :
    writeAttempts ret a v left s = .stop
      ((s.after (List.replicate j (retryEvents s.cfg a v)).flatten [] s.readAnswers).setControl
        (.write a v (attemptNumber s.cfg (left - j)) ret)) := by
  obtain ⟨n, rfl⟩ := Nat.exists_eq_add_of_le hj
  rw [writeAttempts_naks ret a v j n s [] (by simpa using h), writeAttempts, busWrite_nil a v _ (by simp)]
  simp

/-- The three ways the answers to a register write can go: acknowledged within the budget, refused to its end, or not all
there yet. -/
theorem writeAnswers_cases (left : Nat) (ans : List WriteAnswer) :
    (∃ j ws, j ≤ left ∧ ans = List.replicate j .nak ++ .ack :: ws) ∨
    (∃ ws, ans = List.replicate (left + 1) .nak ++ ws) ∨
    (∃ j, j ≤ left ∧ ans = List.replicate j .nak) := by
  induction left generalizing ans with
  | zero =>
    match ans with
    | [] => exact .inr (.inr ⟨0, le_rfl, rfl⟩)
    | .ack :: ws => exact .inl ⟨0, ws, le_rfl, rfl⟩
    | .nak :: ws => exact .inr (.inl ⟨ws, rfl⟩)
  | succ n ih =>
    match ans with
    | [] => exact .inr (.inr ⟨0, Nat.zero_le _, rfl⟩)
    | .ack :: ws => exact .inl ⟨0, ws, Nat.zero_le _, rfl⟩
    | .nak :: ans =>
      rcases ih ans with ⟨j, ws, hj, rfl⟩ | ⟨ws, rfl⟩ | ⟨j, hj, rfl⟩
      · exact .inl ⟨j + 1, ws, Nat.succ_le_succ hj, by simp [List.replicate_succ]⟩
      · exact .inr (.inl ⟨ws, by simp [List.replicate_succ]⟩)
      · exact .inr (.inr ⟨j + 1, Nat.succ_le_succ hj, by simp [List.replicate_succ]⟩)

end Sys2Proof.Machine
end

