-- ==== Sys2Proof/Laws/Units.lean ====
section
/-! SUPPORT. The units above the Bus Transport: what each leaves alone, where each can stand still, and what each does when its
transactions are answered (41_status_poller.md, 42_table_interpreter.md). -/

namespace Sys2Proof.Machine

/-! ## What a unit leaves alone -/

theorem Extends.refl (s : State) : Extends s s :=
  ⟨rfl, rfl, rfl, rfl, ⟨[], by simp⟩, ⟨[], by simp⟩, ⟨[], by simp⟩⟩

theorem Extends.trans {s t u : State} (h : Extends s t) (k : Extends t u) : Extends s u := by
  obtain ⟨e1, he1⟩ := h.trace
  obtain ⟨e2, he2⟩ := k.trace
  obtain ⟨w1, hw1⟩ := h.writeAnswers
  obtain ⟨w2, hw2⟩ := k.writeAnswers
  obtain ⟨r1, hr1⟩ := h.readAnswers
  obtain ⟨r2, hr2⟩ := k.readAnswers
  exact ⟨k.cfg.trans h.cfg, k.port.trans h.port, k.attached.trans h.attached, k.hookReturns.trans h.hookReturns,
    ⟨e1 ++ e2, by rw [he2, he1, List.append_assoc]⟩, ⟨w1 ++ w2, by rw [hw1, hw2, List.append_assoc]⟩,
    ⟨r1 ++ r2, by rw [hr1, hr2, List.append_assoc]⟩⟩

theorem SameSession.refl (s : State) : SameSession s s := ⟨rfl, rfl, rfl, rfl⟩

theorem SameSession.trans {s t u : State} (h : SameSession s t) (k : SameSession t u) : SameSession s u :=
  ⟨k.1.trans h.1, k.2.trans h.2, k.3.trans h.3, k.4.trans h.4⟩

/-- A unit's work: only events of the units, answers, the position and, in a table, the fault (40_bus_transport.md R149,
41_status_poller.md R180, 42_table_interpreter.md R212). -/
structure Worked (s t : State) : Prop where
  extended : Extends s t
  session  : SameSession s t
  busy     : t.busy = s.busy
  unitOnly : ∃ evs, t.trace = s.trace ++ evs ∧ ∀ e ∈ evs, isPortEvent e = false

theorem Worked.refl (s : State) : Worked s s := ⟨.refl s, .refl s, rfl, [], by simp, by simp⟩

theorem Worked.trans {s t u : State} (h : Worked s t) (k : Worked t u) : Worked s u := by
  refine ⟨h.1.trans k.1, h.2.trans k.2, k.3.trans h.3, ?_⟩
  obtain ⟨e1, h1, p1⟩ := h.unitOnly
  obtain ⟨e2, h2, p2⟩ := k.unitOnly
  refine ⟨e1 ++ e2, by rw [h2, h1, List.append_assoc], fun e he => ?_⟩
  exact (List.mem_append.1 he).elim (p1 e) (p2 e)

theorem Worked.setControl {s t : State} (h : Worked s t) (c : Control) : Worked s (t.setControl c) :=
  h.trans ⟨⟨rfl, rfl, rfl, rfl, ⟨[], by simp⟩, ⟨[], by simp⟩, ⟨[], by simp⟩⟩, ⟨rfl, rfl, rfl, rfl⟩, rfl, [], by simp,
    by simp⟩

theorem Worked.raiseFault {s t : State} (h : Worked s t) (f : FaultKind) : Worked s (t.raiseFault f) :=
  h.trans ⟨⟨rfl, rfl, rfl, rfl, ⟨[], by simp⟩, ⟨[], by simp⟩, ⟨[], by simp⟩⟩, ⟨rfl, rfl, rfl, rfl⟩, rfl, [], by simp,
    by simp⟩

theorem Worked.after (s : State) (evs : List Event) (w ws : List WriteAnswer) (r rs : List ReadAnswer)
    (hw : s.writeAnswers = w ++ ws) (hr : s.readAnswers = r ++ rs) (he : ∀ e ∈ evs, isPortEvent e = false) :
    Worked s (s.after evs ws rs) :=
  ⟨⟨rfl, rfl, rfl, rfl, ⟨evs, rfl⟩, ⟨w, hw⟩, ⟨r, hr⟩⟩, ⟨rfl, rfl, rfl, rfl⟩, rfl, evs, rfl, he⟩

theorem Worked.sleep (s : State) (ms : Long) : Worked s (s.sleep ms) := by
  rw [State.sleep_eq_after]
  exact .after s _ [] _ [] _ rfl rfl (by simp [isPortEvent])

/-- The failed attempts of a write are events of the Bus Transport. -/
theorem retries_unitOnly (c : Cfg) (a v : Word) (j : Nat) :
    ∀ e ∈ (List.replicate j (retryEvents c a v)).flatten, isPortEvent e = false := by
  intro e he
  obtain ⟨l, hl, he⟩ := List.mem_flatten.1 he
  rw [List.eq_of_mem_replicate hl, retryEvents] at he
  simp only [List.mem_cons, List.not_mem_nil, or_false] at he
  rcases he with rfl | rfl | rfl <;> rfl

theorem attempts_unitOnly (c : Cfg) (a v : Word) (j : Nat) (o : WriteAnswer) :
    ∀ e ∈ (List.replicate j (retryEvents c a v)).flatten ++ [Event.wr a v o], isPortEvent e = false := by
  intro e he
  rcases List.mem_append.1 he with he | he
  · exact retries_unitOnly c a v j e he
  · rw [List.mem_singleton.1 he]
    rfl

/-! ## The Bus Transport -/

/-- A register write in progress: it works, raises no fault, and stands still only waiting for its answer. -/
theorem writeAttempts_spec (ret : WriteRet) (a v : Word) (left : Nat) (s : State) :
    Worked s (writeAttempts ret a v left s).state ∧ (writeAttempts ret a v left s).state.fault = s.fault ∧
      (∀ s', writeAttempts ret a v left s = .stop s' →
        ∃ j, j ≤ left ∧ s'.control = .write a v (attemptNumber s.cfg (left - j)) ret) := by
  rcases writeAnswers_cases left s.writeAnswers with ⟨j, ws, hj, h⟩ | ⟨ws, h⟩ | ⟨j, hj, h⟩
  · rw [writeAttempts_acked ret a v j left s ws hj h]
    exact ⟨.after s _ (List.replicate j .nak ++ [.ack]) _ [] _ (by simp [h]) rfl (attempts_unitOnly _ _ _ _ _), rfl, by simp⟩
  · rw [writeAttempts_failed ret a v left s ws h]
    exact ⟨.after s _ _ _ [] _ h rfl (attempts_unitOnly _ _ _ _ _), rfl, by simp⟩
  · rw [writeAttempts_held ret a v j left s hj h]
    refine ⟨(Worked.after s _ s.writeAnswers [] [] _ (by simp) rfl (retries_unitOnly _ _ _ _)).setControl _, rfl, ?_⟩
    intro s' hs
    cases hs
    exact ⟨j, hj, rfl⟩

theorem writeRegister_worked (ret : WriteRet) (a v : Word) (s : State) :
    Worked s (writeRegister ret a v s).state ∧ (writeRegister ret a v s).state.fault = s.fault := by
  cases h : s.transport
  · rw [writeRegister_noTransport ret a v s h]
    exact ⟨.refl s, rfl⟩
  · rw [writeRegister_transport ret a v s h]
    exact ⟨(writeAttempts_spec ret a v _ s).1, (writeAttempts_spec ret a v _ s).2.1⟩

/-- A register write waits only with a transport, in an attempt of its budget (10_state.md R43). -/
theorem writeRegister_stop {ret : WriteRet} {a v : Word} {s s' : State} (h : writeRegister ret a v s = .stop s') :
    s.transport = true ∧ ∃ n, 1 ≤ n ∧ n ≤ 1 + s.cfg.writeRetries.toNat ∧ s'.control = .write a v n ret := by
  cases ht : s.transport
  · rw [writeRegister_noTransport ret a v s ht] at h
    cases h
  · rw [writeRegister_transport ret a v s ht] at h
    obtain ⟨j, hj, hc⟩ := (writeAttempts_spec ret a v _ s).2.2 s' h
    refine ⟨rfl, _, ?_, ?_, hc⟩ <;> simp only [attemptNumber] <;> omega

theorem resumeWrite_worked (ret : WriteRet) (a v : Word) (n : Nat) (s : State) :
    Worked s (resumeWrite ret a v n s).state ∧ (resumeWrite ret a v n s).state.fault = s.fault :=
  ⟨(writeAttempts_spec ret a v _ s).1, (writeAttempts_spec ret a v _ s).2.1⟩

theorem resumeWrite_stop {ret : WriteRet} {a v : Word} {n : Nat} {s s' : State} (hn : 1 ≤ n)
    (h : resumeWrite ret a v n s = .stop s') :
    ∃ m, 1 ≤ m ∧ m ≤ 1 + s.cfg.writeRetries.toNat ∧ s'.control = .write a v m ret := by
  obtain ⟨j, hj, hc⟩ := (writeAttempts_spec ret a v _ s).2.2 s' h
  refine ⟨_, ?_, ?_, hc⟩ <;> simp only [attemptNumber] <;> omega

/-- A register read in progress: it works, raises no fault, and stands still only waiting for its answer. -/
theorem resumeRead_spec (ret : ReadRet) (a : Word) (s : State) :
    Worked s (resumeRead ret a s).state ∧ (resumeRead ret a s).state.fault = s.fault ∧
      (∀ s', resumeRead ret a s = .stop s' → s'.control = .read a ret) := by
  rcases h : s.readAnswers with _ | ⟨r, rs⟩
  · rw [resumeRead_held ret a s h]
    refine ⟨(Worked.refl s).setControl _, rfl, ?_⟩
    intro s' hs
    cases hs
    rfl
  · rw [resumeRead_answered ret a s r rs h]
    exact ⟨.after s _ [] _ [r] _ rfl h (by simp [isPortEvent]), rfl, by simp⟩

theorem readRegister_worked (ret : ReadRet) (a : Word) (s : State) :
    Worked s (readRegister ret a s).state ∧ (readRegister ret a s).state.fault = s.fault := by
  cases h : s.transport
  · rw [readRegister_noTransport ret a s h]
    exact ⟨.refl s, rfl⟩
  · rw [readRegister_transport ret a s h]
    exact ⟨(resumeRead_spec ret a s).1, (resumeRead_spec ret a s).2.1⟩

theorem readRegister_stop {ret : ReadRet} {a : Word} {s s' : State} (h : readRegister ret a s = .stop s') :
    s.transport = true ∧ s'.control = .read a ret := by
  cases ht : s.transport
  · rw [readRegister_noTransport ret a s ht] at h
    cases h
  · rw [readRegister_transport ret a s ht] at h
    exact ⟨rfl, (resumeRead_spec ret a s).2.2 s' h⟩

/-! ## Binding -/

/-- What holds of a unit's end state and of all that follows holds of both together. -/
theorem Run.bind_worked {α β : Type} {s : State} (x : Run α) (f : α → State → Run β)
    (hx : Worked s x.state ∧ x.state.fault = s.fault)
    (hf : ∀ r s', x = .done r s' → Worked s' (f r s').state ∧ (f r s').state.fault = s'.fault) :
    Worked s (x.bind f).state ∧ (x.bind f).state.fault = s.fault := by
  cases x with
  | stop s' => exact hx
  | done r s' => exact ⟨hx.1.trans (hf r s' rfl).1, (hf r s' rfl).2.trans hx.2⟩

theorem Run.bind_stop_cases {α β : Type} {x : Run α} {f : α → State → Run β} {s' : State} (h : x.bind f = .stop s') :
    x = .stop s' ∨ ∃ r t, x = .done r t ∧ f r t = .stop s' := by
  cases x with
  | stop t => cases h; exact .inl rfl
  | done r t => exact .inr ⟨r, t, rfl, h⟩

/-! ## The Status Poller -/

theorem pollAfterRead_spec (p : Poll) (r : ReadResult) (s : State) :
    ∃ it, pollAfterRead p r s = .done it s := by
  cases r with
  | ok x => by_cases h : x = p.req.expected <;> simp [pollAfterRead, h]
  | fail e => exact ⟨_, rfl⟩

theorem pollAfterWrite_worked (p : Poll) (r : WriteResult) (s : State) :
    Worked s (pollAfterWrite p r s).state ∧ (pollAfterWrite p r s).state.fault = s.fault := by
  cases r with
  | fail e => exact ⟨.refl s, rfl⟩
  | ok =>
    refine Run.bind_worked _ _ (readRegister_worked _ _ s) fun r' s' _ => ?_
    obtain ⟨it, h⟩ := pollAfterRead_spec p r' s'
    rw [h]
    exact ⟨.refl s', rfl⟩

theorem pollAfterWrite_stop {p : Poll} {r : WriteResult} {s s' : State} (h : pollAfterWrite p r s = .stop s') :
    s.transport = true ∧ s'.control = .read p.req.resultAddr (.result p) := by
  cases r with
  | fail e => cases h
  | ok =>
    rcases Run.bind_stop_cases h with h | ⟨r', t, -, h⟩
    · exact readRegister_stop h
    · obtain ⟨it, h'⟩ := pollAfterRead_spec p r' t
      rw [h'] at h
      cases h

/-- Where a poll stands still: in the selector write or the result read of one of its iterations, with a transport. -/
def PollHeld (s : State) (req : PollReq) (ret : PollRet) (from_ : Nat) (s' : State) : Prop :=
  s.transport = true ∧ ∃ p : Poll, p.req = req ∧ p.ret = ret ∧ from_ ≤ p.k ∧ p.k ≤ req.maxAttempts.toNat ∧
    ((∃ n, 1 ≤ n ∧ n ≤ 1 + s.cfg.writeRetries.toNat ∧
        s'.control = .write req.selAddr req.selValue n (.selector p)) ∨
      s'.control = .read req.resultAddr (.result p))

theorem pollIteration_worked (p : Poll) (s : State) :
    Worked s (pollIteration p s).state ∧ (pollIteration p s).state.fault = s.fault := by
  refine Run.bind_worked _ _ ?_ fun r s' _ => pollAfterWrite_worked p r s'
  have := writeRegister_worked (.selector p) p.req.selAddr p.req.selValue (s.sleep p.req.delayMs)
  exact ⟨(Worked.sleep s _).trans this.1, this.2⟩

theorem pollIteration_stop {p : Poll} {s s' : State} (hk : p.k ≤ p.req.maxAttempts.toNat)
    (h : pollIteration p s = .stop s') : PollHeld s p.req p.ret p.k s' := by
  rcases Run.bind_stop_cases h with h | ⟨r, t, h1, h2⟩
  · obtain ⟨ht, n, h1, h2, h3⟩ := writeRegister_stop h
    exact ⟨ht, p, rfl, rfl, le_rfl, hk, .inl ⟨n, h1, h2, h3⟩⟩
  · obtain ⟨ht, h3⟩ := pollAfterWrite_stop h2
    have hw := (writeRegister_worked (.selector p) p.req.selAddr p.req.selValue (s.sleep p.req.delayMs)).1
    rw [h1] at hw
    refine ⟨hw.session.transport.symm.trans ht, p, rfl, rfl, le_rfl, hk, .inr h3⟩

/-- A poll in progress works and raises no fault. -/
theorem pollLoop_worked (left : Nat) (p : Poll) (s : State) :
    Worked s (pollLoop left p s).state ∧ (pollLoop left p s).state.fault = s.fault := by
  induction left generalizing p s with
  | zero => exact ⟨.refl s, rfl⟩
  | succ n ih =>
    have h1 := pollIteration_worked p s
    rw [pollLoop]
    rcases h : pollIteration p s with ⟨it, s'⟩ | s' <;> rw [h] at h1
    · cases it with
      | converged v => exact h1
      | again last =>
        have h2 := ih (nextIteration p last) s'
        exact ⟨h1.1.trans h2.1, h2.2.trans h1.2⟩
    · exact h1

/-- A poll stands still only in one of its iterations (10_state.md R44). -/
theorem pollLoop_stop {left : Nat} {p : Poll} {s s' : State} (hk : p.k + left = p.req.maxAttempts.toNat + 1)
    (h : pollLoop left p s = .stop s') : PollHeld s p.req p.ret p.k s' := by
  induction left generalizing p s with
  | zero => cases h
  | succ n ih =>
    rw [pollLoop] at h
    rcases h1 : pollIteration p s with ⟨it, t⟩ | t <;> rw [h1] at h
    · cases it with
      | converged v => cases h
      | again last =>
        have hw := (pollIteration_worked p s).1
        rw [h1] at hw
        obtain ⟨ht, q, hq1, hq2, hq3, hq4, hq5⟩ := ih (p := nextIteration p last) (by simp [nextIteration]; omega) h
        refine ⟨hw.session.transport.symm.trans ht, q, hq1, hq2, ?_, hq4, ?_⟩
        · simp [nextIteration] at hq3
          omega
        · have hcfg : t.cfg = s.cfg := hw.extended.cfg
          rw [hcfg] at hq5
          exact hq5
    · cases h
      exact pollIteration_stop (by omega) h1

theorem pollStatus_worked (req : PollReq) (ret : PollRet) (s : State) :
    Worked s (pollStatus req ret s).state ∧ (pollStatus req ret s).state.fault = s.fault :=
  pollLoop_worked _ _ s

theorem pollStatus_stop {req : PollReq} {ret : PollRet} {s s' : State} (h : pollStatus req ret s = .stop s') :
    PollHeld s req ret 1 s' :=
  pollLoop_stop (by simp; omega) h

theorem pollContinue_worked (p : Poll) (r : Iteration) (s : State) :
    Worked s (pollContinue p r s).state ∧ (pollContinue p r s).state.fault = s.fault := by
  cases r with
  | converged v => exact ⟨.refl s, rfl⟩
  | again last => exact pollLoop_worked _ _ s

theorem pollContinue_stop {p : Poll} {r : Iteration} {s s' : State} (hk : p.k ≤ p.req.maxAttempts.toNat)
    (h : pollContinue p r s = .stop s') : PollHeld s p.req p.ret (p.k + 1) s' := by
  cases r with
  | converged v => cases h
  | again last => exact pollLoop_stop (p := nextIteration p last) (by simp [nextIteration]; omega) h

/-- What an iteration that is answered comes to (41_status_poller.md R170, R172 to R175). -/
theorem pollIteration_answered (p : Poll) (s : State) (x : IterationAnswers) (ws : List WriteAnswer)
    (rs : List ReadAnswer) (ht : s.transport = true) (hf : iterationFits s.cfg x)
    (hw : s.writeAnswers = iterationWrites s.cfg x ++ ws) (hr : s.readAnswers = iterationReads x ++ rs) :
    pollIteration p s =
      .done (if iterationValue x = some p.req.expected then .converged p.req.expected
        else .again ((iterationValue x).or p.last)) (s.after (iterationEvents s.cfg p.req x) ws rs) := by
  rcases x with _ | ⟨j, r⟩
  · rw [pollIteration, writeRegister_transport _ _ _ _ (by simpa using ht),
      writeAttempts_failed _ _ _ _ _ ws (by simpa [iterationWrites, failingAnswers] using hw)]
    simp only [iterationReads, List.nil_append] at hr
    simp [pollAfterWrite, iterationValue, iterationEvents, State.sleep_eq_after, failedWrite, hr]
  · rw [pollIteration, writeRegister_transport _ _ _ _ (by simpa using ht),
      writeAttempts_acked _ _ _ j (s.sleep p.req.delayMs).cfg.writeRetries.toNat _ ws hf (by simpa [iterationWrites] using hw)]
    simp only [Run.bind_done, pollAfterWrite]
    rw [readRegister_transport _ _ _ (by simpa using ht), resumeRead_answered _ _ _ r rs (by simpa [iterationReads] using hr)]
    simp only [Run.bind_done]
    cases r with
    | nak => simp [readOutcome, pollAfterRead, readValue, iterationValue, iterationEvents, State.sleep_eq_after]
    | ack d0 d1 =>
      by_cases h : be16 d0 d1 = p.req.expected <;>
        simp [readOutcome, pollAfterRead, readValue, iterationValue, iterationEvents, State.sleep_eq_after, h]

/-- Iterations that read anything but the expected value: the loop goes on behind them, with the last value read. -/
theorem pollLoop_misses (p : Poll) (n : Nat) (s : State) (its : List IterationAnswers) (ws : List WriteAnswer)
    (rs : List ReadAnswer) (ht : s.transport = true) (hm : misses s.cfg p.req.expected its)
    (hw : s.writeAnswers = pollWrites s.cfg its ++ ws) (hr : s.readAnswers = pollReads its ++ rs) :
    pollLoop (its.length + n) p s =
      pollLoop n { p with k := p.k + its.length, last := (lastRead its).or p.last }
        (s.after (pollEvents s.cfg p.req its) ws rs) := by
  induction its generalizing p s with
  | nil =>
    simp only [pollWrites, pollReads, List.flatMap_nil, List.nil_append] at hw hr
    simp [pollEvents, lastRead, ← hw, ← hr, State.after_nil]
  | cons x its ih =>
    simp only [pollWrites, pollReads, List.flatMap_cons, List.append_assoc] at hw hr
    obtain ⟨hf, hv⟩ := hm x (List.mem_cons_self ..)
    rw [List.length_cons, Nat.succ_add, Nat.succ_eq_add_one, pollLoop,
      pollIteration_answered p s x _ _ ht hf hw hr, if_neg hv]
    simp only
    rw [ih (nextIteration p ((iterationValue x).or p.last)) (s.after (iterationEvents s.cfg p.req x) _ _)
      (by simpa using ht) (fun y hy => hm y (List.mem_cons_of_mem _ hy)) (by simp [pollWrites]) (by simp [pollReads])]
    have hlast : (lastRead its).or ((iterationValue x).or p.last) = (lastRead (x :: its)).or p.last := by
      unfold lastRead
      cases hv : iterationValue x with
      | none => simp [hv]
      | some y =>
        simp only [List.filterMap_cons, hv, List.getLast?_cons, Option.some_or]
        cases h2 : (its.filterMap iterationValue).getLast? <;> simp
    simp [nextIteration, hlast, pollEvents, Nat.add_assoc, Nat.add_comm 1]

/-- A poll converges at the first iteration that produces the expected value (41_status_poller.md R178). -/
theorem pollStatus_hit (req : PollReq) (ret : PollRet) (s : State) (its : List IterationAnswers) (x : IterationAnswers)
    (ws : List WriteAnswer) (rs : List ReadAnswer) (ht : s.transport = true) (hm : misses s.cfg req.expected its)
    (hx : hits s.cfg req.expected x) (hl : its.length < req.maxAttempts.toNat)
    (hw : s.writeAnswers = pollWrites s.cfg (its ++ [x]) ++ ws) (hr : s.readAnswers = pollReads (its ++ [x]) ++ rs) :
    pollStatus req ret s =
      .done (.converged req.expected) (s.after (pollEvents s.cfg req (its ++ [x])) ws rs) := by
  obtain ⟨n, hn⟩ := Nat.exists_eq_add_of_lt hl
  rw [pollStatus, hn, Nat.add_assoc,
    pollLoop_misses ⟨req, 1, none, ret⟩ (n + 1) s its (iterationWrites s.cfg x ++ ws) (iterationReads x ++ rs) ht hm
      (by simpa [pollWrites] using hw) (by simpa [pollReads] using hr),
    pollLoop, pollIteration_answered _ (s.after (pollEvents s.cfg req its) _ _) x ws rs (by simpa using ht) hx.1
      (by simp) (by simp), if_pos hx.2]
  simp [pollEvents]

/-- A poll whose budget passes without the expected value times out with the last value read (41_status_poller.md R177). -/
theorem pollStatus_miss (req : PollReq) (ret : PollRet) (s : State) (its : List IterationAnswers)
    (ws : List WriteAnswer) (rs : List ReadAnswer) (ht : s.transport = true) (hm : misses s.cfg req.expected its)
    (hl : its.length = req.maxAttempts.toNat)
    (hw : s.writeAnswers = pollWrites s.cfg its ++ ws) (hr : s.readAnswers = pollReads its ++ rs) :
    pollStatus req ret s = .done (.timeout (lastRead its)) (s.after (pollEvents s.cfg req its) ws rs) := by
  rw [pollStatus, ← hl, ← Nat.add_zero its.length, pollLoop_misses _ 0 s its ws rs ht hm hw hr, pollLoop]
  simp

/-- Without a transport every iteration sleeps and is skipped (41_status_poller.md R172). -/
theorem pollLoop_noTransport (n : Nat) (p : Poll) (s : State) (ht : s.transport = false) :
    pollLoop n p s = .done (.timeout p.last)
      (s.after (List.replicate n (.sleep p.req.delayMs)) s.writeAnswers s.readAnswers) := by
  induction n generalizing p s with
  | zero => simp [pollLoop, State.after_nil]
  | succ n ih =>
    rw [pollLoop, pollIteration, writeRegister_noTransport _ _ _ _ (by simpa using ht)]
    simp only [Run.bind_done, pollAfterWrite]
    rw [ih _ _ (by simpa using ht)]
    simp [nextIteration, State.sleep_eq_after, List.replicate_succ]

/-! ## The Table Interpreter -/

theorem entryWr_worked (t : TableId) (i : Nat) (ret : TableRet) (a v : Word) (s : State) :
    Worked s (entryWr t i ret a v s).state ∧ (entryWr t i ret a v s).state.fault = s.fault :=
  Run.bind_worked _ _ (writeRegister_worked _ _ _ s) fun _ s' _ => ⟨.refl s', rfl⟩

theorem entryWr_stop {t : TableId} {i : Nat} {ret : TableRet} {a v : Word} {s s' : State}
    (h : entryWr t i ret a v s = .stop s') :
    s.transport = true ∧ ∃ n, 1 ≤ n ∧ n ≤ 1 + s.cfg.writeRetries.toNat ∧ s'.control = .write a v n (.entry t i ret) := by
  rcases Run.bind_stop_cases h with h | ⟨r, u, -, h⟩
  · exact writeRegister_stop h
  · cases h

theorem runEntry_worked (t : TableId) (i : Nat) (ret : TableRet) (e : Entry) (s : State) :
    Worked s (runEntry t i ret e s).state ∧ (runEntry t i ret e s).state.fault = s.fault := by
  unfold runEntry
  split
  · exact ⟨Worked.sleep s _, rfl⟩
  · exact ⟨.refl s, rfl⟩
  · exact entryWr_worked t i ret _ _ s

/-- Where a table stands still: in the write of one of its entries, with a transport, or at its end with a fault. -/
def TableHeld (s : State) (t : TableId) (ret : TableRet) (s' : State) : Prop :=
  (s.transport = true ∧ s'.fault = s.fault ∧ ∃ i a v n, 1 ≤ n ∧ n ≤ 1 + s.cfg.writeRetries.toNat ∧
      s'.control = .write a v n (.entry t i ret)) ∨
    (∃ i, s'.control = .table t i ret ∧ (s'.fault = some .tableOverrun ∨ s'.fault = some .noTable))

theorem runEntry_stop {t : TableId} {i : Nat} {ret : TableRet} {e : Entry} {s s' : State}
    (h : runEntry t i ret e s = .stop s') : TableHeld s t ret s' := by
  have hf := (runEntry_worked t i ret e s).2
  rw [h] at hf
  unfold runEntry at h
  split at h
  · cases h
  · cases h
  · obtain ⟨ht, n, h1, h2, h3⟩ := entryWr_stop h
    exact .inl ⟨ht, hf, i, _, _, n, h1, h2, h3⟩

/-- A table in progress works. -/
theorem tableLoop_worked (t : TableId) (ret : TableRet) (es : List Entry) (i : Nat) (s : State) :
    Worked s (tableLoop t ret es i s).state := by
  induction es generalizing i s with
  | nil => exact ((Worked.refl s).setControl _).raiseFault _
  | cons e es ih =>
    have h1 := (runEntry_worked t i ret e s).1
    rw [tableLoop]
    rcases h : runEntry t i ret e s with ⟨r, s'⟩ | s' <;> rw [h] at h1
    · cases r with
      | goOn => exact h1.trans (ih (i + 1) s')
      | finished => exact h1
      | failed c => exact h1
    · exact h1

/-- A table that returns a result has raised no fault. -/
theorem tableLoop_done {t : TableId} {ret : TableRet} {es : List Entry} {i : Nat} {s s' : State} {r : TableResult}
    (h : tableLoop t ret es i s = .done r s') : s'.fault = s.fault := by
  induction es generalizing i s with
  | nil => cases h
  | cons e es ih =>
    have h1 := (runEntry_worked t i ret e s).2
    rw [tableLoop] at h
    rcases h2 : runEntry t i ret e s with ⟨q, u⟩ | u <;> rw [h2] at h h1
    · cases q with
      | goOn => exact (ih h).trans h1
      | finished => cases h; exact h1
      | failed c => cases h; exact h1
    · cases h

theorem tableLoop_stop {t : TableId} {ret : TableRet} {es : List Entry} {i : Nat} {s s' : State}
    (h : tableLoop t ret es i s = .stop s') : TableHeld s t ret s' := by
  induction es generalizing i s with
  | nil =>
    cases h
    exact .inr ⟨i, rfl, .inl rfl⟩
  | cons e es ih =>
    have h1 := runEntry_worked t i ret e s
    rw [tableLoop] at h
    rcases h2 : runEntry t i ret e s with ⟨q, u⟩ | u <;> rw [h2] at h h1
    · cases q with
      | goOn =>
        have hcfg : u.cfg = s.cfg := h1.1.extended.cfg
        have htr : u.transport = s.transport := h1.1.session.transport
        have hf : u.fault = s.fault := h1.2
        rcases ih h with ⟨ht, h3, h4⟩ | h3
        · exact .inl ⟨htr.symm.trans ht, h3.trans hf, hcfg ▸ h4⟩
        · exact .inr h3
      | finished => cases h
      | failed c => cases h
    · cases h
      exact runEntry_stop h2

theorem applyTable_worked (t : TableId) (ret : TableRet) (s : State) : Worked s (applyTable t ret s).state := by
  unfold applyTable
  split
  · exact ((Worked.refl s).setControl _).raiseFault _
  · exact tableLoop_worked t ret _ 0 s

theorem applyTable_done {t : TableId} {ret : TableRet} {s s' : State} {r : TableResult}
    (h : applyTable t ret s = .done r s') : s'.fault = s.fault := by
  unfold applyTable at h
  split at h
  · cases h
  · exact tableLoop_done h

theorem applyTable_stop {t : TableId} {ret : TableRet} {s s' : State} (h : applyTable t ret s = .stop s') :
    TableHeld s t ret s' := by
  unfold applyTable at h
  split at h
  · cases h
    exact .inr ⟨0, rfl, .inr rfl⟩
  · exact tableLoop_stop h

/-! ### With every write acknowledged -/

/-- Entries that are no END, each write acknowledged within its budget: the table goes on behind them
(42_table_interpreter.md R200, R208). -/
theorem tableLoop_acked (t : TableId) (ret : TableRet) (xs : List (Entry × Nat)) (rest : List Entry) (i : Nat) (s : State)
    (ws : List WriteAnswer) (ht : s.transport = true) (hx : entriesFit s.cfg xs)
    (hw : s.writeAnswers = tableWrites s.cfg xs ++ ws) :
    tableLoop t ret (xs.map Prod.fst ++ rest) i s =
      tableLoop t ret rest (i + xs.length) (s.after (tableEvents s.cfg xs) ws s.readAnswers) := by
  induction xs generalizing i s with
  | nil =>
    simp only [tableWrites, List.flatMap_nil, List.nil_append] at hw
    simp [tableEvents, ← hw, State.after_nil]
  | cons x xs ih =>
    have hrest : entriesFit s.cfg xs := fun y hy => hx y (List.mem_cons_of_mem _ hy)
    obtain ⟨hkind, hfit⟩ := hx x (List.mem_cons_self ..)
    simp only [tableWrites, List.flatMap_cons, List.append_assoc] at hw
    rw [List.map_cons, List.cons_append, tableLoop, runEntry]
    cases hk : entryKind s.cfg x.1 with
    | endTable => exact absurd hk hkind
    | wait =>
      simp only [entryWait]
      rw [ih (i + 1) (s.sleep (waitMs x.1.value)) (by simpa using ht) (by simpa using hrest)
        (by simpa [entryWrites, hk, tableWrites] using hw)]
      simp [State.sleep_eq_after, tableEvents, entryEvents, hk, Nat.add_assoc, Nat.add_comm 1]
    | wr =>
      simp only [entryWr]
      rw [writeRegister_transport _ _ _ _ ht, writeAttempts_acked _ _ _ x.2 _ _ _ hfit
        (by simpa [entryWrites, hk] using hw)]
      simp only [Run.bind_done, afterEntryWrite]
      rw [ih (i + 1) _ (by simpa using ht) (by simpa using hrest) (by simp [tableWrites])]
      simp [tableEvents, entryEvents, hk, Nat.add_assoc, Nat.add_comm 1]

/-- A table whose writes are all acknowledged ends with `Ok` at its END (42_table_interpreter.md R203, R208). -/
theorem applyTable_acked (t : TableId) (ret : TableRet) (xs : List (Entry × Nat)) (s : State) (ws : List WriteAnswer)
    (ht : s.transport = true) (hb : tableBody s.cfg t (xs.map Prod.fst)) (hx : entriesFit s.cfg xs)
    (hw : s.writeAnswers = tableWrites s.cfg xs ++ ws) :
    applyTable t ret s = .done .ok (s.after (tableEvents s.cfg xs) ws s.readAnswers) := by
  obtain ⟨-, stop, rest, hs, ht'⟩ := hb
  rw [applyTable, ht']
  simp only
  rw [tableLoop_acked t ret xs _ 0 s ws ht hx hw, tableLoop, runEntry]
  simp [hs, entryEnd]

/-- A table whose writes are acknowledged up to a WR entry that fails all its attempts (42_table_interpreter.md R205). -/
theorem applyTable_failed (t : TableId) (ret : TableRet) (xs : List (Entry × Nat)) (e : Entry) (s : State)
    (ws : List WriteAnswer) (ht : s.transport = true) (hb : tableReaches s.cfg t (xs.map Prod.fst) e)
    (hx : entriesFit s.cfg xs) (hw : s.writeAnswers = tableWrites s.cfg xs ++ (failingAnswers s.cfg ++ ws)) :
    applyTable t ret s = .done (.writeError xs.length .transferError)
      (s.after (tableEvents s.cfg xs ++ failedWrite s.cfg e.addr e.value) ws s.readAnswers) := by
  obtain ⟨-, hs, rest, ht'⟩ := hb
  rw [applyTable, ht']
  simp only
  rw [tableLoop_acked t ret xs _ 0 s _ ht hx hw, tableLoop, runEntry]
  simp only [State.after_cfg, hs, entryWr]
  rw [writeRegister_transport _ _ _ _ (by simpa using ht), State.after_cfg,
    writeAttempts_failed _ _ _ _ _ ws (by simp [failingAnswers])]
  simp [afterEntryWrite, failedWrite]

/-- WAIT entries run with or without a transport (42_table_interpreter.md R202, R210). -/
theorem tableLoop_waits (t : TableId) (ret : TableRet) (es rest : List Entry) (i : Nat) (s : State)
    (hk : ∀ e ∈ es, entryKind s.cfg e = .wait) :
    tableLoop t ret (es ++ rest) i s =
      tableLoop t ret rest (i + es.length)
        (s.after (tableEvents s.cfg (atOnce es)) s.writeAnswers s.readAnswers) := by
  induction es generalizing i s with
  | nil => simp [tableEvents, atOnce, State.after_nil]
  | cons e es ih =>
    have he := hk e (List.mem_cons_self ..)
    rw [List.cons_append, tableLoop, runEntry]
    simp only [he, entryWait]
    rw [ih (i + 1) (s.sleep (waitMs e.value)) fun x hx => hk x (List.mem_cons_of_mem _ hx)]
    simp [State.sleep_eq_after, tableEvents, atOnce, entryEvents, he, Nat.add_assoc, Nat.add_comm 1]

/-! ## A table and a poll, however they are answered -/

/-- What a table does depends on the transport and the configuration alone. -/
theorem tableDoes_congr {s u : State} (ht : u.transport = s.transport) (hc : u.cfg = s.cfg) (t : TableId)
    (evs : List Event) (ws : List WriteAnswer) (r : TableResult) : tableDoes u t evs ws r ↔ tableDoes s t evs ws r := by
  simp only [tableDoes, ht, hc]

/-- The same of a poll. -/
theorem pollDoes_congr {s u : State} (ht : u.transport = s.transport) (hc : u.cfg = s.cfg) (q : PollReq)
    (evs : List Event) (ws : List WriteAnswer) (rs : List ReadAnswer) (o : PollOutcome) :
    pollDoes u q evs ws rs o ↔ pollDoes s q evs ws rs o := by
  simp only [pollDoes, ht, hc]

theorem waits_events (c : Cfg) (es : List Entry) (h : ∀ x ∈ es, entryKind c x = .wait) :
    tableEvents c (atOnce es) = es.map fun x => .sleep (waitMs x.value) := by
  induction es with
  | nil => rfl
  | cons e es ih =>
    have hes := ih fun x hx => h x (List.mem_cons_of_mem _ hx)
    simp only [tableEvents, atOnce, List.map_cons, List.flatMap_cons] at hes ⊢
    simp [hes, entryEvents, h e (List.mem_cons_self ..)]

/-- `tableDoes` says what `applyTable` does. -/
theorem applyTable_does {s : State} {t : TableId} {evs : List Event} {used : List WriteAnswer} {r : TableResult}
    (h : tableDoes s t evs used r) (ret : TableRet) (ws : List WriteAnswer) (hw : s.writeAnswers = used ++ ws) :
    applyTable t ret s = .done r (s.after evs ws s.readAnswers) := by
  rcases h with ⟨ht, xs, hx, ⟨rfl, hb, rfl, rfl⟩ | ⟨e, rfl, hb, rfl, rfl⟩⟩ | ⟨ht, rfl, es, hk, rfl, h⟩
  · exact applyTable_acked t ret xs s ws ht hb hx hw
  · exact applyTable_failed t ret xs e s ws ht hb hx (by simpa using hw)
  · simp only [List.nil_append] at hw
    rcases h with ⟨rfl, -, stop, rest, hs, hr⟩ | ⟨e, rfl, -, hs, rest, hr⟩
    · rw [applyTable, hr]
      simp only
      rw [tableLoop_waits _ _ _ _ _ _ hk, tableLoop, runEntry]
      simp [hs, entryEnd, waits_events _ _ hk, hw]
    · rw [applyTable, hr]
      simp only
      rw [tableLoop_waits _ _ _ _ _ _ hk, tableLoop, runEntry]
      simp only [State.after_cfg, hs, entryWr]
      rw [writeRegister_noTransport _ _ _ _ (by simpa using ht)]
      simp [afterEntryWrite, waits_events _ _ hk, hw]

/-- `pollDoes` says what `pollStatus` does. -/
theorem pollStatus_does {s : State} {q : PollReq} {evs : List Event} {usedW : List WriteAnswer} {usedR : List ReadAnswer}
    {o : PollOutcome} (h : pollDoes s q evs usedW usedR o) (ret : PollRet) (ws : List WriteAnswer) (rs : List ReadAnswer)
    (hw : s.writeAnswers = usedW ++ ws) (hr : s.readAnswers = usedR ++ rs) :
    pollStatus q ret s = .done o (s.after evs ws rs) := by
  rcases h with ⟨ht, its, hm, ⟨x, hx, hl, rfl, rfl, rfl, rfl⟩ | ⟨hl, rfl, rfl, rfl, rfl⟩⟩ | ⟨ht, rfl, rfl, rfl, rfl⟩
  · exact pollStatus_hit q ret s its x ws rs ht hm hx hl hw hr
  · exact pollStatus_miss q ret s its ws rs ht hm hl hw hr
  · simp only [List.nil_append] at hw hr
    rw [pollStatus, pollLoop_noTransport _ _ _ ht, hw, hr]

/-- A poll that converges returns the expected value (41_status_poller.md R175). -/
theorem pollDoes_converged {s : State} {q : PollReq} {evs : List Event} {ws : List WriteAnswer} {rs : List ReadAnswer}
    {v : Word} (h : pollDoes s q evs ws rs (.converged v)) : v = q.expected := by
  rcases h with ⟨-, its, -, ⟨x, -, -, h, -⟩ | ⟨-, h, -⟩⟩ | ⟨-, -, -, h, -⟩ <;> cases h
  rfl

end Sys2Proof.Machine
end

