-- ==== Sys2Proof/Laws/Dispatch.lean ====
section
/-! SUPPORT. The dispatch of commands, requests and entries: when each accepts, and all that each can do (44_control_surface.md R280,
60_exceptions.md R334, 42_table_interpreter.md R200). -/

namespace Sys2Proof.Machine

theorem harnessRequest_ready {i : Instr} {run : State → State} {s : State} (h : ready s) :
    harnessRequest i run s = .next (run (s.accept i)) := by
  simp [harnessRequest, h.1, h.2]

theorem hostCommand_ready {i : Instr} {run : State → State} {s : State} (h : readyInSession s) (hi : i ≠ .openSession) :
    hostCommand i run s = .next (run (s.accept i)) := by
  simp [hostCommand, h.1.1, h.1.2, sessionFault, hi, h.2]

/-- A command that needs a session and passed the session check has one. -/
theorem sessionOpen_of_sessionFault {i : Instr} {s : State} (hi : i ≠ .openSession) (h : sessionFault i s = none) :
    s.sessionOpen = true := by
  cases ho : s.sessionOpen <;> simp [sessionFault, hi, ho] at h ⊢

/-- All a host command can do: nothing, a dispatch fault, or its run. -/
theorem hostCommand_cases {i : Instr} {run : State → State} {s t : State} (h : hostCommand i run s = .next t) :
    s.fault = none ∧
      ((s.busy = true ∧ t = s.raiseFault .reentry) ∨
        (s.busy = false ∧
          ((∃ f, t = s.raiseFault f ∧ sessionFault i s = some f) ∨
            (sessionFault i s = none ∧ t = run (s.accept i))))) := by
  unfold hostCommand at h
  cases hf : s.fault with
  | some f => simp [hf] at h
  | none =>
    refine ⟨rfl, ?_⟩
    cases hb : s.busy with
    | true =>
      simp [hf, hb] at h
      exact .inl ⟨rfl, h.symm⟩
    | false =>
      refine .inr ⟨rfl, ?_⟩
      cases hs : sessionFault i s with
      | some f =>
        simp [hf, hb, hs] at h
        exact .inl ⟨f, h.symm, rfl⟩
      | none =>
        simp [hf, hb, hs] at h
        exact .inr ⟨rfl, h.symm⟩

/-- All a harness request can do. -/
theorem harnessRequest_cases {i : Instr} {run : State → State} {s t : State} (h : harnessRequest i run s = .next t) :
    s.fault = none ∧ ((s.busy = true ∧ t = s.raiseFault .reentry) ∨ (s.busy = false ∧ t = run (s.accept i))) := by
  unfold harnessRequest at h
  cases hf : s.fault with
  | some f => simp [hf] at h
  | none =>
    refine ⟨rfl, ?_⟩
    cases hb : s.busy with
    | true =>
      simp [hf, hb] at h
      exact .inl ⟨rfl, h.symm⟩
    | false =>
      simp [hf, hb] at h
      exact .inr ⟨rfl, h.symm⟩

/-- An entry runs only at the cursor of a table. -/
theorem atEntry_cases {run : TableId → Nat → TableRet → State → State} {s t : State} (h : atEntry run s = .next t) :
    s.fault = none ∧ ∃ k i ret, s.control = .table k i ret ∧ t = run k i ret s := by
  unfold atEntry at h
  cases hf : s.fault with
  | some f => simp [hf] at h
  | none =>
    refine ⟨rfl, ?_⟩
    cases hc : s.control <;> simp [hf, hc] at h
    exact ⟨_, _, _, rfl, h.symm⟩

end Sys2Proof.Machine
end

