-- ==== Sys2Proof/Laws/PerInstr.lean ====
section
/-! SUPPORT. Statements made per instruction. -/

namespace Sys2Proof.Laws.FrameLength

open Sys2Proof.Machine

/-- A command's code is a frame on the port its opcode belongs to, of exactly the length that opcode has; an entry's code is a
word (30_encoding.md R100, R104, R105). -/
def Statement (i : Instr) : Prop :=
  ∀ c : Cfg,
    if isCommand i then
      ∃ p op rest, encode c i = .frame p (op :: rest) ∧ rest.length + 1 = frameLength op ∧
        isHostOpcode op = (p == .host) ∧ isInternalOpcode op = (p == .internal)
    else ∃ w, encode c i = .entry w

theorem openSession : Statement .openSession := fun _ => ⟨_, _, _, rfl, rfl, rfl, rfl⟩
theorem closeSession : Statement .closeSession := fun _ => ⟨_, _, _, rfl, rfl, rfl, rfl⟩
theorem setMode (w h : Long) : Statement (.setMode w h) := fun _ => ⟨_, _, _, rfl, rfl, rfl, rfl⟩
theorem getStatus : Statement .getStatus := fun _ => ⟨_, _, _, rfl, rfl, rfl, rfl⟩
theorem setEffect (item value : Long) : Statement (.setEffect item value) := fun _ => ⟨_, _, _, rfl, rfl, rfl, rfl⟩
theorem readReg (a : Word) : Statement (.readReg a) := fun _ => ⟨_, _, _, rfl, rfl, rfl, rfl⟩
theorem writeReg (a v : Word) : Statement (.writeReg a v) := fun _ => ⟨_, _, _, rfl, rfl, rfl, rfl⟩
theorem pollStatus (sa sv ra e : Word) (d n : Long) : Statement (.pollStatus sa sv ra e d n) :=
  fun _ => ⟨_, _, _, rfl, rfl, rfl, rfl⟩
theorem applyTable (t : TableId) : Statement (.applyTable t) := fun _ => ⟨_, _, _, rfl, rfl, rfl, rfl⟩
theorem wr (a v : Word) : Statement (.wr a v) := fun _ => ⟨_, rfl⟩
theorem wait (ms : Word) : Statement (.wait ms) := fun _ => ⟨_, rfl⟩
theorem endTable (x : Word) : Statement (.endTable x) := fun _ => ⟨_, rfl⟩

end Sys2Proof.Laws.FrameLength
end

