-- ==== Sys2Proof/Laws/Sequencer.lean ====
section
/-! SUPPORT. The Mode/Effect Sequencer: what each of its steps does when its transactions are answered, and all that the callers of
a table and of a poll can do, said once (43_mode_effect.md). -/

namespace Sys2Proof.Machine

/-! ## The steps of SET_MODE, answered -/

theorem resolve_self (m : ModeId) : resolve (modeWidth m) (modeHeight m) = some m := by
  cases m <;> decide

theorem runModePoll_hit (l : Latch) (s : State) (its : List IterationAnswers) (x : IterationAnswers)
    (ws : List WriteAnswer) (rs : List ReadAnswer) (ht : s.transport = true)
    (hm : misses s.cfg (expectedFor s.cfg l.m) its) (hx : hits s.cfg (expectedFor s.cfg l.m) x)
    (hl : its.length < s.cfg.modePollAttempts.toNat) (hw : s.writeAnswers = pollWrites s.cfg (its ++ [x]) ++ ws)
    (hr : s.readAnswers = pollReads (its ++ [x]) ++ rs) :
    runModePoll l s =
      ((s.after (pollEvents s.cfg (modePollReq s.cfg l.m) (its ++ [x])) ws rs).commitMode l.m).finish .ok := by
  rw [runModePoll, pollStatus_hit (modePollReq s.cfg l.m) _ s its x ws rs ht hm hx hl hw hr]
  rfl

theorem runModePoll_miss (l : Latch) (s : State) (its : List IterationAnswers) (ws : List WriteAnswer)
    (rs : List ReadAnswer) (ht : s.transport = true) (hm : misses s.cfg (expectedFor s.cfg l.m) its)
    (hl : its.length = s.cfg.modePollAttempts.toNat) (hw : s.writeAnswers = pollWrites s.cfg its ++ ws)
    (hr : s.readAnswers = pollReads its ++ rs) :
    runModePoll l s =
      (s.after (pollEvents s.cfg (modePollReq s.cfg l.m) its) ws rs).finish (.fail (.pollTimeout (lastRead its))) := by
  rw [runModePoll, pollStatus_miss (modePollReq s.cfg l.m) _ s its ws rs ht hm hl hw hr]
  rfl

theorem runModeTable_acked (l : Latch) (s : State) (xs : List (Entry × Nat)) (ws : List WriteAnswer)
    (ht : s.transport = true) (hb : tableBody s.cfg (tMode s.cfg l.m) (xs.map Prod.fst)) (hx : entriesFit s.cfg xs)
    (hw : s.writeAnswers = tableWrites s.cfg xs ++ ws) :
    runModeTable l s = runPreviewTable l (s.after (tableEvents s.cfg xs) ws s.readAnswers) := by
  rw [runModeTable, applyTable_acked _ _ xs s ws ht hb hx hw]
  rfl

theorem runInitTable_acked (l : Latch) (s : State) (xs : List (Entry × Nat)) (ws : List WriteAnswer)
    (ht : s.transport = true) (hb : tableBody s.cfg s.cfg.tInit (xs.map Prod.fst)) (hx : entriesFit s.cfg xs)
    (hw : s.writeAnswers = tableWrites s.cfg xs ++ ws) :
    runInitTable l s = runInitPoll l (s.after (tableEvents s.cfg xs) ws s.readAnswers) := by
  rw [runInitTable, applyTable_acked _ _ xs s ws ht hb hx hw]
  rfl

theorem runInitPoll_hit (l : Latch) (s : State) (its : List IterationAnswers) (x : IterationAnswers)
    (ws : List WriteAnswer) (rs : List ReadAnswer) (ht : s.transport = true) (hm : misses s.cfg s.cfg.initExpect its)
    (hx : hits s.cfg s.cfg.initExpect x) (hl : its.length < s.cfg.initPollAttempts.toNat)
    (hw : s.writeAnswers = pollWrites s.cfg (its ++ [x]) ++ ws) (hr : s.readAnswers = pollReads (its ++ [x]) ++ rs) :
    runInitPoll l s = runModeTable l (s.after (pollEvents s.cfg (initPollReq s.cfg) (its ++ [x])) ws rs) := by
  rw [runInitPoll, pollStatus_hit (initPollReq s.cfg) _ s its x ws rs ht hm hx hl hw hr]
  rfl

theorem runInitPoll_miss (l : Latch) (s : State) (its : List IterationAnswers) (ws : List WriteAnswer)
    (rs : List ReadAnswer) (ht : s.transport = true) (hm : misses s.cfg s.cfg.initExpect its)
    (hl : its.length = s.cfg.initPollAttempts.toNat) (hw : s.writeAnswers = pollWrites s.cfg its ++ ws)
    (hr : s.readAnswers = pollReads its ++ rs) :
    runInitPoll l s =
      afterInitPoll l (.timeout (lastRead its)) (s.after (pollEvents s.cfg (initPollReq s.cfg) its) ws rs) := by
  rw [runInitPoll, pollStatus_miss (initPollReq s.cfg) _ s its ws rs ht hm hl hw hr]
  rfl

/-! ## All that running work can do -/

/-- Where a command or its continuation can have come to: it delivered a result of the kind `P`, writing the session only if it
is a SET_MODE to `m` that ended with `Ok`; or it stands at a position that fits the state (10_state.md R38, R48;
43_mode_effect.md R248; 44_control_surface.md R281). -/
structure Advanced (m : Option ModeId) (P : Result → Prop) (s t : State) : Prop where
  extended    : Extends s t
  sessionOpen : t.sessionOpen = s.sessionOpen
  transport   : t.transport = s.transport
  outcome     : ∃ evs, (∀ e ∈ evs, isPortEvent e = false) ∧
    ((∃ r, t.trace = s.trace ++ (evs ++ [.result r]) ∧ t.busy = false ∧ t.control = .idle ∧ t.fault = s.fault ∧ P r ∧
        ((t.initialized = s.initialized ∧ t.mode = s.mode) ∨
          (r = .ok ∧ m ≠ none ∧ t.initialized = true ∧ t.mode = m))) ∨
      (t.trace = s.trace ++ evs ∧ t.busy = s.busy ∧ t.initialized = s.initialized ∧ t.mode = s.mode ∧
        t.control ≠ .idle ∧ controlOk t t.control))

theorem isHostResult.writeError (k : Nat) (c : BusError) : isHostResult (.fail (.writeError k c)) :=
  .inr (.inr (.inr (.inl ⟨k, c, rfl⟩)))

theorem isHostResult.pollTimeout (last : Option Word) : isHostResult (.fail (.pollTimeout last)) :=
  .inr (.inr (.inr (.inr ⟨last, rfl⟩)))

/-- A unit's work and then the rest. -/
theorem Advanced.before {m : Option ModeId} {P : Result → Prop} {s u t : State} (h : Worked s u)
    (hf : u.fault = s.fault) (k : Advanced m P u t) : Advanced m P s t := by
  obtain ⟨e1, h1, p1⟩ := h.unitOnly
  refine ⟨h.extended.trans k.extended, k.sessionOpen.trans h.session.sessionOpen,
    k.transport.trans h.session.transport, ?_⟩
  obtain ⟨e2, p2, hb⟩ := k.outcome
  refine ⟨e1 ++ e2, fun e he => (List.mem_append.1 he).elim (p1 e) (p2 e), ?_⟩
  have hi := h.session.initialized
  have hm := h.session.mode
  rcases hb with ⟨r, b1, b2, b3, b4, b5, b6⟩ | ⟨b1, b2, b3, b4, b5, b6⟩
  · exact .inl ⟨r, by rw [b1, h1]; simp, b2, b3, b4.trans hf, b5, by rw [← hi, ← hm]; exact b6⟩
  · exact .inr ⟨by rw [b1, h1]; simp, b2.trans h.busy, b3.trans hi, b4.trans hm, b5, b6⟩

theorem Advanced.finish {m : Option ModeId} {P : Result → Prop} (s : State) (r : Result) (h : P r) :
    Advanced m P s (s.finish r) :=
  ⟨⟨rfl, rfl, rfl, rfl, ⟨_, rfl⟩, ⟨[], rfl⟩, ⟨[], rfl⟩⟩, rfl, rfl, [], by simp,
    .inl ⟨r, rfl, rfl, rfl, rfl, h, .inl ⟨rfl, rfl⟩⟩⟩

theorem Advanced.commit (s : State) (m : ModeId) : Advanced (some m) isHostResult s ((s.commitMode m).finish .ok) :=
  ⟨⟨rfl, rfl, rfl, rfl, ⟨_, rfl⟩, ⟨[], rfl⟩, ⟨[], rfl⟩⟩, rfl, rfl, [], by simp,
    .inl ⟨.ok, rfl, rfl, rfl, rfl, .inl rfl, .inr ⟨rfl, by simp, rfl, rfl⟩⟩⟩

theorem Advanced.held {m : Option ModeId} {P : Result → Prop} {s t : State} (h : Worked s t) (hc : t.control ≠ .idle)
    (ho : controlOk t t.control) : Advanced m P s t := by
  obtain ⟨e1, h1, p1⟩ := h.unitOnly
  exact ⟨h.extended, h.session.sessionOpen, h.session.transport, e1, p1,
    .inr ⟨h1, h.busy, h.session.initialized, h.session.mode, hc, ho⟩⟩

/-- Work that commits no mode leaves the session. -/
theorem Advanced.sameSession {P : Result → Prop} {s t : State} (h : Advanced none P s t) : SameSession s t := by
  obtain ⟨evs, hp, ⟨r, b1, b2, b3, b4, b5, b6⟩ | ⟨b1, b2, b3, b4, b5, b6⟩⟩ := h.outcome
  · rcases b6 with b6 | ⟨rfl, c2, c3, c4⟩
    · exact ⟨h.sessionOpen, h.transport, b6.1, b6.2⟩
    · exact absurd rfl c2
  · exact ⟨h.sessionOpen, h.transport, b3, b4⟩

theorem Advanced.anyResult {m : Option ModeId} {P : Result → Prop} {s t : State} (h : Advanced m P s t) :
    Advanced m (fun _ => True) s t := by
  obtain ⟨a, b, c, e, p, d⟩ := h
  refine ⟨a, b, c, e, p, ?_⟩
  rcases d with ⟨r, b1, b2, b3, b4, b5, b6⟩ | d
  · exact .inl ⟨r, b1, b2, b3, b4, trivial, b6⟩
  · exact .inr d

/-! ### What a position says depends on the session only -/

theorem tableRetOk_congr {s t : State} (h : SameSession s t) (ret : TableRet) (hr : tableRetOk s ret) :
    tableRetOk t ret := by
  cases ret <;> simp only [tableRetOk, initLatchOk, modeLatchOk, h.sessionOpen, h.initialized] at * <;> exact hr

theorem pollRetOk_congr {s t : State} (h : SameSession s t) (ret : PollRet) (hr : pollRetOk s ret) :
    pollRetOk t ret := by
  cases ret <;> simp only [pollRetOk, initLatchOk, modeLatchOk, h.sessionOpen, h.initialized] at * <;> exact hr

theorem modeLatchOk_congr {s t : State} (h : SameSession s t) {l : Latch} (hr : modeLatchOk s l) : modeLatchOk t l :=
  tableRetOk_congr h (.modeTable l) hr

theorem initLatchOk_congr {s t : State} (h : SameSession s t) {l : Latch} (hr : initLatchOk s l) : initLatchOk t l :=
  tableRetOk_congr h (.initTable l) hr

theorem initLatchOk.modeLatchOk {s : State} {l : Latch} (h : initLatchOk s l) : modeLatchOk s l :=
  ⟨h.1, by rw [h.2.1, h.2.2]⟩

/-! ### A table or a poll, and its caller -/

theorem Advanced.table {m : Option ModeId} {P : Result → Prop} {s : State} {t : TableId} {ret : TableRet}
    (x : Run TableResult) (f : TableResult → State → State) (hx : Worked s x.state)
    (hd : ∀ r u, x = .done r u → u.fault = s.fault) (hs : ∀ u, x = .stop u → TableHeld s t ret u)
    (hret : tableRetOk s ret) (hf : ∀ r u, Worked s u → Advanced m P u (f r u)) : Advanced m P s (x.elim f) := by
  rcases x with ⟨r, u⟩ | u
  · exact Advanced.before hx (hd r u rfl) (hf r u hx)
  · have hx : Worked s u := hx
    have hr := tableRetOk_congr hx.session ret hret
    rcases hs u rfl with ⟨ht, h2, i, a, v, n, h3, h4, h5⟩ | ⟨i, h5, h6⟩
    · refine Advanced.held hx (by rw [Run.elim_stop, h5]; simp) ?_
      rw [Run.elim_stop, h5]
      exact ⟨hx.session.transport.trans ht, h3, by rw [hx.extended.cfg]; exact h4, hr⟩
    · refine Advanced.held hx (by rw [Run.elim_stop, h5]; simp) ?_
      rw [Run.elim_stop, h5]
      exact hr

theorem Advanced.applyTable {m : Option ModeId} {P : Result → Prop} {s : State} (t : TableId) {ret : TableRet}
    (f : TableResult → State → State) (hret : tableRetOk s ret) (hf : ∀ r u, Worked s u → Advanced m P u (f r u)) :
    Advanced m P s ((applyTable t ret s).elim f) :=
  Advanced.table _ f (applyTable_worked t ret s) (fun _ _ h => applyTable_done h) (fun _ h => applyTable_stop h) hret hf

theorem Advanced.poll {m : Option ModeId} {P : Result → Prop} {s : State} {req : PollReq} {ret : PollRet} {k : Nat}
    (x : Run PollOutcome) (f : PollOutcome → State → State) (hx : Worked s x.state) (hd : x.state.fault = s.fault)
    (hk : 1 ≤ k) (hs : ∀ u, x = .stop u → PollHeld s req ret k u) (hret : pollRetOk s ret)
    (hf : ∀ r u, Worked s u → Advanced m P u (f r u)) : Advanced m P s (x.elim f) := by
  rcases x with ⟨r, u⟩ | u
  · exact Advanced.before hx hd (hf r u hx)
  · have hx : Worked s u := hx
    have hr := pollRetOk_congr hx.session ret hret
    obtain ⟨ht, p, h1, h2, h3, h4, h5⟩ := hs u rfl
    have hp : pollOk u p := ⟨by omega, by rw [h1]; exact h4, by rw [h2]; exact hr⟩
    rcases h5 with ⟨n, n1, n2, h5⟩ | h5
    · refine Advanced.held hx (by rw [Run.elim_stop, h5]; simp) ?_
      rw [Run.elim_stop, h5]
      exact ⟨hx.session.transport.trans ht, n1, by rw [hx.extended.cfg]; exact n2, hp⟩
    · refine Advanced.held hx (by rw [Run.elim_stop, h5]; simp) ?_
      rw [Run.elim_stop, h5]
      exact ⟨hx.session.transport.trans ht, hp⟩

theorem Advanced.pollStatus {m : Option ModeId} {P : Result → Prop} {s : State} (req : PollReq) {ret : PollRet}
    (f : PollOutcome → State → State) (hret : pollRetOk s ret) (hf : ∀ r u, Worked s u → Advanced m P u (f r u)) :
    Advanced m P s ((pollStatus req ret s).elim f) :=
  Advanced.poll _ f (pollStatus_worked req ret s).1 (pollStatus_worked req ret s).2 le_rfl
    (fun _ h => pollStatus_stop h) hret hf

/-! ### The steps of SET_MODE -/

theorem afterModePoll_advanced (l : Latch) (o : PollOutcome) (s : State) :
    Advanced (some l.m) isHostResult s (afterModePoll l o s) := by
  cases o
  · exact .commit s l.m
  · exact .finish _ _ (.pollTimeout _)

theorem runModePoll_advanced {l : Latch} {s : State} (h : modeLatchOk s l) :
    Advanced (some l.m) isHostResult s (runModePoll l s) :=
  .pollStatus _ _ h fun r u _ => afterModePoll_advanced l r u

theorem afterPreviewTable_advanced {l : Latch} (r : TableResult) {s : State} (h : modeLatchOk s l) :
    Advanced (some l.m) isHostResult s (afterPreviewTable l r s) := by
  cases r
  · exact runModePoll_advanced h
  · exact .finish _ _ (.writeError _ _)

theorem runPreviewTable_advanced {l : Latch} {s : State} (h : modeLatchOk s l) :
    Advanced (some l.m) isHostResult s (runPreviewTable l s) := by
  unfold runPreviewTable
  split
  · rename_i hc
    have hc : l.wasInit = true ∧ modeClass l.m = .preview := by simpa using hc
    exact .applyTable _ _ ⟨h, hc⟩ fun r _ hw => afterPreviewTable_advanced r (modeLatchOk_congr hw.session h)
  · exact runModePoll_advanced h

theorem afterModeTable_advanced {l : Latch} (r : TableResult) {s : State} (h : modeLatchOk s l) :
    Advanced (some l.m) isHostResult s (afterModeTable l r s) := by
  cases r
  · exact runPreviewTable_advanced h
  · exact .finish _ _ (.writeError _ _)

theorem runModeTable_advanced {l : Latch} {s : State} (h : modeLatchOk s l) :
    Advanced (some l.m) isHostResult s (runModeTable l s) :=
  .applyTable _ _ h fun r _ hw => afterModeTable_advanced r (modeLatchOk_congr hw.session h)

theorem afterInitPoll_advanced {l : Latch} (o : PollOutcome) {s : State} (h : initLatchOk s l) :
    Advanced (some l.m) isHostResult s (afterInitPoll l o s) := by
  cases o
  · exact runModeTable_advanced h.modeLatchOk
  · simp only [afterInitPoll]
    split
    · exact .finish _ _ (.pollTimeout _)
    · refine Advanced.before (u := s.log .initPollTimeout s.cfg.statusResultAddr _) ?_ rfl
        (runModeTable_advanced h.modeLatchOk)
      rw [State.log_eq_after]
      exact .after s _ [] _ [] _ rfl rfl (by simp [isPortEvent])

theorem runInitPoll_advanced {l : Latch} {s : State} (h : initLatchOk s l) :
    Advanced (some l.m) isHostResult s (runInitPoll l s) :=
  .pollStatus _ _ h fun r _ hw => afterInitPoll_advanced r (initLatchOk_congr hw.session h)

theorem afterInitTable_advanced {l : Latch} (r : TableResult) {s : State} (h : initLatchOk s l) :
    Advanced (some l.m) isHostResult s (afterInitTable l r s) := by
  cases r
  · exact runInitPoll_advanced h
  · exact .finish _ _ (.writeError _ _)

theorem runInitTable_advanced {l : Latch} {s : State} (h : initLatchOk s l) :
    Advanced (some l.m) isHostResult s (runInitTable l s) :=
  .applyTable _ _ h fun r _ hw => afterInitTable_advanced r (initLatchOk_congr hw.session h)

/-- All that SET_MODE can do once accepted. -/
theorem setMode_advanced (w h : Long) {s : State} (ho : s.sessionOpen = true) :
    Advanced (resolve w h) isHostResult s (setMode w h s) := by
  unfold setMode
  cases hr : resolve w h with
  | none => exact .finish _ _ (.inr (.inl rfl))
  | some m =>
    simp only
    split
    · rename_i hi
      exact runModeTable_advanced (l := ⟨m, true⟩) ⟨ho, hi.symm⟩
    · rename_i hi
      exact runInitTable_advanced (l := ⟨m, false⟩) ⟨ho, by simpa using hi, rfl⟩

theorem finishTable_advanced {m : Option ModeId} {P : Result → Prop} (r : TableResult) (s : State)
    (hP : ∀ r, isHostResult r → P r) : Advanced m P s (finishTable r s) := by
  cases r
  · exact .finish _ _ (hP _ (.inl rfl))
  · exact .finish _ _ (hP _ (.writeError _ _))

/-- All that SET_EFFECT can do once accepted. -/
theorem setEffect_advanced (code value : Long) {s : State} (ho : s.sessionOpen = true) :
    Advanced none isHostResult s (setEffect code value s) := by
  unfold setEffect
  cases itemOf code with
  | none => exact .finish _ _ (.inr (.inr (.inl rfl)))
  | some it => exact .applyTable _ _ (ret := .effect) ho fun r u _ => finishTable_advanced r u fun _ h => h

/-! ### The harness requests -/

theorem readReg_advanced (a : Word) (s : State) :
    Advanced none (fun _ => True) s ((readRegister .request a s).elim finishRead) := by
  have hw := readRegister_worked .request a s
  rcases h : readRegister .request a s with ⟨r, u⟩ | u <;> rw [h] at hw
  · exact Advanced.before hw.1 hw.2 (.finish _ _ trivial)
  · have h2 := readRegister_stop h
    refine Advanced.held hw.1 (by rw [Run.elim_stop, h2.2]; simp) ?_
    rw [Run.elim_stop, h2.2]
    exact ⟨hw.1.session.transport.trans h2.1, trivial⟩

theorem writeReg_advanced (a v : Word) (s : State) :
    Advanced none (fun _ => True) s ((writeRegister .request a v s).elim finishWrite) := by
  have hw := writeRegister_worked .request a v s
  rcases h : writeRegister .request a v s with ⟨r, u⟩ | u <;> rw [h] at hw
  · exact Advanced.before hw.1 hw.2 (.finish _ _ trivial)
  · have hw : Worked s u := hw.1
    obtain ⟨h1, n, h2, h3, h4⟩ := writeRegister_stop h
    refine Advanced.held hw (by rw [Run.elim_stop, h4]; simp) ?_
    rw [Run.elim_stop, h4]
    exact ⟨hw.session.transport.trans h1, h2, by rw [hw.extended.cfg]; exact h3, trivial⟩

theorem pollStatus_advanced (req : PollReq) (s : State) :
    Advanced none (fun _ => True) s ((pollStatus req .request s).elim finishPoll) :=
  .pollStatus _ _ trivial fun _ _ _ => .finish _ _ trivial

theorem applyTable_advanced (t : TableId) (s : State) :
    Advanced none (fun _ => True) s ((applyTable t .request s).elim finishTable) :=
  .applyTable _ _ trivial fun r u _ => finishTable_advanced r u fun _ _ => trivial

end Sys2Proof.Machine
end

