-- ==== Sys2Proof/Laws/Position.lean ====
section
/-! SUPPORT. No unit and no step of SET_MODE reads the position the state records: two states that differ only in it go on alike.
So a command that runs in one go and one that was held and went on come to the same state (10_state.md R48). -/

namespace Sys2Proof.Machine

/-- `t` is `s` but for the position. -/
def SameButControl (s t : State) : Prop := t = s.setControl t.control

theorem SameButControl.of_setControl (s : State) (c : Control) : SameButControl s (s.setControl c) := rfl

theorem SameButControl.cfg {s t : State} (h : SameButControl s t) : t.cfg = s.cfg := by
  rw [h]
  rfl

theorem SameButControl.transport {s t : State} (h : SameButControl s t) : t.transport = s.transport := by
  rw [h]
  rfl

/-- Two runs that return the same with states alike, or stand in the same state. -/
def Run.Alike {α : Type} (x y : Run α) : Prop :=
  match x, y with
  | .done r s, .done r' s' => r = r' ∧ SameButControl s s'
  | .stop s, .stop s' => s = s'
  | _, _ => False

theorem Run.Alike.elim {α : Type} {x y : Run α} {f : α → State → State} (h : x.Alike y)
    (hf : ∀ r s s', SameButControl s s' → f r s = f r s') : x.elim f = y.elim f := by
  rcases x with ⟨r, s⟩ | s <;> rcases y with ⟨r', s'⟩ | s' <;> simp only [Run.Alike] at h
  · obtain ⟨rfl, h⟩ := h
    exact hf _ _ _ h
  · exact h

theorem Run.Alike.bind {α β : Type} {x y : Run α} {f : α → State → Run β} (h : x.Alike y)
    (hf : ∀ r s s', SameButControl s s' → (f r s).Alike (f r s')) : (x.bind f).Alike (y.bind f) := by
  rcases x with ⟨r, s⟩ | s <;> rcases y with ⟨r', s'⟩ | s' <;> simp only [Run.Alike] at h
  · obtain ⟨rfl, h⟩ := h
    exact hf _ _ _ h
  · exact h

theorem writeAttempts_alike (ret : WriteRet) (a v : Word) (n : Nat) {s t : State} (h : SameButControl s t) :
    (writeAttempts ret a v n s).Alike (writeAttempts ret a v n t) := by
  induction n generalizing s t with
  | zero =>
    rw [h]
    cases hw : s.writeAnswers with
    | nil =>
      rw [writeAttempts, writeAttempts, busWrite_nil _ _ _ hw, busWrite_nil _ _ _ (by simpa using hw)]
      rfl
    | cons o ws =>
      rw [writeAttempts, writeAttempts, busWrite_cons _ _ _ o ws hw, busWrite_cons _ _ _ o ws (by simpa using hw)]
      cases o <;> exact ⟨rfl, rfl⟩
  | succ n ih =>
    rw [h]
    cases hw : s.writeAnswers with
    | nil =>
      rw [writeAttempts, writeAttempts, busWrite_nil _ _ _ hw, busWrite_nil _ _ _ (by simpa using hw)]
      rfl
    | cons o ws =>
      rw [writeAttempts, writeAttempts, busWrite_cons _ _ _ o ws hw, busWrite_cons _ _ _ o ws (by simpa using hw)]
      cases o
      · exact ⟨rfl, rfl⟩
      · exact ih rfl

theorem writeRegister_alike (ret : WriteRet) (a v : Word) {s t : State} (h : SameButControl s t) :
    (writeRegister ret a v s).Alike (writeRegister ret a v t) := by
  simp only [writeRegister, h.transport, h.cfg]
  split
  · exact writeAttempts_alike _ _ _ _ h
  · exact ⟨rfl, h⟩

theorem resumeRead_alike (ret : ReadRet) (a : Word) {s t : State} (h : SameButControl s t) :
    (resumeRead ret a s).Alike (resumeRead ret a t) := by
  rw [h]
  rcases hr : s.readAnswers with _ | ⟨r, rs⟩
  · rw [resumeRead_held _ _ _ hr, resumeRead_held _ _ _ (by simpa using hr)]
    rfl
  · rw [resumeRead_answered _ _ _ r rs hr, resumeRead_answered _ _ _ r rs (by simpa using hr)]
    exact ⟨rfl, rfl⟩

theorem readRegister_alike (ret : ReadRet) (a : Word) {s t : State} (h : SameButControl s t) :
    (readRegister ret a s).Alike (readRegister ret a t) := by
  cases ht : s.transport
  · rw [readRegister_noTransport _ _ _ ht, readRegister_noTransport _ _ _ (h.transport.trans ht)]
    exact ⟨rfl, h⟩
  · rw [readRegister_transport _ _ _ ht, readRegister_transport _ _ _ (h.transport.trans ht)]
    exact resumeRead_alike _ _ h

theorem pollIteration_alike (p : Poll) {s t : State} (h : SameButControl s t) :
    (pollIteration p s).Alike (pollIteration p t) := by
  refine Run.Alike.bind (writeRegister_alike _ _ _ (by rw [h]; rfl)) fun r s s' h => ?_
  cases r with
  | fail e => exact ⟨rfl, h⟩
  | ok =>
    refine Run.Alike.bind (readRegister_alike _ _ h) fun r s s' h => ?_
    cases r with
    | fail e => exact ⟨rfl, h⟩
    | ok x =>
      simp only [pollAfterRead]
      split <;> exact ⟨rfl, h⟩

theorem pollLoop_alike (n : Nat) (p : Poll) {s t : State} (h : SameButControl s t) :
    (pollLoop n p s).Alike (pollLoop n p t) := by
  induction n generalizing p s t with
  | zero => exact ⟨rfl, h⟩
  | succ n ih =>
    have hit := pollIteration_alike p h
    rw [pollLoop, pollLoop]
    rcases hx : pollIteration p s with ⟨r, u⟩ | u <;> rcases hy : pollIteration p t with ⟨r', u'⟩ | u' <;>
      rw [hx, hy] at hit <;> simp only [Run.Alike] at hit
    · obtain ⟨rfl, h2⟩ := hit
      cases r with
      | converged v => exact ⟨rfl, h2⟩
      | again l => exact ih _ h2
    · exact hit

theorem runEntry_alike (t : TableId) (i : Nat) (ret : TableRet) (e : Entry) {s u : State} (h : SameButControl s u) :
    (runEntry t i ret e s).Alike (runEntry t i ret e u) := by
  unfold runEntry
  rw [h.cfg]
  split
  · exact ⟨rfl, by rw [h]; rfl⟩
  · exact ⟨rfl, h⟩
  · exact Run.Alike.bind (writeRegister_alike _ _ _ h) fun r s s' h => ⟨rfl, h⟩

theorem tableLoop_alike (t : TableId) (ret : TableRet) (es : List Entry) (i : Nat) {s u : State}
    (h : SameButControl s u) : (tableLoop t ret es i s).Alike (tableLoop t ret es i u) := by
  induction es generalizing i s u with
  | nil =>
    rw [h]
    rfl
  | cons e es ih =>
    have he := runEntry_alike t i ret e h
    rw [tableLoop, tableLoop]
    rcases hx : runEntry t i ret e s with ⟨r, w⟩ | w <;> rcases hy : runEntry t i ret e u with ⟨r', w'⟩ | w' <;>
      rw [hx, hy] at he <;> simp only [Run.Alike] at he
    · obtain ⟨rfl, h2⟩ := he
      cases r with
      | goOn => exact ih _ h2
      | finished => exact ⟨rfl, h2⟩
      | failed c => exact ⟨rfl, h2⟩
    · exact he

theorem applyTable_alike (t : TableId) (ret : TableRet) {s u : State} (h : SameButControl s u) :
    (applyTable t ret s).Alike (applyTable t ret u) := by
  unfold applyTable
  rw [h.cfg]
  split
  · rw [h]
    rfl
  · exact tableLoop_alike _ _ _ _ h

/-! ## The steps of SET_MODE -/

theorem finish_alike (r : Result) {s u : State} (h : SameButControl s u) : s.finish r = u.finish r := by
  rw [h]
  rfl

theorem runModePoll_alike (l : Latch) {s u : State} (h : SameButControl s u) : runModePoll l s = runModePoll l u := by
  unfold runModePoll
  rw [h.cfg]
  refine Run.Alike.elim (pollLoop_alike _ _ h) fun r s u h => ?_
  cases r with
  | converged v =>
    rw [h]
    rfl
  | timeout last => exact finish_alike _ h

theorem afterPreviewTable_alike (l : Latch) (r : TableResult) {s u : State} (h : SameButControl s u) :
    afterPreviewTable l r s = afterPreviewTable l r u := by
  cases r
  · exact runModePoll_alike l h
  · exact finish_alike _ h

theorem runPreviewTable_alike (l : Latch) {s u : State} (h : SameButControl s u) :
    runPreviewTable l s = runPreviewTable l u := by
  unfold runPreviewTable
  rw [h.cfg]
  split
  · exact Run.Alike.elim (applyTable_alike _ _ h) fun r s u h => afterPreviewTable_alike l r h
  · exact runModePoll_alike l h

theorem afterModeTable_alike (l : Latch) (r : TableResult) {s u : State} (h : SameButControl s u) :
    afterModeTable l r s = afterModeTable l r u := by
  cases r
  · exact runPreviewTable_alike l h
  · exact finish_alike _ h

theorem runModeTable_alike (l : Latch) {s u : State} (h : SameButControl s u) :
    runModeTable l s = runModeTable l u := by
  unfold runModeTable
  rw [h.cfg]
  exact Run.Alike.elim (applyTable_alike _ _ h) fun r s u h => afterModeTable_alike l r h

theorem afterInitPoll_alike (l : Latch) (o : PollOutcome) {s u : State} (h : SameButControl s u) :
    afterInitPoll l o s = afterInitPoll l o u := by
  cases o
  · exact runModeTable_alike l h
  · simp only [afterInitPoll, h.cfg]
    split
    · exact finish_alike _ h
    · exact runModeTable_alike l (by rw [h]; rfl)

theorem runInitPoll_alike (l : Latch) {s u : State} (h : SameButControl s u) : runInitPoll l s = runInitPoll l u := by
  unfold runInitPoll
  rw [h.cfg]
  exact Run.Alike.elim (pollLoop_alike _ _ h) fun r s u h => afterInitPoll_alike l r h

theorem afterInitTable_alike (l : Latch) (r : TableResult) {s u : State} (h : SameButControl s u) :
    afterInitTable l r s = afterInitTable l r u := by
  cases r
  · exact runInitPoll_alike l h
  · exact finish_alike _ h

/-- The callers of a table do not read the position. -/
theorem afterTable_alike (ret : TableRet) (r : TableResult) {s u : State} (h : SameButControl s u) :
    afterTable ret r s = afterTable ret r u := by
  cases ret
  · exact finish_alike _ h
  · exact finish_alike _ h
  · exact afterInitTable_alike _ _ h
  · exact afterModeTable_alike _ _ h
  · exact afterPreviewTable_alike _ _ h

/-- The callers of a poll do not read the position. -/
theorem afterPoll_alike (ret : PollRet) (o : PollOutcome) {s u : State} (h : SameButControl s u) :
    afterPoll ret o s = afterPoll ret o u := by
  cases ret
  · exact finish_alike _ h
  · exact afterInitPoll_alike _ _ h
  · cases o with
    | converged v =>
      simp only [afterPoll, afterModePoll]
      rw [h]
      rfl
    | timeout last => exact finish_alike _ h

end Sys2Proof.Machine
end

