-- ==== Sys2Proof/Laws/Running.lean ====
section
/-! SUPPORT. All that a step can do, said once: what a step of a running command can come to, by the position it stands in, and the
cases of a step (10_state.md R48, 44_control_surface.md R280). -/

namespace Sys2Proof.Machine

/-! ## Whose work it is -/

/-- The mode of the SET_MODE that applied the table. -/
def tableMode : TableRet → Option ModeId
  | .request => none
  | .effect => none
  | .initTable l => some l.m
  | .modeTable l => some l.m
  | .previewTable l => some l.m

/-- The mode of the SET_MODE that called the poll. -/
def pollMode : PollRet → Option ModeId
  | .request => none
  | .initPoll l => some l.m
  | .modePoll l => some l.m

/-- The mode of the SET_MODE that stands in the position. -/
def positionMode : Control → Option ModeId
  | .idle => none
  | .hook _ => none
  | .write _ _ _ .request => none
  | .write _ _ _ (.selector p) => pollMode p.ret
  | .write _ _ _ (.entry _ _ ret) => tableMode ret
  | .read _ .request => none
  | .read _ (.result p) => pollMode p.ret
  | .table _ _ ret => tableMode ret
  | .tableDone ret _ => tableMode ret

theorem tableRetStep_of_mode (ret : TableRet) (h : tableMode ret ≠ none) : ∃ k, tableRetStep ret = some k := by
  cases ret <;> simp [tableMode, tableRetStep] at h ⊢

theorem pollRetStep_of_mode (ret : PollRet) (h : pollMode ret ≠ none) : ∃ k, pollRetStep ret = some k := by
  cases ret <;> simp [pollMode, pollRetStep] at h ⊢

/-- A position of a SET_MODE is in one of its steps. -/
theorem seqStep_of_mode (c : Control) (h : positionMode c ≠ none) : ∃ k, seqStep c = some k := by
  cases c with
  | idle => exact absurd rfl h
  | hook _ => exact absurd rfl h
  | table _ _ ret => exact tableRetStep_of_mode ret h
  | tableDone ret _ => exact tableRetStep_of_mode ret h
  | read _ ret =>
    cases ret with
    | request => exact absurd rfl h
    | result p => exact pollRetStep_of_mode p.ret h
  | write _ _ _ ret =>
    cases ret with
    | request => exact absurd rfl h
    | selector p => exact pollRetStep_of_mode p.ret h
    | entry _ _ tret => exact tableRetStep_of_mode tret h

/-- The results of a caller: a host command's are those of 60_exceptions.md R312. -/
def ResultOf (host : Bool) (r : Result) : Prop := host = true → isHostResult r

theorem Advanced.mono {m : Option ModeId} {P Q : Result → Prop} {s t : State} (h : Advanced m P s t)
    (hPQ : ∀ r, P r → Q r) : Advanced m Q s t := by
  obtain ⟨a, b, c, e, p, d⟩ := h
  refine ⟨a, b, c, e, p, ?_⟩
  rcases d with ⟨r, b1, b2, b3, b4, b5, b6⟩ | d
  · exact .inl ⟨r, b1, b2, b3, b4, hPQ r b5, b6⟩
  · exact .inr d

/-! ## The callers -/

theorem afterPoll_advanced {ret : PollRet} (o : PollOutcome) {s : State} (h : pollRetOk s ret) :
    Advanced (pollMode ret) (ResultOf (isHostPoll ret)) s (afterPoll ret o s) := by
  cases ret with
  | request => exact .finish _ _ fun h => by cases h
  | initPoll l => exact (afterInitPoll_advanced o h).mono fun _ h _ => h
  | modePoll l => exact (afterModePoll_advanced l o s).mono fun _ h _ => h

theorem afterTable_advanced {ret : TableRet} (r : TableResult) {s : State} (h : tableRetOk s ret) :
    Advanced (tableMode ret) (ResultOf (isHostTable ret)) s (afterTable ret r s) := by
  cases ret with
  | request => exact finishTable_advanced r s fun _ h _ => h
  | effect => exact finishTable_advanced r s fun _ h _ => h
  | initTable l => exact (afterInitTable_advanced r h).mono fun _ h _ => h
  | modeTable l => exact (afterModeTable_advanced r h).mono fun _ h _ => h
  | previewTable l => exact (afterPreviewTable_advanced r h.1).mono fun _ h _ => h

/-- A poll that goes on from its iteration `p.k`, and its caller. -/
theorem pollOn_advanced {s : State} {p : Poll} {k : Nat} (x : Run PollOutcome) (hx : Worked s x.state)
    (hd : x.state.fault = s.fault) (hp : pollOk s p) (hk : 1 ≤ k) (hs : ∀ u, x = .stop u → PollHeld s p.req p.ret k u) :
    Advanced (pollMode p.ret) (ResultOf (isHostPoll p.ret)) s (x.elim (afterPoll p.ret)) :=
  .poll x _ hx hd hk hs hp.2.2 fun o _ hw => afterPoll_advanced o (pollRetOk_congr hw.session _ hp.2.2)

theorem pollOk_congr {s u : State} (h : SameSession s u) {p : Poll} (hp : pollOk s p) : pollOk u p :=
  ⟨hp.1, hp.2.1, pollRetOk_congr h _ hp.2.2⟩

/-- An entry of a table, and where the table stands after it. -/
theorem afterEntry_advanced {m : Option ModeId} {P : Result → Prop} {s : State} {k : TableId} {j : Nat} {ret : TableRet}
    (x : Run EntryResult) (hx : Worked s x.state) (hr : tableRetOk s ret)
    (hs : ∀ u, x = .stop u → s.transport = true ∧
      ∃ a v n, 1 ≤ n ∧ n ≤ 1 + s.cfg.writeRetries.toNat ∧ u.control = .write a v n (.entry k j ret)) :
    Advanced m P s (x.elim (afterEntry k j ret)) := by
  rcases x with ⟨r, u⟩ | u
  · have hx : Worked s u := hx
    have hret := tableRetOk_congr hx.session ret hr
    cases r <;> exact Advanced.held (hx.setControl _) (by simp [afterEntry]) hret
  · have hx : Worked s u := hx
    obtain ⟨ht, a, v, n, h1, h2, h3⟩ := hs u rfl
    refine Advanced.held hx (by rw [Run.elim_stop, h3]; simp) ?_
    rw [Run.elim_stop, h3]
    exact ⟨hx.session.transport.trans ht, h1, by rw [hx.extended.cfg]; exact h2, tableRetOk_congr hx.session ret hr⟩

/-! ## Going on after a wait -/

theorem stepWrite_advanced {a v : Word} {n : Nat} {ret : WriteRet} {s : State} (hc : controlOk s (.write a v n ret)) :
    Advanced (positionMode (.write a v n ret)) (ResultOf (isHostPosition (.write a v n ret))) s (stepWrite a v n ret s) := by
  obtain ⟨ht, h1, -, hret⟩ := hc
  have hw := resumeWrite_worked ret a v n s
  have hheld : ∀ u, resumeWrite ret a v n s = .stop u → writeRetOk u ret → ∀ {m P}, Advanced m P s u := by
    intro u hx hru m P
    rw [hx] at hw
    have hw : Worked s u := hw.1
    obtain ⟨k, k1, k2, k3⟩ := resumeWrite_stop h1 hx
    refine Advanced.held hw (by rw [k3]; simp) ?_
    rw [k3]
    exact ⟨hw.session.transport.trans ht, k1, by rw [hw.extended.cfg]; exact k2, hru⟩
  cases ret with
  | request =>
    simp only [stepWrite]
    rcases hx : resumeWrite .request a v n s with ⟨r, u⟩ | u
    · rw [hx] at hw
      exact Advanced.before hw.1 hw.2 (.finish _ _ fun h => by cases h)
    · exact hheld u hx trivial
  | selector p =>
    have hp : pollOk s p := hret
    simp only [stepWrite]
    rcases hx : resumeWrite (.selector p) a v n s with ⟨r, u⟩ | u
    · rw [hx] at hw
      have hw1 : Worked s u := hw.1
      refine Advanced.before hw1 hw.2 ?_
      have b1 := pollAfterWrite_worked p r u
      have b2 := Run.bind_worked _ _ b1 fun r w _ => pollContinue_worked p r w
      refine pollOn_advanced _ b2.1 b2.2 (pollOk_congr hw1.session hp) hp.1 fun w hu => ?_
      rcases Run.bind_stop_cases hu with hu | ⟨it, w, hw2, hu⟩
      · obtain ⟨h3, h4⟩ := pollAfterWrite_stop hu
        exact ⟨h3, p, rfl, rfl, le_rfl, hp.2.1, .inr h4⟩
      · obtain ⟨t1, q, q1, q2, q3, q4, q5⟩ := pollContinue_stop hp.2.1 hu
        have hww := b1.1
        rw [show pollAfterWrite p r u = .done it w from hw2] at hww
        have hcfg : w.cfg = u.cfg := hww.extended.cfg
        rw [hcfg] at q5
        exact ⟨hww.session.transport.symm.trans t1, q, q1, q2, by omega, q4, q5⟩
    · rw [hx] at hw
      have hw1 : Worked s u := hw.1
      exact hheld u hx (pollOk_congr hw1.session hp)
  | entry k j tret =>
    simp only [stepWrite]
    refine afterEntry_advanced _ (Run.bind_worked _ _ hw fun r u _ => by exact ⟨.refl u, rfl⟩).1 hret fun u hu => ?_
    rcases Run.bind_stop_cases hu with hu | ⟨it, w, -, hu⟩
    · obtain ⟨m, m1, m2, m3⟩ := resumeWrite_stop h1 hu
      exact ⟨ht, a, v, m, m1, m2, m3⟩
    · cases hu

theorem stepRead_advanced {a : Word} {ret : ReadRet} {s : State} (hc : controlOk s (.read a ret)) :
    Advanced (positionMode (.read a ret)) (ResultOf (isHostPosition (.read a ret))) s (stepRead a ret s) := by
  obtain ⟨ht, hret⟩ := hc
  have hw := resumeRead_spec ret a s
  cases ret with
  | request =>
    simp only [stepRead]
    rcases hx : resumeRead .request a s with ⟨r, u⟩ | u <;> rw [hx] at hw
    · exact Advanced.before hw.1 hw.2.1 (.finish _ _ fun h => by cases h)
    · have hw1 : Worked s u := hw.1
      refine Advanced.held hw1 (by rw [Run.elim_stop, hw.2.2 u rfl]; simp) ?_
      rw [Run.elim_stop, hw.2.2 u rfl]
      exact ⟨hw1.session.transport.trans ht, trivial⟩
  | result p =>
    have hp : pollOk s p := hret
    simp only [stepRead]
    rcases hx : resumeRead (.result p) a s with ⟨r, u⟩ | u <;> rw [hx] at hw
    · have hw1 : Worked s u := hw.1
      refine Advanced.before hw1 hw.2.1 ?_
      obtain ⟨it, hit⟩ := pollAfterRead_spec p r u
      rw [Run.bind_done, hit, Run.bind_done]
      have b2 := pollContinue_worked p it u
      exact pollOn_advanced _ b2.1 b2.2 (pollOk_congr hw1.session hp) (by omega) fun w hu => pollContinue_stop hp.2.1 hu
    · have hw1 : Worked s u := hw.1
      refine Advanced.held hw1 (by simp [hw.2.2 u rfl]) ?_
      simp only [Run.bind_stop, Run.elim_stop, hw.2.2 u rfl]
      exact ⟨hw1.session.transport.trans ht, pollOk_congr hw1.session hp⟩

/-! ## The cases of a step -/

theorem decodeEntry_entry (c : Cfg) (e : Entry) : isCommand (decodeEntry c e) = false := by
  unfold decodeEntry
  cases entryKind c e <;> rfl

theorem orShort_ok {op : Byte} {o : Option Instr} {i : Instr} (h : orShort op o = .ok i) : o = some i := by
  cases o with
  | none => simp [orShort] at h
  | some j =>
    simp [orShort] at h
    rw [h]

/-- A port delivers commands and requests only. -/
theorem decodeFrame_command {p : Port} {bytes : List Byte} {i : Instr} (h : decodeFrame p bytes = .ok i) :
    isCommand i = true := by
  cases p <;> cases bytes <;> simp only [decodeFrame, decodeHost, decodeInternal] at h
  · cases h
  · repeat' split at h
    all_goals first
      | (cases h; rfl)
      | (have := orShort_ok h; simp at this; obtain ⟨_, _, _, rfl⟩ := this; rfl)
      | cases h
  · cases h
  · repeat' split at h
    all_goals first
      | (have := orShort_ok h; simp at this; obtain ⟨_, _, rfl⟩ := this; rfl)
      | (have := orShort_ok h; simp at this; obtain ⟨_, _, _, rfl⟩ := this; rfl)
      | (have := orShort_ok h; simp at this; obtain ⟨_, _, _, _, _, _, _, rfl⟩ := this; rfl)
      | cases h

/-- An entry at the cursor. -/
theorem entry_advanced {m : Option ModeId} {P : Result → Prop} {i : Instr} {s t : State} {k : TableId} {j : Nat}
    {ret : TableRet} (hi : isCommand i = false) (hc : s.control = .table k j ret) (hr : tableRetOk s ret)
    (he : exec i s = .next t) : Advanced m P s t := by
  cases i <;> try (cases hi; done)
  all_goals
    simp only [exec, execWr, execWait, execEndTable] at he
    obtain ⟨-, k', j', ret', hc', rfl⟩ := atEntry_cases he
    rw [hc] at hc'
    cases hc'
    refine afterEntry_advanced _ ?_ hr ?_
  · exact (entryWr_worked ..).1
  · intro u hu
    obtain ⟨ht, n, h1, h2, h3⟩ := entryWr_stop hu
    exact ⟨ht, _, _, n, h1, h2, h3⟩
  · exact Worked.sleep _ _
  · intro u hu
    cases hu
  · exact Worked.refl _
  · intro u hu
    cases hu

/-- All that a step of a running command can do: a table fault; work that stands, or that delivers a result of the command the
position belongs to; or the end of OPEN or CLOSE after its hook. -/
theorem stepRunning_cases {s t : State} (h : StateInv s) (he : stepRunning s = .next t) :
    (∃ f, t = s.raiseFault f) ∨
      Advanced (positionMode s.control) (ResultOf (isHostPosition s.control)) s t ∨
      (∃ k, s.control = .hook k ∧ t = afterHook k s) := by
  have hc := h.control_ok
  unfold stepRunning at he
  split at he
  · cases he
  · rename_i k hk
    split at he
    · cases he
      exact .inr (.inr ⟨k, hk, rfl⟩)
    · cases he
  · rename_i hk
    rw [hk] at hc ⊢
    split at he
    · cases he
    · cases he
      exact .inr (.inl (stepWrite_advanced hc))
  · rename_i hk
    rw [hk] at hc ⊢
    split at he
    · cases he
    · cases he
      exact .inr (.inl (stepRead_advanced hc))
  · rename_i hk
    rw [hk] at hc
    unfold stepEntry at he
    split at he
    · cases he
      exact .inl ⟨_, rfl⟩
    · split at he
      · cases he
        exact .inl ⟨_, rfl⟩
      · exact .inr (.inl (entry_advanced (decodeEntry_entry _ _) hk hc he))
  · rename_i hk
    rw [hk] at hc ⊢
    cases he
    exact .inr (.inl (afterTable_advanced _ hc))

/-- All that a step can do: refuse a presented frame with a fault, run the command a frame decodes to, or go on with the running
command. -/
theorem step_cases {s t : State} (he : step s = .next t) :
    s.fault = none ∧
      ((∃ p f, s.port = some p ∧ t = s.clearPort.raiseFault f) ∨
        (∃ p i, s.port = some p ∧ s.busy = false ∧ decodeFrame p.port p.bytes = .ok i ∧ exec i s.clearPort = .next t) ∨
        (s.port = none ∧ s.busy = true ∧ stepRunning s = .next t)) := by
  unfold step stepMachine at he
  split at he
  · cases he
  · rename_i hf
    refine ⟨by simpa using hf, ?_⟩
    split at he
    · rename_i p hp
      unfold stepPresented at he
      split at he
      · cases he
        exact .inl ⟨p, _, hp, rfl⟩
      · rename_i hb
        split at he
        · cases he
          exact .inl ⟨p, _, hp, rfl⟩
        · rename_i i hd
          exact .inr (.inl ⟨p, i, hp, by simpa using hb, hd, he⟩)
    · rename_i hp
      split at he
      · rename_i hb
        exact .inr (.inr ⟨hp, hb, he⟩)
      · cases he

end Sys2Proof.Machine
end

