-- ==== Sys2Proof/Laws/Waiting.lean ====
section
/-! SUPPORT. What a wait leaves undone, said once: a unit that stands still for want of an answer, given more answers, goes on to
the state it would have come to had they been there (10_state.md R48, 20_memory.md R82). -/

namespace Sys2Proof.Machine

/-! ## Going on, in one go -/

/-- The rest of a table after its entry `i`, and then its caller, in one go. -/
def restOfTable (t : TableId) (i : Nat) (ret : TableRet) (r : EntryResult) (s : State) : State :=
  match r with
  | .goOn =>
    match readTable s.cfg t with
    | none => s.setControl (.table t (i + 1) ret)
    | some es =>
      if i < es.length then (tableLoop t ret (es.drop (i + 1)) (i + 1) s).elim (afterTable ret)
      else s.setControl (.table t (i + 1) ret)
  | .finished => afterTable ret .ok s
  | .failed c => afterTable ret (.writeError i c) s

/-- As `stepWrite`, with the rest of the table in one go. -/
def goOnWrite (a v : Word) (attempt : Nat) (ret : WriteRet) (s : State) : State :=
  match ret with
  | .request => stepWrite a v attempt .request s
  | .selector p => stepWrite a v attempt (.selector p) s
  | .entry t i tret =>
    ((resumeWrite (.entry t i tret) a v attempt s).bind fun r s' => .done (afterEntryWrite r) s').elim
      (restOfTable t i tret)

/-- Work came to `x`, and with more answers it comes to `y`: where `x` waits for an answer, `y` is what going on from `x` with
them comes to. A write goes on by `g`. -/
structure Later (g : Word → Word → Nat → WriteRet → State → State) (ws : List WriteAnswer) (rs : List ReadAnswer)
    (x y : State) : Prop where
  write : x.fault = none → ∀ a v n ret, x.control = .write a v n ret →
    x.writeAnswers = [] ∧ y = g a v n ret (x.moreAnswers ws rs)
  read  : x.fault = none → ∀ a ret, x.control = .read a ret →
    x.readAnswers = [] ∧ y = stepRead a ret (x.moreAnswers ws rs)

/-- What follows a unit's result goes on alike wherever the state stands, and with more answers. -/
structure Follows (g : Word → Word → Nat → WriteRet → State → State) (ws : List WriteAnswer) (rs : List ReadAnswer)
    (c : Cfg) {α : Type} (f : α → State → State) : Prop where
  alike : ∀ r s u, SameButControl s u → f r s = f r u
  later : ∀ r u, u.cfg = c → Later g ws rs (f r u) (f r (u.moreAnswers ws rs))

/-! ## Runs -/

theorem Run.bind_elim {α β : Type} (x : Run α) (f : α → State → Run β) (k : β → State → State) :
    (x.bind f).elim k = x.elim fun r s => (f r s).elim k := by
  cases x <;> rfl

variable {g : Word → Word → Nat → WriteRet → State → State} {ws : List WriteAnswer} {rs : List ReadAnswer}

/-- Work that stands nowhere at a transaction. -/
theorem Later.of_control {x y : State} (h1 : ∀ a v n ret, x.control ≠ .write a v n ret)
    (h2 : ∀ a ret, x.control ≠ .read a ret) : Later g ws rs x y :=
  ⟨fun _ a v n ret h => absurd h (h1 a v n ret), fun _ a ret h => absurd h (h2 a ret)⟩

theorem Later.of_fault {x y : State} (h : x.fault ≠ none) : Later g ws rs x y :=
  ⟨fun hf => absurd hf h, fun hf => absurd hf h⟩

theorem Later.finish (s : State) (r : Result) {y : State} : Later g ws rs (s.finish r) y :=
  .of_control (by simp) (by simp)

/-! ## The Bus Transport -/

theorem writeAttempts_later {ret : WriteRet} {a v : Word} {f : WriteResult → State → State} {left : Nat} {s : State}
    (hl : left ≤ s.cfg.writeRetries.toNat) (hf : Follows g ws rs s.cfg f)
    (hg : ∀ n u, u.cfg = s.cfg → g a v n ret u = (resumeWrite ret a v n u).elim f) :
    Later g ws rs ((writeAttempts ret a v left s).elim f) ((writeAttempts ret a v left (s.moreAnswers ws rs)).elim f) := by
  rcases writeAnswers_cases left s.writeAnswers with ⟨j, w, hj, h⟩ | ⟨w, h⟩ | ⟨j, hj, h⟩
  · rw [writeAttempts_acked _ _ _ j _ s w hj h,
      writeAttempts_acked _ _ _ j _ (s.moreAnswers ws rs) (w ++ ws) hj (by simp [h])]
    exact hf.later _ _ rfl
  · rw [writeAttempts_failed _ _ _ _ s w h, writeAttempts_failed _ _ _ _ (s.moreAnswers ws rs) (w ++ ws) (by simp [h])]
    exact hf.later _ _ rfl
  · obtain ⟨n, rfl⟩ := Nat.exists_eq_add_of_le hj
    rw [writeAttempts_held _ _ _ j _ s hj h, writeAttempts_naks _ _ _ j n (s.moreAnswers ws rs) ws (by simp [h])]
    refine ⟨fun _ a' v' n' ret' hc => ⟨rfl, ?_⟩, fun _ a' ret' hc => by simp at hc⟩
    simp only [Run.elim_stop, State.setControl_control, Control.write.injEq] at hc ⊢
    obtain ⟨rfl, rfl, rfl, rfl⟩ := hc
    have hk : 1 + s.cfg.writeRetries.toNat - attemptNumber s.cfg (j + n - j) = n := by
      simp only [attemptNumber]
      omega
    refine Eq.trans ?_ (hg _ _ (by simp)).symm
    simp only [resumeWrite, State.moreAnswers_cfg, State.setControl_cfg, State.after_cfg, hk]
    exact Run.Alike.elim (writeAttempts_alike _ _ _ _ rfl) hf.alike

theorem writeRegister_later {ret : WriteRet} {a v : Word} {f : WriteResult → State → State} {s : State}
    (hf : Follows g ws rs s.cfg f) (hg : ∀ n u, u.cfg = s.cfg → g a v n ret u = (resumeWrite ret a v n u).elim f) :
    Later g ws rs ((writeRegister ret a v s).elim f) ((writeRegister ret a v (s.moreAnswers ws rs)).elim f) := by
  cases ht : s.transport
  · rw [writeRegister_noTransport _ _ _ _ ht, writeRegister_noTransport _ _ _ (s.moreAnswers ws rs) ht]
    exact hf.later _ _ rfl
  · rw [writeRegister_transport _ _ _ _ ht, writeRegister_transport _ _ _ (s.moreAnswers ws rs) ht]
    exact writeAttempts_later le_rfl hf hg

theorem readRegister_later {ret : ReadRet} {a : Word} {f : ReadResult → State → State} {s : State}
    (hf : Follows g ws rs s.cfg f) (hg : ∀ u, stepRead a ret u = (resumeRead ret a u).elim f) :
    Later g ws rs ((readRegister ret a s).elim f) ((readRegister ret a (s.moreAnswers ws rs)).elim f) := by
  cases ht : s.transport
  · rw [readRegister_noTransport _ _ _ ht, readRegister_noTransport _ _ (s.moreAnswers ws rs) ht]
    exact hf.later _ _ rfl
  · rw [readRegister_transport _ _ _ ht, readRegister_transport _ _ (s.moreAnswers ws rs) ht]
    rcases hr : s.readAnswers with _ | ⟨r, rest⟩
    · rw [resumeRead_held _ _ s hr]
      refine ⟨fun _ a' v' n' ret' hc => by simp at hc, fun _ a' ret' hc => ⟨hr, ?_⟩⟩
      simp only [Run.elim_stop, State.setControl_control, Control.read.injEq] at hc ⊢
      obtain ⟨rfl, rfl⟩ := hc
      rw [hg]
      exact Run.Alike.elim (resumeRead_alike _ _ rfl) hf.alike
    · rw [resumeRead_answered _ _ s r rest hr, resumeRead_answered _ _ (s.moreAnswers ws rs) r (rest ++ rs) (by simp [hr])]
      exact hf.later _ _ rfl

/-! ## The Status Poller -/

/-- A poll's iterations are one of them and going on. -/
theorem pollLoop_succ {n : Nat} {p : Poll} (hk : p.k + n = p.req.maxAttempts.toNat) (s : State) :
    pollLoop (n + 1) p s = (pollIteration p s).bind (pollContinue p) := by
  rw [pollLoop]
  rcases pollIteration p s with ⟨r, u⟩ | u
  · cases r with
    | converged v => rfl
    | again last =>
      simp only [Run.bind_done, pollContinue]
      rw [show p.req.maxAttempts.toNat - p.k = n by omega]
  · rfl

theorem pollContinue_alike (p : Poll) (r : Iteration) {s u : State} (h : SameButControl s u) :
    (pollContinue p r s).Alike (pollContinue p r u) := by
  cases r
  · exact ⟨rfl, h⟩
  · exact pollLoop_alike _ _ h

theorem pollAfterRead_alike (p : Poll) (r : ReadResult) {s u : State} (h : SameButControl s u) :
    (pollAfterRead p r s).Alike (pollAfterRead p r u) := by
  cases r
  · simp only [pollAfterRead]
    split <;> exact ⟨rfl, h⟩
  · exact ⟨rfl, h⟩

theorem pollAfterWrite_alike (p : Poll) (r : WriteResult) {s u : State} (h : SameButControl s u) :
    (pollAfterWrite p r s).Alike (pollAfterWrite p r u) := by
  cases r
  · exact Run.Alike.bind (readRegister_alike _ _ h) fun r _ _ h => pollAfterRead_alike p r h
  · exact ⟨rfl, h⟩

theorem pollLoop_later {left : Nat} {p : Poll} {s : State} (hk : p.k + left = p.req.maxAttempts.toNat + 1)
    (hg : ∀ a v n q, g a v n (.selector q) = stepWrite a v n (.selector q))
    (hf : Follows g ws rs s.cfg (afterPoll p.ret)) :
    Later g ws rs ((pollLoop left p s).elim (afterPoll p.ret))
      ((pollLoop left p (s.moreAnswers ws rs)).elim (afterPoll p.ret)) := by
  induction left generalizing p s with
  | zero => exact hf.later _ _ rfl
  | succ n ih =>
    have hgo : ∀ r u, u.cfg = s.cfg → Later g ws rs ((pollContinue p r u).elim (afterPoll p.ret))
        ((pollContinue p r (u.moreAnswers ws rs)).elim (afterPoll p.ret)) := by
      intro r u hu
      cases r with
      | converged v => exact hf.later _ _ hu
      | again last =>
        simp only [pollContinue]
        rw [show p.req.maxAttempts.toNat - p.k = n by omega]
        exact ih (p := nextIteration p last) (by simp [nextIteration]; omega) (by rw [hu]; exact hf)
    have hread : Follows g ws rs s.cfg fun r u => ((pollAfterRead p r u).bind (pollContinue p)).elim (afterPoll p.ret) := by
      refine ⟨fun r s u h => ?_, fun r u hu => ?_⟩
      · exact Run.Alike.elim (Run.Alike.bind (pollAfterRead_alike p r h) fun r _ _ h => pollContinue_alike p r h) hf.alike
      · cases r with
        | fail e => exact hgo (.again p.last) u hu
        | ok x =>
          simp only [pollAfterRead]
          split
          · exact hgo (.converged x) u hu
          · exact hgo (.again (some x)) u hu
    have hwrite : Follows g ws rs s.cfg fun r u => ((pollAfterWrite p r u).bind (pollContinue p)).elim (afterPoll p.ret) := by
      refine ⟨fun r s u h => ?_, fun r u hu => ?_⟩
      · exact Run.Alike.elim (Run.Alike.bind (pollAfterWrite_alike p r h) fun r _ _ h => pollContinue_alike p r h) hf.alike
      · cases r with
        | fail e => exact hgo (.again p.last) u hu
        | ok =>
          simp only [pollAfterWrite, Run.bind_elim]
          simp only [Run.bind_elim] at hread
          refine readRegister_later (by rw [hu]; exact hread) fun u => ?_
          simp only [stepRead, Run.bind_elim]
    rw [pollLoop_succ (by omega), pollLoop_succ (by omega)]
    simp only [pollIteration, Run.bind_elim]
    simp only [Run.bind_elim] at hwrite
    refine writeRegister_later (s := s.sleep p.req.delayMs) hwrite fun n u _ => ?_
    rw [hg]
    simp only [stepWrite, Run.bind_elim]

theorem pollStatus_later {req : PollReq} {ret : PollRet} {s : State}
    (hg : ∀ a v n q, g a v n (.selector q) = stepWrite a v n (.selector q))
    (hf : Follows g ws rs s.cfg (afterPoll ret)) :
    Later g ws rs ((pollStatus req ret s).elim (afterPoll ret))
      ((pollStatus req ret (s.moreAnswers ws rs)).elim (afterPoll ret)) :=
  pollLoop_later (p := ⟨req, 1, none, ret⟩) (by simp; omega) hg hf

/-! ## The Table Interpreter -/

theorem restOfTable_alike (t : TableId) (i : Nat) (ret : TableRet) (r : EntryResult) {s u : State}
    (h : SameButControl s u) : restOfTable t i ret r s = restOfTable t i ret r u := by
  cases r with
  | goOn =>
    simp only [restOfTable, h.cfg]
    split
    · rw [h]
      rfl
    · split
      · exact Run.Alike.elim (tableLoop_alike _ _ _ _ h) fun r _ _ h => afterTable_alike ret r h
      · rw [h]
        rfl
  | finished => exact afterTable_alike _ _ h
  | failed c => exact afterTable_alike _ _ h

/-- A table goes on from its entry `i` as from that entry and the rest. -/
theorem tableLoop_entry {t : TableId} {ret : TableRet} {es : List Entry} {i : Nat} {s : State}
    (hr : readTable s.cfg t = some es) (hi : i < es.length) :
    (tableLoop t ret (es.drop i) i s).elim (afterTable ret) =
      (runEntry t i ret es[i] s).elim (restOfTable t i ret) := by
  rw [List.drop_eq_getElem_cons hi, tableLoop]
  have hw := (runEntry_worked t i ret es[i] s).1
  rcases hx : runEntry t i ret es[i] s with ⟨r, u⟩ | u <;> rw [hx] at hw
  · have hc : u.cfg = s.cfg := hw.extended.cfg
    cases r <;> simp [restOfTable, hc, hr, hi]
  · rfl

theorem tableLoop_later {t : TableId} {ret : TableRet} {es : List Entry} {c : Cfg}
    (hr : readTable c t = some es) (hf : Follows goOnWrite ws rs c (afterTable ret)) :
    ∀ (n i : Nat) (s : State), es.length = i + n → s.cfg = c →
      Later goOnWrite ws rs ((tableLoop t ret (es.drop i) i s).elim (afterTable ret))
        ((tableLoop t ret (es.drop i) i (s.moreAnswers ws rs)).elim (afterTable ret)) := by
  intro n
  induction n with
  | zero =>
    intro i s hn _
    rw [List.drop_eq_nil_of_le (by omega)]
    exact .of_fault (by simp [tableLoop])
  | succ n ih =>
    intro i s hn hc
    subst hc
    have hi : i < es.length := by omega
    have hrest : ∀ r u, u.cfg = s.cfg → Later goOnWrite ws rs (restOfTable t i ret r u)
        (restOfTable t i ret r (u.moreAnswers ws rs)) := by
      intro r u hu
      cases r with
      | goOn =>
        simp only [restOfTable, State.moreAnswers_cfg, hu, hr, hi, if_true]
        exact ih (i + 1) u (by omega) hu
      | finished => exact hf.later _ _ hu
      | failed c => exact hf.later _ _ hu
    rw [tableLoop_entry hr hi, tableLoop_entry (s := s.moreAnswers ws rs) hr hi]
    simp only [runEntry, State.moreAnswers_cfg]
    cases entryKind s.cfg es[i] with
    | wait => exact hrest .goOn (s.sleep (waitMs es[i].value)) rfl
    | endTable => exact hrest .finished s rfl
    | wr =>
      simp only [entryWr, Run.bind_elim]
      refine writeRegister_later ⟨fun r _ _ h => restOfTable_alike _ _ _ _ h, fun r u hu => hrest _ _ hu⟩ fun n u _ => ?_
      simp only [goOnWrite, Run.bind_elim]

theorem applyTable_later {t : TableId} {ret : TableRet} {s : State} (hf : Follows goOnWrite ws rs s.cfg (afterTable ret)) :
    Later goOnWrite ws rs ((applyTable t ret s).elim (afterTable ret))
      ((applyTable t ret (s.moreAnswers ws rs)).elim (afterTable ret)) := by
  simp only [applyTable, State.moreAnswers_cfg]
  rcases hr : readTable s.cfg t with _ | es
  · exact .of_fault (by simp)
  · exact tableLoop_later hr hf es.length 0 s (by omega) rfl

/-! ## The callers of a table and of a poll -/

theorem goOnWrite_selector (a v : Word) (n : Nat) (q : Poll) :
    goOnWrite a v n (.selector q) = stepWrite a v n (.selector q) := rfl

theorem afterPoll_follows_request (c : Cfg) : Follows goOnWrite ws rs c (afterPoll .request) :=
  ⟨fun r _ _ h => afterPoll_alike _ r h, fun _ _ _ => .finish _ _⟩

theorem afterModePoll_follows (c : Cfg) (l : Latch) : Follows goOnWrite ws rs c (afterPoll (.modePoll l)) :=
  ⟨fun r _ _ h => afterPoll_alike _ r h, fun r _ _ => by cases r <;> exact .finish _ _⟩

theorem runModePoll_later (l : Latch) (s : State) :
    Later goOnWrite ws rs (runModePoll l s) (runModePoll l (s.moreAnswers ws rs)) :=
  pollStatus_later goOnWrite_selector (afterModePoll_follows _ l)

theorem afterPreviewTable_follows (c : Cfg) (l : Latch) : Follows goOnWrite ws rs c (afterTable (.previewTable l)) := by
  refine ⟨fun r _ _ h => afterTable_alike _ r h, fun r u _ => ?_⟩
  cases r
  · exact runModePoll_later l u
  · exact .finish _ _

theorem runPreviewTable_later (l : Latch) (s : State) :
    Later goOnWrite ws rs (runPreviewTable l s) (runPreviewTable l (s.moreAnswers ws rs)) := by
  unfold runPreviewTable
  split
  · exact applyTable_later (afterPreviewTable_follows _ l)
  · exact runModePoll_later l s

theorem afterModeTable_follows (c : Cfg) (l : Latch) : Follows goOnWrite ws rs c (afterTable (.modeTable l)) := by
  refine ⟨fun r _ _ h => afterTable_alike _ r h, fun r u _ => ?_⟩
  cases r
  · exact runPreviewTable_later l u
  · exact .finish _ _

theorem runModeTable_later (l : Latch) (s : State) :
    Later goOnWrite ws rs (runModeTable l s) (runModeTable l (s.moreAnswers ws rs)) :=
  applyTable_later (afterModeTable_follows _ l)

theorem afterInitPoll_follows (c : Cfg) (l : Latch) : Follows goOnWrite ws rs c (afterPoll (.initPoll l)) := by
  refine ⟨fun r _ _ h => afterPoll_alike _ r h, fun r u _ => ?_⟩
  cases r with
  | converged v => exact runModeTable_later l u
  | timeout last =>
    simp only [afterPoll, afterInitPoll]
    by_cases hx : u.cfg.initPollFatal = true
    · rw [if_pos hx]
      exact .finish _ _
    · rw [if_neg hx, if_neg (show ¬(u.moreAnswers ws rs).cfg.initPollFatal = true from hx)]
      exact runModeTable_later l (u.log .initPollTimeout u.cfg.statusResultAddr last)

theorem runInitPoll_later (l : Latch) (s : State) :
    Later goOnWrite ws rs (runInitPoll l s) (runInitPoll l (s.moreAnswers ws rs)) :=
  pollStatus_later goOnWrite_selector (afterInitPoll_follows _ l)

/-- Every caller of a table. -/
theorem afterTable_follows (c : Cfg) (ret : TableRet) : Follows goOnWrite ws rs c (afterTable ret) := by
  cases ret with
  | request => exact ⟨fun r _ _ h => afterTable_alike _ r h, fun _ _ _ => .finish _ _⟩
  | effect => exact ⟨fun r _ _ h => afterTable_alike _ r h, fun _ _ _ => .finish _ _⟩
  | initTable l =>
    refine ⟨fun r _ _ h => afterTable_alike _ r h, fun r u _ => ?_⟩
    cases r
    · exact runInitPoll_later l u
    · exact .finish _ _
  | modeTable l => exact afterModeTable_follows c l
  | previewTable l => exact afterPreviewTable_follows c l

/-! ## The commands -/

theorem setMode_later (w h : Long) (s : State) :
    Later goOnWrite ws rs (setMode w h s) (setMode w h (s.moreAnswers ws rs)) := by
  unfold setMode
  split
  · exact .finish _ _
  · rename_i m _
    by_cases hx : s.initialized = true
    · rw [if_pos hx, if_pos (show (s.moreAnswers ws rs).initialized = true from hx)]
      exact runModeTable_later ⟨m, true⟩ s
    · rw [if_neg hx, if_neg (show ¬(s.moreAnswers ws rs).initialized = true from hx)]
      exact applyTable_later (afterTable_follows _ (.initTable ⟨m, false⟩))

theorem setEffect_later (code value : Long) (s : State) :
    Later goOnWrite ws rs (setEffect code value s) (setEffect code value (s.moreAnswers ws rs)) := by
  unfold setEffect
  split
  · exact .finish _ _
  · exact applyTable_later (afterTable_follows _ .effect)

theorem harnessRead_later (a : Word) (s : State) :
    Later g ws rs ((readRegister .request a s).elim finishRead)
      ((readRegister .request a (s.moreAnswers ws rs)).elim finishRead) :=
  readRegister_later ⟨fun _ _ _ h => finish_alike _ h, fun _ _ _ => .finish _ _⟩ fun _ => rfl

theorem harnessWrite_later (a v : Word) (s : State) :
    Later goOnWrite ws rs ((writeRegister .request a v s).elim finishWrite)
      ((writeRegister .request a v (s.moreAnswers ws rs)).elim finishWrite) :=
  writeRegister_later ⟨fun _ _ _ h => finish_alike _ h, fun _ _ _ => .finish _ _⟩ fun _ _ _ => rfl

theorem harnessPoll_later (req : PollReq) (s : State) :
    Later goOnWrite ws rs ((pollStatus req .request s).elim finishPoll)
      ((pollStatus req .request (s.moreAnswers ws rs)).elim finishPoll) :=
  pollStatus_later goOnWrite_selector (afterPoll_follows_request _)

/-- A WR entry run alone: its write goes on by one step. -/
theorem entryWr_later (t : TableId) (i : Nat) (ret : TableRet) (a v : Word) (s : State) :
    Later stepWrite ws rs ((entryWr t i ret a v s).elim (afterEntry t i ret))
      ((entryWr t i ret a v (s.moreAnswers ws rs)).elim (afterEntry t i ret)) := by
  simp only [entryWr, Run.bind_elim]
  refine writeRegister_later ⟨fun r s u h => ?_, fun r u _ => ?_⟩ fun n u _ => ?_
  · rw [h]
    cases r <;> rfl
  · cases r <;> exact .of_control (by simp [afterEntryWrite, afterEntry]) (by simp [afterEntryWrite, afterEntry])
  · simp only [stepWrite, Run.bind_elim]

end Sys2Proof.Machine
end

