-- ==== Sys2Proof/Laws/Word.lean ====
section
/-! SUPPORT. Taking a value to bytes and back (20_memory.md R66), and the sentinels of the block's own configuration. -/

namespace Sys2Proof

@[simp] theorem be16_bytes (v : Word) : be16 (hiByte v) (loByte v) = v := by
  unfold be16 hiByte loByte
  ext i hi
  simp
  grind

@[simp] theorem words_of_long (v : Long) : (hiWord v ++ loWord v : Long) = v := by
  unfold hiWord loWord
  ext i hi
  simp
  grind

@[simp] theorem be32_bytes (v : Long) :
    be32 (hiByte (hiWord v)) (loByte (hiWord v)) (hiByte (loWord v)) (loByte (loWord v)) = v := by
  simp [be32]

@[simp] theorem hiWord_append (a v : Word) : hiWord (a ++ v) = a := by
  unfold hiWord
  ext i hi
  simp
  try grind

@[simp] theorem loWord_append (a v : Word) : loWord (a ++ v) = v := by
  unfold loWord
  ext i hi
  simp
  try grind

@[simp] theorem unpack_pack (e : Entry) : unpackEntry (packEntry e) = e := by
  simp [unpackEntry, packEntry]

@[simp] theorem pack_unpack (w : Long) : packEntry (unpackEntry w) = w := by
  simp [unpackEntry, packEntry]

/-- `{d0, d1} = d0 * 256 + d1` (20_memory.md R65). -/
theorem be16_toNat (hi lo : Byte) : (be16 hi lo).toNat = hi.toNat * 256 + lo.toNat := by
  have h : lo.toNat < 2 ^ 8 := lo.isLt
  unfold be16
  rw [BitVec.toNat_append, ← Nat.shiftLeft_add_eq_or_of_lt h, Nat.shiftLeft_eq]

/-- The two sentinels of the block's own configuration differ (30_encoding.md R101). -/
theorem Config.sentinels_differ : Config.cfg.waitAddr ≠ Config.cfg.endAddr := by
  have h : Config.waitAddr ≠ Config.waitAddr + BitVec.ofNat 16 (Config.endGap.val + 1) := by
    intro h
    have h2 := congrArg BitVec.toNat h
    have := Config.endGap.isLt
    have := Config.waitAddr.isLt
    simp [BitVec.toNat_add, BitVec.toNat_ofNat] at h2
    omega
  exact h

end Sys2Proof
end

