-- ==== Sys2Proof/Machine/Assembler.lean ====
section
/-! DEFINITION. The assembler (30_encoding.md R118, R119): one statement per line, numbers in decimal or `0x` hexadecimal. It is
no part of the RSE's state or steps: it turns text into tables of entries and into frames. -/

namespace Sys2Proof.Machine

/-- Why a statement is refused. -/
inductive AsmError where
  /-- An operand is no number (and no name its place allows). -/
  | badOperand
  /-- A number does not fit its operand. -/
  | outOfRange
  /-- A WR at a sentinel address (30_encoding.md R119). -/
  | sentinelAddress
  /-- A WAIT of more than 65535 ms (30_encoding.md R119). -/
  | delayTooLong
  /-- No statement has this mnemonic or this number of operands. -/
  | noStatement
  /-- No table has this name. -/
  | unknownTable
  /-- An entry that stands in no table. -/
  | entryOutsideTable
  deriving DecidableEq, Repr

/-- Table names with their ids: the spec gives a table no way to state its id, so the names come from outside (log 22). -/
abbrev TableNames := List (List Char × TableId)

/-! ## Lexing -/

def isSpace (c : Char) : Bool := c = ' ' || c = '\t'

/-- Without white space at either end. -/
def trim (cs : List Char) : List Char := ((cs.dropWhile isSpace).reverse.dropWhile isSpace).reverse

/-- The parts between the occurrences of a character. -/
def splitAt (sep : Char) : List Char → List (List Char)
  | [] => [[]]
  | c :: cs =>
    match splitAt sep cs with
    | [] => [[c]]
    | w :: ws => if c = sep then [] :: w :: ws else (c :: w) :: ws

/-- A line without its comment, which starts at `;`. -/
def withoutComment (cs : List Char) : List Char := cs.takeWhile fun c => c ≠ ';'

/-- The mnemonic and the operands of a statement: the operands are separated by commas. -/
def statement (cs : List Char) : List Char × List (List Char) :=
  let body := trim (withoutComment cs)
  let rest := trim (body.dropWhile fun c => !isSpace c)
  (body.takeWhile fun c => !isSpace c, if rest.isEmpty then [] else (splitAt ',' rest).map trim)

/-! ## Numbers -/

def decDigit (c : Char) : Option Nat := if '0' ≤ c ∧ c ≤ '9' then some (c.toNat - '0'.toNat) else none

def hexDigit (c : Char) : Option Nat :=
  if '0' ≤ c ∧ c ≤ '9' then some (c.toNat - '0'.toNat)
  else if 'a' ≤ c ∧ c ≤ 'f' then some (c.toNat - 'a'.toNat + 10)
  else if 'A' ≤ c ∧ c ≤ 'F' then some (c.toNat - 'A'.toNat + 10)
  else none

/-- The value of digits in a base, after the value `acc` of those before. -/
def digits (base : Nat) (digit : Char → Option Nat) : Nat → List Char → Option Nat
  | acc, [] => some acc
  | acc, c :: cs =>
    match digit c with
    | some d => digits base digit (acc * base + d) cs
    | none => none

/-- A number in decimal or `0x` hexadecimal, of at least one digit. -/
def number : List Char → Option Nat
  | [] => none
  | ['0', 'x'] => none
  | '0' :: 'x' :: cs => digits 16 hexDigit 0 cs
  | cs => digits 10 decDigit 0 cs

/-- A number below `2 ^ n`. -/
def unsigned (n : Nat) (cs : List Char) : Except AsmError (BitVec n) :=
  match number cs with
  | none => .error .badOperand
  | some v => if v < 2 ^ n then .ok (BitVec.ofNat n v) else .error .outOfRange

/-- An s32: a number below `2 ^ 31`, or one up to `2 ^ 31` behind a minus sign (log 22). -/
def signed32 : List Char → Except AsmError Long
  | '-' :: cs =>
    match number cs with
    | none => .error .badOperand
    | some v => if v ≤ 2 ^ 31 then .ok (-BitVec.ofNat 32 v) else .error .outOfRange
  | cs =>
    match number cs with
    | none => .error .badOperand
    | some v => if v < 2 ^ 31 then .ok (BitVec.ofNat 32 v) else .error .outOfRange

/-! ## Statements (30_encoding.md R118) -/

/-- An item: one of the four names, or a number. -/
def itemOperand (cs : List Char) : Except AsmError Long :=
  if cs = "EFFECT".toList then .ok 0
  else if cs = "WHITE_BALANCE".toList then .ok 1
  else if cs = "BRIGHTNESS".toList then .ok 2
  else if cs = "SCENE".toList then .ok 3
  else unsigned 32 cs

/-- A table: a name, or an id. DESIGN CHOICE (log 22): an operand that is both a known name and a number is the name, since
30_encoding.md R118's `<name or id>` does not say which wins. -/
def tableOperand (names : TableNames) (cs : List Char) : Except AsmError TableId :=
  match names.find? fun p => p.1 = cs with
  | some p => .ok p.2
  | none =>
    match unsigned 16 cs with
    | .error .badOperand => .error .unknownTable
    | r => r

/-- The delay of a WAIT. -/
def delayOperand (cs : List Char) : Except AsmError Word :=
  match unsigned 16 cs with
  | .error .outOfRange => .error .delayTooLong
  | r => r

/-- The instruction a statement spells. -/
def instruction (names : TableNames) (m : List Char) (ops : List (List Char)) : Except AsmError Instr :=
  match ops with
  | [] =>
    if m = "OPEN".toList then .ok .openSession
    else if m = "CLOSE".toList then .ok .closeSession
    else if m = "GET_STATUS".toList then .ok .getStatus
    else if m = "END".toList then .ok (.endTable 0)
    else .error .noStatement
  | [a] =>
    if m = "READ_REG".toList then do .ok (.readReg (← unsigned 16 a))
    else if m = "APPLY_TABLE".toList then do .ok (.applyTable (← tableOperand names a))
    else if m = "WAIT".toList then do .ok (.wait (← delayOperand a))
    else .error .noStatement
  | [a, b] =>
    if m = "SET_MODE".toList then do .ok (.setMode (← unsigned 32 a) (← unsigned 32 b))
    else if m = "SET_EFFECT".toList then do .ok (.setEffect (← itemOperand a) (← signed32 b))
    else if m = "WRITE_REG".toList then do .ok (.writeReg (← unsigned 16 a) (← unsigned 16 b))
    else if m = "WR".toList then do .ok (.wr (← unsigned 16 a) (← unsigned 16 b))
    else .error .noStatement
  | [a, b, c, d, e, f] =>
    if m = "POLL_STATUS".toList then do
      .ok (.pollStatus (← unsigned 16 a) (← unsigned 16 b) (← unsigned 16 c) (← unsigned 16 d) (← unsigned 32 e)
        (← unsigned 32 f))
    else .error .noStatement
  | _ => .error .noStatement

/-- The code of an instruction; a WR at a sentinel address is refused (30_encoding.md R119). -/
def codeOf (cfg : Cfg) (i : Instr) : Except AsmError Code :=
  if i.wellFormed cfg then .ok (encode cfg i) else .error .sentinelAddress

/-- What a line is. -/
inductive Line where
  | blank
  | table (name : List Char)
  | code (c : Code)
  deriving DecidableEq, Repr

/-- The name of a table's header, `table <name>:`: whatever stands between, without white space at its ends (log 22). -/
def header (cs : List Char) : Option (List Char) :=
  let body := trim (withoutComment cs)
  if body.take 6 = "table ".toList ∧ body.getLast? = some ':' then some (trim (body.drop 6).dropLast) else none

/-- One line of text. -/
def assembleLine (cfg : Cfg) (names : TableNames) (cs : List Char) : Except AsmError Line :=
  match header cs with
  | some name => .ok (.table name)
  | none =>
    let s := statement cs
    if s.1.isEmpty then .ok .blank
    else do .ok (.code (← codeOf cfg (← instruction names s.1 s.2)))

/-! ## Programs -/

/-- What a text is assembled to: its tables by name, and the frames of its commands and requests in order. -/
structure Program where
  tables : List (List Char × List Entry)
  frames : List Presented
  deriving DecidableEq, Repr

/-- The program behind a line, from the program of the lines after it: `tables` of that one may start with entries that belong to
no header yet, which are kept under `loose`. -/
structure Partial where
  loose   : List Entry
  program : Program
  deriving DecidableEq, Repr

/-- A line in front of what follows it. DESIGN CHOICE (log 22), since 30_encoding.md R118 does not say what ends a table's block, nor
what two headers with one name mean: a header takes the entries behind it, up to the next header, the next command or request, or the
end of the text, and an entry behind a command or request stands in no table and is refused; each header makes a table of its own in
`Program.tables`, whatever its name. -/
def Line.before (l : Line) (p : Partial) : Except AsmError Partial :=
  match l with
  | .blank => .ok p
  | .table name => .ok ⟨[], { p.program with tables := (name, p.loose) :: p.program.tables }⟩
  | .code (.entry w) => .ok { p with loose := unpackEntry w :: p.loose }
  | .code (.frame port bytes) =>
    if p.loose.isEmpty then .ok { p with program := { p.program with frames := ⟨port, bytes⟩ :: p.program.frames } }
    else .error .entryOutsideTable

/-- The lines of a text, the last one first. -/
def assembleLines (cfg : Cfg) (names : TableNames) : List (List Char) → Except AsmError Partial
  | [] => .ok ⟨[], ⟨[], []⟩⟩
  | l :: ls => do (← assembleLine cfg names l).before (← assembleLines cfg names ls)

/-- A whole text (30_encoding.md R118, R119). -/
def assemble (cfg : Cfg) (names : TableNames) (text : List Char) : Except AsmError Program := do
  let p ← assembleLines cfg names (splitAt '\n' text)
  if p.loose.isEmpty then .ok p.program else .error .entryOutsideTable

end Sys2Proof.Machine
end

