-- ==== Sys2Proof/Tests/Slice0.lean ====
section
/-! SUPPORT. Tests on the reference configuration RC of 95_test_vectors.md, whose expected values are that file's; the smoke test of
the well-formedness checks; and a witness for the hypotheses of every obligation that has any. -/

namespace Sys2Proof.Tests

open Sys2Proof.Machine

/-! ## The reference configuration and states of 95_test_vectors.md, section 0 -/

def rcTables : List (TableId × List Entry) :=
  [(1, [⟨0x0010, 0x0001⟩, ⟨0, 5⟩, ⟨0x0012, 0x00AB⟩, ⟨1, 0⟩]), (2, [⟨0x0300, 0x0002⟩, ⟨1, 0⟩]),
    (3, [⟨0x0302, 0x0001⟩, ⟨1, 0⟩]), (4, [⟨0x0100, 0x0320⟩, ⟨0x0102, 0x0258⟩, ⟨1, 0⟩]),
    (5, [⟨0x0100, 0x0280⟩, ⟨0x0102, 0x01E0⟩, ⟨1, 0⟩]), (6, [⟨0x0200, 0x0001⟩, ⟨1, 0⟩])] ++
  [(10, [⟨0x0600, 0x0000⟩, ⟨1, 0⟩]), (11, [⟨0x0600, 0x0010⟩, ⟨1, 0⟩]), (20, [⟨0x0610, 0x0000⟩, ⟨1, 0⟩]),
    (21, [⟨0x0610, 0x0001⟩, ⟨1, 0⟩]), (30, [⟨0x0620, 0x0000⟩, ⟨1, 0⟩]), (40, [⟨0x0630, 0x0000⟩, ⟨1, 0⟩])] ++
  [(100, [⟨0x0400, 0x1111⟩, ⟨0, 2⟩, ⟨0x0402, 0x2222⟩, ⟨0x0404, 0x3333⟩, ⟨1, 0⟩]), (101, [⟨1, 0⟩]),
    (102, [⟨0x0500, 0x0001⟩]), (103, [⟨0, 0⟩, ⟨0, 3⟩, ⟨1, 0⟩]), (104, [⟨0, 5⟩, ⟨0x0700, 0x0001⟩, ⟨1, 0⟩]),
    (105, [⟨0x0800, 0x0001⟩, ⟨1, 0⟩, ⟨0x0801, 0x0002⟩])]

def rc : Cfg where
  devAddr           := 0x3C
  writeRetries      := 2
  writeRetryDelayMs := 10
  waitAddr          := 0x0000
  endAddr           := 0x0001
  statusSelAddr     := 0x00F0
  statusSelValue    := 0x0104
  statusResultAddr  := 0x00F2
  powerOnHook       := true
  powerOffHook      := true
  tInit             := 1
  tMode1600x1200    := 2
  tMode1280x720     := 3
  tMode800x600      := 4
  tMode640x480      := 5
  tReturnPreview    := 6
  effect            := ⟨[(1, 21)], 20⟩
  whiteBalance      := ⟨[], 30⟩
  brightness        := ⟨[(1, 11)], 10⟩
  scene             := ⟨[], 40⟩
  tables            := rcTables

/-- `S0`. -/
def s0 : State := { State.reset with cfg := rc, attached := true }

/-- `Uninit`. -/
def uninit : State := { s0 with sessionOpen := true, transport := true }

/-- `Init(m)`. -/
def inited (m : ModeId) : State := { uninit with initialized := true, mode := some m }

/-- An open session without a transport. -/
def unattached : State := { uninit with transport := false }

/-- With these answers to come. -/
def answered (s : State) (ws : List WriteAnswer) (rs : List ReadAnswer) : State :=
  { s with writeAnswers := ws, readAnswers := rs }

/-- What a test looks at: the trace, and `S` as 95_test_vectors.md writes it. -/
structure Seen where
  trace       : List Event
  sessionOpen : Bool
  transport   : Bool
  initialized : Bool
  mode        : Option ModeId
  busy        : Bool
  fault       : Option FaultKind
  deriving DecidableEq, Repr

/-- The trace an instruction adds to an empty one, and what it left in `S`. -/
def seen (o : Outcome) : Option Seen :=
  match o with
  | .next t => some ⟨t.trace, t.sessionOpen, t.transport, t.initialized, t.mode, t.busy, t.fault⟩
  | .fault _ => none
  | .refused _ => none

/-- `IT(x)`. -/
def it (d0 d1 : Byte) : List Event :=
  [.sleep 50, .wr 0x00F0 0x0104 .ack, .rd 0x00F2 (some (be16 d0 d1))]

/-! ## Well-formedness: one ill-formed term for each check -/

theorem test_wf_rejects_wr_at_wait : (Instr.wr 0x0000 5).wellFormed rc = false := by decide
theorem test_wf_rejects_wr_at_end : (Instr.wr 0x0001 5).wellFormed rc = false := by decide
theorem test_wf_rejects_equal_sentinels : Cfg.wellFormed { rc with endAddr := 0x0000 } = false := by decide
theorem test_wf_rejects_repeated_table : Cfg.wellFormed { rc with tables := [(1, []), (1, [])] } = false := by decide
theorem test_wf_rejects_unsorted_tables : Cfg.wellFormed { rc with tables := [(2, []), (1, [])] } = false := by decide
theorem test_wf_accepts : rc.wellFormed = true ∧ (Instr.wr 0x0002 0x0000).wellFormed rc = true := by decide
theorem test_boot_ready : bootReady rc = true ∧ bootReady { rc with tInit := 102 } = false := by decide

/-! ## Decoding (95_test_vectors.md V-EN-01 to V-EN-23): words written out from 30_encoding.md R100, R104, R105 -/

theorem test_decode_open : decodeFrame .host [0x01] = .ok .openSession := by decide
theorem test_decode_close : decodeFrame .host [0x02] = .ok .closeSession := by decide
theorem test_decode_getStatus : decodeFrame .host [0x11] = .ok .getStatus := by decide
theorem test_decode_setMode :
    decodeFrame .host [0x10, 0x00, 0x00, 0x06, 0x40, 0x00, 0x00, 0x04, 0xB0] = .ok (.setMode 1600 1200) := by decide
theorem test_decode_setEffect :
    decodeFrame .host [0x12, 0x00, 0x00, 0x00, 0x02, 0x00, 0x00, 0x00, 0x63] = .ok (.setEffect 2 99) := by decide
theorem test_decode_readReg : decodeFrame .internal [0x20, 0x30, 0x12] = .ok (.readReg 0x3012) := by decide
theorem test_decode_writeReg :
    decodeFrame .internal [0x21, 0x30, 0x1A, 0x10, 0xDC] = .ok (.writeReg 0x301A 0x10DC) := by decide
theorem test_decode_pollStatus :
    decodeFrame .internal
      [0x22, 0x00, 0xF0, 0x01, 0x04, 0x00, 0xF2, 0x00, 0x03, 0x00, 0x00, 0x00, 0x32, 0x00, 0x00, 0x00, 0x32] =
      .ok (.pollStatus 0x00F0 0x0104 0x00F2 3 50 50) := by decide
theorem test_decode_applyTable : decodeFrame .internal [0x23, 0x00, 0x64] = .ok (.applyTable 100) := by decide
theorem test_decode_wr :
    decode rc (.entry 0x00100001) = .ok (.wr 0x0010 0x0001) ∧
    decode rc (.entry 0xFFFFFFFF) = .ok (.wr 0xFFFF 0xFFFF) := by decide
theorem test_decode_wait :
    decode rc (.entry 0x00000005) = .ok (.wait 5) ∧ decode rc (.entry 0x0000FFFF) = .ok (.wait 65535) := by decide
theorem test_decode_end : decode rc (.entry 0x0001ABCD) = .ok (.endTable 0xABCD) := by decide
theorem test_decode_illegal :
    decodeFrame .host [0xFF] = .error (.unassignedOpcode 0xFF) ∧
    decodeFrame .host [0x20, 0x30, 0x12] = .error (.wrongPort 0x20) ∧
    decodeFrame .host [0x10, 0x00, 0x00] = .error (.shortFrame 0x10) ∧
    decodeFrame .internal [0x01] = .error (.wrongPort 0x01) := by decide

/-- spec/opcode_table.json gives OPEN the pattern 0x01 and WRITE_REG 40 bits with the opcode on top. -/
theorem test_table_words :
    decodeTableWord 8 0x01 = some .openSession ∧ decodeTableWord 40 0x21301A10DC = some (.writeReg 0x301A 0x10DC) ∧
    decodeTableWord 8 0x10 = some (.setMode 0 0) ∧ decodeTableWord 8 0xFF = none := by decide

/-- The placed instruction is the one the next step runs: CLOSE from reset, which has no session. -/
theorem test_fetch :
    step (State.reset.withFetchWord 8 0x02) = .next { State.reset with fault := some .noSession } := rfl

/-! ## The assembler (V-EN-06 to V-EN-08) -/

theorem test_asm_refuses_sentinel : assembleLine rc [] "WR 0x0000, 5".toList = .error .sentinelAddress := by decide
theorem test_asm_refuses_delay : assembleLine rc [] "WAIT 65536".toList = .error .delayTooLong := by decide
theorem test_asm_end : assembleLine rc [] "    END   ; the end".toList = .ok (.code (.entry 0x00010000)) := by decide
theorem test_asm_setEffect :
    assembleLine rc [] "SET_EFFECT EFFECT, -1".toList =
      .ok (.code (.frame .host [0x12, 0x00, 0x00, 0x00, 0x00, 0xFF, 0xFF, 0xFF, 0xFF])) := by decide
theorem test_asm_program :
    assemble rc [("harness".toList, 103)] "table harness:\n  WAIT 0\n  WAIT 3\n  END\nAPPLY_TABLE harness".toList =
      .ok ⟨[("harness".toList, [⟨0, 0⟩, ⟨0, 3⟩, ⟨1, 0⟩])], [⟨.internal, [0x23, 0x00, 0x67]⟩]⟩ := by decide

/-- The choices of log 22: a command ends a table's block, and two headers with one name are two tables. -/
theorem test_asm_blocks :
    assemble rc [] "table a:\n  END\nOPEN\n  END".toList = .error .entryOutsideTable ∧
    assemble rc [] "table a:\n  END\ntable a:\n  WAIT 3\nOPEN".toList =
      .ok ⟨[("a".toList, [⟨1, 0⟩]), ("a".toList, [⟨0, 3⟩])], [⟨.host, [0x01]⟩]⟩ := by decide

/-! ## One step of each instruction (95_test_vectors.md, sections 2.2 to 2.6) -/

/-- V-CS-01. -/
theorem test_open :
    seen (exec .openSession s0) =
      some ⟨[.cmd .openSession, .hook .powerOn, .result .ok], true, true, false, none, false, none⟩ := by decide

/-- V-CS-04. -/
theorem test_open_twice : seen (exec .openSession uninit) = some ⟨[], true, true, false, none, false, some .sessionOpen⟩ := by
  decide

/-- V-CS-09. -/
theorem test_close :
    seen (exec .closeSession (inited .m640x480)) =
      some ⟨[.cmd .closeSession, .hook .powerOff, .result .ok], false, false, false, none, false, none⟩ := by decide

/-- V-CS-08. -/
theorem test_getStatus :
    seen (exec .getStatus (inited .m800x600)) =
      some ⟨[.cmd .getStatus, .result .ok], true, true, true, some .m800x600, false, none⟩ := by decide

/-- V-CS-05. -/
theorem test_getStatus_noSession :
    seen (exec .getStatus s0) = some ⟨[], false, false, false, none, false, some .noSession⟩ := by decide

/-- V-MS-05: capture to preview on an initialized session. -/
theorem test_setMode_toPreview :
    seen (exec (.setMode 640 480) (answered (inited .m1600x1200) [.ack, .ack, .ack, .ack] [.ack 0x00 0x03])) =
      some ⟨[.cmd (.setMode 640 480), .wr 0x0100 0x0280 .ack, .wr 0x0102 0x01E0 .ack, .wr 0x0200 0x0001 .ack] ++
        it 0x00 0x03 ++ [.result .ok], true, true, true, some .m640x480, false, none⟩ := by decide

/-- V-MS-04: the first SET_MODE of a session, to a capture mode. -/
theorem test_setMode_firstUse :
    seen (exec (.setMode 1600 1200)
        (answered uninit [.ack, .ack, .ack, .ack, .ack] [.ack 0x00 0x03, .ack 0x00 0x07])) =
      some ⟨[.cmd (.setMode 1600 1200), .wr 0x0010 0x0001 .ack, .sleep 5, .wr 0x0012 0x00AB .ack] ++ it 0x00 0x03 ++
        [.wr 0x0300 0x0002 .ack] ++ it 0x00 0x07 ++ [.result .ok], true, true, true, some .m1600x1200, false, none⟩ := by
  decide

/-- V-MS-17. -/
theorem test_setEffect_failed :
    seen (exec (.setEffect 2 1) (answered (inited .m800x600) [.nak, .nak, .nak] [])) =
      some ⟨[.cmd (.setEffect 2 1), .wr 0x0600 0x0010 .nak, .log .writeRetry 0x0600 (some 0x0010), .sleep 10,
        .wr 0x0600 0x0010 .nak, .log .writeRetry 0x0600 (some 0x0010), .sleep 10, .wr 0x0600 0x0010 .nak,
        .result (.fail (.writeError 0 .transferError))], true, true, true, some .m800x600, false, none⟩ := by decide

/-- V-MS-19. -/
theorem test_setEffect_default :
    seen (exec (.setEffect 1 0xFFFFFFFB) (answered (inited .m800x600) [.ack] [])) =
      some ⟨[.cmd (.setEffect 1 0xFFFFFFFB), .wr 0x0620 0x0000 .ack, .result .ok], true, true, true, some .m800x600,
        false, none⟩ := by decide

/-- V-BT-01. -/
theorem test_readReg :
    seen (exec (.readReg 0x3012) (answered uninit [] [.ack 0x12 0x34])) =
      some ⟨[.cmd (.readReg 0x3012), .rd 0x3012 (some 0x1234), .result (.okValue 0x1234)], true, true, false, none, false,
        none⟩ := by decide

/-- V-BT-02. -/
theorem test_readReg_nak :
    seen (exec (.readReg 0x3012) (answered uninit [] [.nak])) =
      some ⟨[.cmd (.readReg 0x3012), .rd 0x3012 none, .result (.fail .transferError)], true, true, false, none, false,
        none⟩ := by decide

/-- V-BT-06. -/
theorem test_writeReg_retry :
    seen (exec (.writeReg 0x301A 0x10DC) (answered uninit [.nak, .ack] [])) =
      some ⟨[.cmd (.writeReg 0x301A 0x10DC), .wr 0x301A 0x10DC .nak, .log .writeRetry 0x301A (some 0x10DC), .sleep 10,
        .wr 0x301A 0x10DC .ack, .result .ok], true, true, false, none, false, none⟩ := by decide

/-- V-BT-05: the bytes on the wire. -/
theorem test_writeReg_bytes :
    wire rc [.cmd (.writeReg 0x301A 0x10DC), .wr 0x301A 0x10DC .ack, .result .ok] =
      [⟨0x3C, [0x30, 0x1A, 0x10, 0xDC], some []⟩] := by decide

/-- V-SP-04. -/
theorem test_pollStatus_lastRead :
    seen (exec (.pollStatus 0x00F0 0x0104 0x00F2 3 20 3)
        (answered uninit [.ack, .ack, .ack] [.nak, .ack 0x00 0x05, .nak])) =
      some ⟨[.cmd (.pollStatus 0x00F0 0x0104 0x00F2 3 20 3), .sleep 20, .wr 0x00F0 0x0104 .ack, .rd 0x00F2 none,
        .sleep 20, .wr 0x00F0 0x0104 .ack, .rd 0x00F2 (some 5), .sleep 20, .wr 0x00F0 0x0104 .ack, .rd 0x00F2 none,
        .result (.timeout (some 5))], true, true, false, none, false, none⟩ := by decide

/-- V-SP-07: no read after a failed selector write. -/
theorem test_pollStatus_skips :
    seen (exec (.pollStatus 0x00F0 0x0104 0x00F2 3 50 3) (answered uninit [.nak, .nak, .nak, .ack] [.ack 0x00 0x03])) =
      some ⟨[.cmd (.pollStatus 0x00F0 0x0104 0x00F2 3 50 3), .sleep 50, .wr 0x00F0 0x0104 .nak,
        .log .writeRetry 0x00F0 (some 0x0104), .sleep 10, .wr 0x00F0 0x0104 .nak,
        .log .writeRetry 0x00F0 (some 0x0104), .sleep 10, .wr 0x00F0 0x0104 .nak] ++ it 0x00 0x03 ++
        [.result (.converged 3)], true, true, false, none, false, none⟩ := by decide

/-- V-TI-05, program P3. -/
theorem test_applyTable_aborts :
    seen (exec (.applyTable 100) (answered uninit [.ack, .nak, .nak, .nak] [])) =
      some ⟨[.cmd (.applyTable 100), .wr 0x0400 0x1111 .ack, .sleep 2, .wr 0x0402 0x2222 .nak,
        .log .writeRetry 0x0402 (some 0x2222), .sleep 10, .wr 0x0402 0x2222 .nak,
        .log .writeRetry 0x0402 (some 0x2222), .sleep 10, .wr 0x0402 0x2222 .nak,
        .result (.fail (.writeError 2 .transferError))], true, true, false, none, false, none⟩ := by decide

/-- V-TI-08. -/
theorem test_applyTable_overrun :
    seen (exec (.applyTable 102) (answered uninit [.ack] [])) =
      some ⟨[.cmd (.applyTable 102), .wr 0x0500 0x0001 .ack], true, true, false, none, true, some .tableOverrun⟩ := by
  decide

/-- A table standing at an entry. -/
def atCursor (t : TableId) (i : Nat) : State := { uninit with busy := true, control := .table t i .request }

/-- 42_table_interpreter.md R201, its example. -/
theorem test_wr :
    exec (.wr 0x0012 0x00AB) (answered (atCursor 1 2) [.ack] []) =
      .next { atCursor 1 3 with trace := [.wr 0x0012 0x00AB .ack] } := by rfl

/-- 42_table_interpreter.md R202, its example. -/
theorem test_wait : exec (.wait 5) (atCursor 1 1) = .next { atCursor 1 2 with trace := [.sleep 5] } := by rfl

/-- 42_table_interpreter.md R203, its example: no event, and the next step delivers the result. -/
theorem test_end : exec (.endTable 0) (atCursor 1 3) = .next { atCursor 1 3 with control := .tableDone .request .ok } := by
  rfl

/-! ## Witnesses: the hypotheses of the obligations can be met, each clause at a boundary of its range -/

theorem witness_DecodeOfEncode : rc.waitAddr ≠ rc.endAddr ∧ (Instr.wr 0x0002 0xFFFF).wellFormed rc = true ∧
    (Instr.endTable 0xFFFF).wellFormed rc = true := by decide

theorem witness_EntryKindByAddress :
    rc.wellFormed = true ∧ (⟨0x0000, 0xFFFF⟩ : Entry).addr = rc.waitAddr ∧
    ((⟨0x0001, 0xABCD⟩ : Entry).addr = rc.endAddr ∧ (⟨0x0001, 0xABCD⟩ : Entry).addr ≠ rc.waitAddr) ∧
    ((⟨0x0002, 0x0001⟩ : Entry).addr ≠ rc.waitAddr ∧ (⟨0x0002, 0x0001⟩ : Entry).addr ≠ rc.endAddr) := by decide

theorem witness_SpecFramesDecode : rc.waitAddr = 0 ∧ rc.endAddr = 1 := by decide

/-- The empty frame; an opcode of the other port on each port; a frame one byte too short. -/
theorem witness_IllegalFrameFaults :
    s0.fault = none ∧ s0.busy = false ∧ (s0.present .host []).port = some ⟨.host, []⟩ ∧
    isHostOpcode 0x20 = false ∧ isInternalOpcode 0x01 = false ∧
    ([0x00, 0x00, 0x06, 0x40, 0x00, 0x00, 0x04] : List Byte).length + 1 < frameLength 0x10 := by decide

theorem witness_StepRunsPresentedFrame :
    (s0.present .host [0x01]).fault = none ∧ (s0.present .host [0x01]).busy = false ∧
    (s0.present .host [0x01]).port = some ⟨.host, [0x01]⟩ ∧ decodeFrame .host [0x01] = .ok .openSession := by decide

/-- The first and the last entry of a table. -/
theorem witness_StepRunsEntryAtCursor :
    (atCursor 101 0).fault = none ∧ (atCursor 101 0).busy = true ∧ (atCursor 101 0).port = none ∧
    (atCursor 101 0).control = .table 101 0 .request ∧ readTable rc 101 = some [⟨1, 0⟩] ∧
    ([⟨1, 0⟩] : List Entry)[0]? = some ⟨1, 0⟩ ∧
    (readTable rc 1).bind (fun es => es[3]?) = some ⟨1, 0⟩ := by decide

theorem witness_FaultedMachineHasNoStep : (s0.raiseFault .noSession).fault = some .noSession := by decide

theorem witness_CommandWhileBusyFaults :
    (atCursor 1 0).fault = none ∧ (atCursor 1 0).busy = true ∧ isCommand .getStatus = true ∧
    ((atCursor 1 0).present .host [0xFF]).port = some ⟨.host, [0xFF]⟩ := by decide

theorem witness_SessionMisuseFaults :
    (uninit.fault = none ∧ uninit.busy = false ∧ uninit.sessionOpen = true) ∧
    (s0.fault = none ∧ s0.busy = false ∧ s0.sessionOpen = false ∧ isHostCommand .closeSession = true ∧
      Instr.closeSession ≠ .openSession) := by decide

theorem witness_IdleMachineWaits : s0.fault = none ∧ s0.busy = false ∧ s0.port = none := by decide

/-- With a hook that returns, without a hook, and with a session open. -/
theorem witness_OpenCreatesSession :
    (s0.fault = none ∧ s0.busy = false ∧ s0.sessionOpen = false ∧ s0.cfg.powerOnHook = true ∧ s0.hookReturns = true) ∧
    ({ s0 with cfg := { rc with powerOnHook := false }, hookReturns := false } : State).cfg.powerOnHook = false ∧
    (uninit.fault = none ∧ uninit.busy = false ∧ uninit.sessionOpen = true) := by decide

theorem witness_CloseEndsSession :
    ((inited .m640x480).fault = none ∧ (inited .m640x480).busy = false ∧ (inited .m640x480).sessionOpen = true ∧
      (inited .m640x480).cfg.powerOffHook = true ∧ (inited .m640x480).hookReturns = true) ∧
    (s0.fault = none ∧ s0.busy = false ∧ s0.sessionOpen = false) := by decide

theorem witness_GetStatusReadsNothing :
    (uninit.fault = none ∧ uninit.busy = false ∧ uninit.sessionOpen = true) ∧
    (s0.fault = none ∧ s0.busy = false ∧ s0.sessionOpen = false) := by decide

def stuckHook (s : State) : State := { s with hookReturns := false }

theorem witness_HookThatDoesNotReturnHolds :
    ((stuckHook s0).fault = none ∧ (stuckHook s0).busy = false ∧ (stuckHook s0).port = none ∧
      (stuckHook s0).hookReturns = false ∧ (stuckHook s0).sessionOpen = false ∧
      (stuckHook s0).cfg.powerOnHook = true) ∧
    ((stuckHook uninit).fault = none ∧ (stuckHook uninit).busy = false ∧ (stuckHook uninit).port = none ∧
      (stuckHook uninit).hookReturns = false ∧ (stuckHook uninit).sessionOpen = true ∧
      (stuckHook uninit).cfg.powerOffHook = true) := by decide

theorem ready_s0 (ws : List WriteAnswer) (rs : List ReadAnswer) : ready (answered s0 ws rs) := ⟨rfl, rfl⟩
theorem ready_uninit (ws : List WriteAnswer) (rs : List ReadAnswer) : ready (answered uninit ws rs) := ⟨rfl, rfl⟩
theorem ready_unattached : ready unattached := ⟨rfl, rfl⟩
theorem ready_inited (m : ModeId) (ws : List WriteAnswer) (rs : List ReadAnswer) :
    readyInSession (answered (inited m) ws rs) := ⟨⟨rfl, rfl⟩, rfl⟩
theorem session_uninit (ws : List WriteAnswer) (rs : List ReadAnswer) : readyInSession (answered uninit ws rs) :=
  ⟨⟨rfl, rfl⟩, rfl⟩

theorem witness_ReadRegOutcomes :
    (ready (answered uninit [] [.ack 0xFF 0xFF]) ∧ uninit.transport = true ∧
      (answered uninit [] [.ack 0xFF 0xFF]).readAnswers = .ack 0xFF 0xFF :: []) ∧
    (ready (answered uninit [] [.nak]) ∧ (answered uninit [] [.nak]).readAnswers = .nak :: []) ∧
    (ready unattached ∧ unattached.transport = false) :=
  ⟨⟨ready_uninit _ _, rfl, rfl⟩, ⟨ready_uninit _ _, rfl⟩, ready_unattached, rfl⟩

/-- No failed attempt; as many as the budget allows before success; the failure of all; no transport. -/
theorem witness_WriteRegOutcomes :
    (ready (answered uninit [.ack] []) ∧ (answered uninit [.ack] []).transport = true ∧
      0 ≤ rc.writeRetries.toNat ∧ [WriteAnswer.ack] = List.replicate 0 .nak ++ .ack :: []) ∧
    (2 ≤ rc.writeRetries.toNat ∧ [WriteAnswer.nak, .nak, .ack] = List.replicate 2 .nak ++ .ack :: []) ∧
    [WriteAnswer.nak, .nak, .nak] = failingAnswers rc ++ [] ∧
    (ready unattached ∧ unattached.transport = false) :=
  ⟨⟨ready_uninit _ _, rfl, by decide, rfl⟩, by decide, by decide, ready_unattached, rfl⟩

/-- READ_REG; a POLL_STATUS in its second iteration; the init poll of a SET_MODE. -/
theorem witness_ReadWaitsForItsAnswer :
    (ready (answered uninit [] []) ∧ (answered uninit [] []).port = none ∧ (answered uninit [] []).transport = true ∧
      (answered uninit [] []).readAnswers = []) ∧
    (∃ t p, (answered uninit [.ack, .ack] [.ack 0x00 0x05]).port = none ∧
      exec (.pollStatus 0x00F0 0x0104 0x00F2 3 50 2) (answered uninit [.ack, .ack] [.ack 0x00 0x05]) = .next t ∧
      t.busy = true ∧ t.fault = none ∧ t.control = .read 0x00F2 (.result p) ∧ p.k = 2 ∧ p.last = some 5) ∧
    (∃ t p, exec (.setMode 640 480) (answered uninit [.ack, .ack, .ack] []) = .next t ∧ t.busy = true ∧ t.fault = none ∧
      t.control = .read 0x00F2 (.result p) ∧ p.ret = .initPoll ⟨.m640x480, false⟩) ∧
    [ReadAnswer.nak] ≠ [] :=
  ⟨⟨ready_uninit _ _, rfl, rfl, rfl⟩, ⟨_, _, rfl, rfl, rfl, rfl, rfl, rfl, rfl⟩, ⟨_, _, rfl, rfl, rfl, rfl, rfl⟩, by decide⟩

/-- A WRITE_REG in its last attempt; the selector write of a POLL_STATUS; a WR entry of an APPLY_TABLE, of a SET_EFFECT, of the
init table of a SET_MODE, and alone at the cursor. -/
theorem witness_WriteWaitsForItsAnswer :
    (∃ t, ready (answered uninit [.nak, .nak] []) ∧ (answered uninit [.nak, .nak] []).port = none ∧
      (answered uninit [.nak, .nak] []).transport = true ∧
      exec (.writeReg 0x301A 0x10DC) (answered uninit [.nak, .nak] []) = .next t ∧ t.busy = true ∧
      [WriteAnswer.ack] ≠ []) ∧
    (∃ t p, (answered uninit [.nak] []).port = none ∧
      exec (.pollStatus 0x00F0 0x0104 0x00F2 3 50 1) (answered uninit [.nak] []) = .next t ∧ t.busy = true ∧
      t.fault = none ∧ t.control = .write 0x00F0 0x0104 2 (.selector p)) ∧
    (∃ t, exec (.applyTable 100) (answered uninit [.ack, .nak, .nak] []) = .next t ∧ t.busy = true ∧ t.fault = none ∧
      t.control = .write 0x0402 0x2222 3 (.entry 100 2 .request)) ∧
    (∃ t, exec (.setEffect 1 0) (answered uninit [] []) = .next t ∧ t.busy = true ∧ t.fault = none ∧
      t.control = .write 0x0620 0x0000 1 (.entry 30 0 .effect)) ∧
    (∃ t, exec (.setMode 640 480) (answered uninit [.ack] []) = .next t ∧ t.busy = true ∧ t.fault = none ∧
      t.control = .write 0x0012 0x00AB 1 (.entry 1 2 (.initTable ⟨.m640x480, false⟩))) ∧
    (∃ t, exec (.wr 0x0012 0x00AB) (atCursor 1 2) = .next t ∧ t.busy = true ∧ t.fault = none ∧
      t.control = .write 0x0012 0x00AB 1 (.entry 1 2 .request)) :=
  ⟨⟨_, ready_uninit _ _, rfl, rfl, rfl, rfl, by decide⟩, ⟨_, _, rfl, rfl, rfl, rfl, rfl⟩, ⟨_, rfl, rfl, rfl, rfl⟩,
    ⟨_, rfl, rfl, rfl, rfl⟩, ⟨_, rfl, rfl, rfl, rfl⟩, _, rfl, rfl, rfl, rfl⟩

/-- Iterations of each kind: the selector write fails; the read fails; another value is read after two failed attempts. -/
def missesOf3 : List IterationAnswers := [none, some (0, .nak), some (2, .ack 0x00 0x05)]

def hitOf3 : IterationAnswers := some (2, .ack 0x00 0x03)

theorem missesOf3_misses (c : Cfg) (h : c.writeRetries = 2) : misses c 3 missesOf3 := by
  intro x hx
  simp only [missesOf3, List.mem_cons, List.not_mem_nil, or_false] at hx
  rcases hx with rfl | rfl | rfl <;> (simp [iterationFits, iterationValue, readValue, h]; try decide)

theorem hitOf3_hits (c : Cfg) (h : c.writeRetries = 2) : hits c 3 hitOf3 := by
  simp [hits, hitOf3, iterationFits, iterationValue, readValue, h]
  decide

/-- Convergence in the last iteration of the budget, and in the first. -/
theorem witness_PollConvergesAtFirstHit :
    (ready (answered uninit (pollWrites rc (missesOf3 ++ [hitOf3]) ++ []) (pollReads (missesOf3 ++ [hitOf3]) ++ [])) ∧
      uninit.transport = true ∧ misses rc 3 missesOf3 ∧ hits rc 3 hitOf3 ∧ missesOf3.length < (4 : Long).toNat) ∧
    (misses rc 3 [] ∧ ([] : List IterationAnswers).length < (1 : Long).toNat) :=
  ⟨⟨ready_uninit _ _, rfl, missesOf3_misses rc rfl, hitOf3_hits rc rfl, by decide⟩, by simp [misses], by decide⟩

/-- The budget passes without the value, and a budget of none. -/
theorem witness_PollTimesOutWithLastRead :
    ((ready (answered uninit (pollWrites rc missesOf3 ++ []) (pollReads missesOf3 ++ [])) ∧ uninit.transport = true ∧
      misses rc 3 missesOf3 ∧ missesOf3.length = (3 : Long).toNat) ∧
    (misses rc 3 [] ∧ ([] : List IterationAnswers).length = (0 : Long).toNat)) ∧
    (ready unattached ∧ unattached.transport = false) :=
  ⟨⟨⟨ready_uninit _ _, rfl, missesOf3_misses rc rfl, by decide⟩, by simp [misses], by decide⟩, ready_unattached, rfl⟩

/-- The poll ran its whole budget of two and timed out. -/
theorem witness_PollStaysInBudget :
    ∃ t, ready (answered uninit [.ack, .ack] [.nak, .nak]) ∧
      exec (.pollStatus 0x00F0 0x0104 0x00F2 3 50 2) (answered uninit [.ack, .ack] [.nak, .nak]) = .next t ∧
      .result (.timeout none) ∈ t.trace := ⟨_, ready_uninit _ _, rfl, by decide⟩

theorem body100 : tableBody rc 100 [⟨0x0400, 0x1111⟩, ⟨0, 2⟩, ⟨0x0402, 0x2222⟩, ⟨0x0404, 0x3333⟩] :=
  ⟨by decide, ⟨1, 0⟩, [], by decide, by decide⟩

theorem body101 : tableBody rc 101 [] := ⟨by decide, ⟨1, 0⟩, [], by decide, by decide⟩

theorem witness_ApplyTableFaultFree :
    (ready (answered uninit [.ack, .ack, .ack] []) ∧ uninit.transport = true ∧
      tableBody rc 100 [⟨0x0400, 0x1111⟩, ⟨0, 2⟩, ⟨0x0402, 0x2222⟩, ⟨0x0404, 0x3333⟩] ∧
      [WriteAnswer.ack, .ack, .ack] = List.replicate
        (([⟨0x0400, 0x1111⟩, ⟨0, 2⟩, ⟨0x0402, 0x2222⟩, ⟨0x0404, 0x3333⟩] : List Entry).countP
          fun e => entryKind rc e = .wr) .ack ++ []) ∧
    tableBody rc 101 [] := ⟨⟨ready_uninit _ _, rfl, body100, by decide⟩, body101⟩

/-- Table 100's entries before its END, the second write after two failed attempts. -/
def entries100 : List (Entry × Nat) :=
  [(⟨0x0400, 0x1111⟩, 0), (⟨0, 2⟩, 0), (⟨0x0402, 0x2222⟩, 2), (⟨0x0404, 0x3333⟩, 1)]

theorem entriesFit_rc (xs : List (Entry × Nat)) (h : xs.all (fun x => decide (entryKind rc x.1 ≠ .endTable ∧ x.2 ≤ 2)) = true) :
    entriesFit rc xs := by
  intro x hx
  have h2 : entryKind rc x.1 ≠ .endTable ∧ x.2 ≤ 2 := of_decide_eq_true (List.all_eq_true.1 h x hx)
  exact h2

/-- The whole table; its failure at the last WR; a table whose first entry fails. -/
theorem witness_ApplyTableOutcomes :
    (ready (answered uninit (tableWrites rc entries100 ++ []) []) ∧ uninit.transport = true ∧ entriesFit rc entries100 ∧
      tableBody rc 100 (entries100.map Prod.fst)) ∧
    (entriesFit rc (entries100.take 3) ∧ tableReaches rc 100 ((entries100.take 3).map Prod.fst) ⟨0x0404, 0x3333⟩) ∧
    tableReaches rc 100 [] ⟨0x0400, 0x1111⟩ :=
  ⟨⟨ready_uninit _ _, rfl, entriesFit_rc _ (by decide), body100⟩,
    ⟨entriesFit_rc _ (by decide), by decide, by decide, [⟨1, 0⟩], by decide⟩,
    by decide, by decide, _, rfl⟩

/-- Tables 104 and 103 (V-TI-07, V-TI-03). -/
theorem witness_ApplyTableWithoutTransport :
    (ready unattached ∧ unattached.transport = false ∧ (∀ e ∈ ([⟨0, 5⟩] : List Entry), entryKind rc e = .wait) ∧
      tableReaches rc 104 [⟨0, 5⟩] ⟨0x0700, 0x0001⟩) ∧
    ((∀ e ∈ ([⟨0, 0⟩, ⟨0, 3⟩] : List Entry), entryKind rc e = .wait) ∧ tableBody rc 103 [⟨0, 0⟩, ⟨0, 3⟩]) ∧
    tableReaches rc 1 [] ⟨0x0010, 0x0001⟩ :=
  ⟨⟨ready_unattached, rfl, by decide, by decide, by decide, [⟨1, 0⟩], by decide⟩,
    ⟨by decide, by decide, ⟨1, 0⟩, [], by decide, by decide⟩, by decide, by decide, _, rfl⟩

/-- A store whose one table is a WAIT with no END. -/
def waitsOnly : State := { unattached with cfg := { rc with tables := [(1, [⟨0, 7⟩])] } }

/-- An id that is in no store; a table with one entry and no END; the same without a transport. -/
theorem witness_TableFaults :
    (ready (answered uninit [] []) ∧ readTable rc 999 = none) ∧
    (ready (answered uninit (tableWrites rc [(⟨0x0500, 0x0001⟩, 2)] ++ []) []) ∧ uninit.transport = true ∧
      entriesFit rc [(⟨0x0500, 0x0001⟩, 2)] ∧
      readTable rc 102 = some ([(⟨0x0500, 0x0001⟩, 2)].map Prod.fst)) ∧
    (ready waitsOnly ∧ waitsOnly.transport = false ∧
      (∀ e ∈ ([⟨0, 7⟩] : List Entry), entryKind waitsOnly.cfg e = .wait) ∧ readTable waitsOnly.cfg 1 = some [⟨0, 7⟩]) :=
  ⟨⟨ready_uninit _ _, by decide⟩, ⟨ready_uninit _ _, rfl, entriesFit_rc _ (by decide), by decide⟩, ⟨rfl, rfl⟩, rfl, by decide,
    by decide⟩

theorem witness_WrEntryWritesRegister :
    (atCursor 1 2).fault = none ∧ (atCursor 1 2).control = .table 1 2 .request ∧ (atCursor 1 2).transport = true ∧
    (0 ≤ rc.writeRetries.toNat ∧ [WriteAnswer.ack] = List.replicate 0 .nak ++ .ack :: []) ∧
    (2 ≤ rc.writeRetries.toNat ∧ [WriteAnswer.nak, .nak, .ack] = List.replicate 2 .nak ++ .ack :: []) ∧
    [WriteAnswer.nak, .nak, .nak] = failingAnswers rc ++ [] ∧
    ({ atCursor 1 2 with transport := false } : State).transport = false := by decide

theorem witness_WaitEntrySleeps : (atCursor 1 1).fault = none ∧ (atCursor 1 1).control = .table 1 1 .request := by decide

theorem witness_EndEntryEndsTable :
    ((atCursor 1 3).fault = none ∧ (atCursor 1 3).control = .table 1 3 .request) ∧ (ready uninit ∧ tableBody rc 101 []) :=
  ⟨⟨rfl, rfl⟩, ⟨rfl, rfl⟩, body101⟩

theorem witness_EntryNeedsTable :
    s0.fault = none ∧ isCommand (.wait 5) = false ∧
    ∀ (t : TableId) (k : Nat) (ret : TableRet), s0.control ≠ .table t k ret :=
  ⟨rfl, rfl, fun _ _ _ h => by cases h⟩

/-- Before the first entry, and past the last. -/
theorem witness_SmallStepsAgreeWithBigStep :
    ((atCursor 102 0).fault = none ∧ (atCursor 102 0).busy = true ∧ (atCursor 102 0).port = none ∧
      (atCursor 102 0).control = .table 102 0 .request ∧ readTable rc 102 = some [⟨0x0500, 0x0001⟩] ∧
      0 ≤ ([⟨0x0500, 0x0001⟩] : List Entry).length) ∧
    (atCursor 102 1).control = .table 102 1 .request ∧ 1 ≤ ([⟨0x0500, 0x0001⟩] : List Entry).length := by decide

/-- V-MS-02's pairs. -/
theorem witness_SetModeRejectsOtherResolutions :
    readyInSession (answered (inited .m640x480) [] []) ∧
    ∀ p ∈ ([(1200, 1600), (640, 481), (0, 0), (0xFFFFFFFF, 0xFFFFFFFF)] : List (Long × Long)),
      ¬(p.1 = 1600 ∧ p.2 = 1200) ∧ ¬(p.1 = 1280 ∧ p.2 = 720) ∧ ¬(p.1 = 800 ∧ p.2 = 600) ∧ ¬(p.1 = 640 ∧ p.2 = 480) :=
  ⟨ready_inited _ _ _, fun p hp => by
    simp only [List.mem_cons, List.not_mem_nil, or_false] at hp
    rcases hp with rfl | rfl | rfl | rfl <;> decide⟩

/-! ### SET_MODE: RC with poll budgets of four and three -/

def rcShort : Cfg := { rc with initPollAttempts := 4, modePollAttempts := 3 }

def short (s : State) : State := { s with cfg := rcShort }

/-- `T_INIT` (table 1) with a failed attempt at its last write. -/
def entriesInit : List (Entry × Nat) := [(⟨0x0010, 0x0001⟩, 0), (⟨0, 5⟩, 0), (⟨0x0012, 0x00AB⟩, 1)]

/-- `T_MODE(M640x480)` (table 5), `T_MODE(M1600x1200)` (table 2) and `T_RETURN_PREVIEW` (table 6). -/
def entriesMode : List (Entry × Nat) := [(⟨0x0100, 0x0280⟩, 2), (⟨0x0102, 0x01E0⟩, 0)]

def entriesCapture : List (Entry × Nat) := [(⟨0x0300, 0x0002⟩, 0)]

def entriesPreview : List (Entry × Nat) := [(⟨0x0200, 0x0001⟩, 1)]

theorem fit_rcShort (xs : List (Entry × Nat)) (h : xs.all (fun x => decide (entryKind rc x.1 ≠ .endTable ∧ x.2 ≤ 2)) = true) :
    entriesFit rcShort xs := entriesFit_rc xs h

theorem bodyInit : tableBody rcShort rcShort.tInit (entriesInit.map Prod.fst) :=
  ⟨by decide, ⟨1, 0⟩, [], by decide, by decide⟩

theorem bodyMode : tableBody rcShort (tMode rcShort .m640x480) (entriesMode.map Prod.fst) :=
  ⟨by decide, ⟨1, 0⟩, [], by decide, by decide⟩

theorem bodyCapture : tableBody rcShort (tMode rcShort .m1600x1200) (entriesCapture.map Prod.fst) :=
  ⟨by decide, ⟨1, 0⟩, [], by decide, by decide⟩

theorem bodyPreview : tableBody rcShort rcShort.tReturnPreview (entriesPreview.map Prod.fst) :=
  ⟨by decide, ⟨1, 0⟩, [], by decide, by decide⟩

/-- What the mode poll of a preview-class mode misses with, within a budget of three. -/
def modeMisses : List IterationAnswers := [none, some (0, .nak)]

theorem modeMisses_misses (v : Word) : misses rcShort v modeMisses := by
  intro x hx
  simp only [modeMisses, List.mem_cons, List.not_mem_nil, or_false] at hx
  rcases hx with rfl | rfl <;> simp [iterationFits, iterationValue, readValue]

/-- As many as the budget of three. -/
theorem noneModeMisses_misses (v : Word) : misses rcShort v (none :: modeMisses) := by
  intro x hx
  rcases List.mem_cons.1 hx with rfl | hx
  · simp [iterationFits, iterationValue]
  · exact modeMisses_misses v x hx

def hit7 : IterationAnswers := some (0, .ack 0x00 0x07)

theorem hit7_hits : hits rcShort 7 hit7 := by
  simp [hits, hit7, iterationFits, iterationValue, readValue]
  decide

/-- Both polls converge in the last iteration of their budget. -/
theorem witness_SetModeFirstUse :
    readyInSession (answered (short uninit)
      (tableWrites rcShort entriesInit ++ pollWrites rcShort (missesOf3 ++ [hitOf3]) ++ tableWrites rcShort entriesMode ++
        pollWrites rcShort (modeMisses ++ [hitOf3]) ++ [])
      (pollReads (missesOf3 ++ [hitOf3]) ++ pollReads (modeMisses ++ [hitOf3]) ++ [])) ∧
    (short uninit).transport = true ∧ (short uninit).initialized = false ∧
    tableBody rcShort rcShort.tInit (entriesInit.map Prod.fst) ∧ entriesFit rcShort entriesInit ∧
    tableBody rcShort (tMode rcShort .m640x480) (entriesMode.map Prod.fst) ∧ entriesFit rcShort entriesMode ∧
    misses rcShort rcShort.initExpect missesOf3 ∧ hits rcShort rcShort.initExpect hitOf3 ∧
    missesOf3.length < rcShort.initPollAttempts.toNat ∧
    misses rcShort (expectedFor rcShort .m640x480) modeMisses ∧ hits rcShort (expectedFor rcShort .m640x480) hitOf3 ∧
    modeMisses.length < rcShort.modePollAttempts.toNat :=
  ⟨⟨⟨rfl, rfl⟩, rfl⟩, rfl, rfl, bodyInit, fit_rcShort _ (by decide), bodyMode, fit_rcShort _ (by decide),
    missesOf3_misses rcShort rfl, hitOf3_hits rcShort rfl, by decide, modeMisses_misses _, hitOf3_hits rcShort rfl,
    by decide⟩

/-- A preview-class mode, and a capture-class one. -/
theorem witness_SetModeInitialized :
    (readyInSession (answered (short (inited .m640x480))
        (tableWrites rcShort entriesMode ++ tableWrites rcShort entriesPreview ++
          pollWrites rcShort (modeMisses ++ [hitOf3]) ++ []) (pollReads (modeMisses ++ [hitOf3]) ++ [])) ∧
      (short (inited .m640x480)).transport = true ∧ (short (inited .m640x480)).initialized = true ∧
      tableBody rcShort (tMode rcShort .m640x480) (entriesMode.map Prod.fst) ∧ entriesFit rcShort entriesMode ∧
      (modeClass .m640x480 = .preview → tableBody rcShort rcShort.tReturnPreview (entriesPreview.map Prod.fst)) ∧
      entriesFit rcShort entriesPreview ∧ (modeClass .m640x480 = .capture → entriesPreview = []) ∧
      misses rcShort (expectedFor rcShort .m640x480) modeMisses ∧ hits rcShort (expectedFor rcShort .m640x480) hitOf3 ∧
      modeMisses.length < rcShort.modePollAttempts.toNat) ∧
    (tableBody rcShort (tMode rcShort .m1600x1200) (entriesCapture.map Prod.fst) ∧ entriesFit rcShort entriesCapture ∧
      (modeClass .m1600x1200 = .preview → tableBody rcShort rcShort.tReturnPreview (([] : List (Entry × Nat)).map Prod.fst)) ∧
      misses rcShort (expectedFor rcShort .m1600x1200) modeMisses ∧ hits rcShort (expectedFor rcShort .m1600x1200) hit7) :=
  ⟨⟨⟨⟨rfl, rfl⟩, rfl⟩, rfl, rfl, bodyMode, fit_rcShort _ (by decide), fun _ => bodyPreview, fit_rcShort _ (by decide),
      (by decide), modeMisses_misses _, hitOf3_hits rcShort rfl, by decide⟩,
    bodyCapture, fit_rcShort _ (by decide), (fun h => by cases h), modeMisses_misses _, hit7_hits⟩

/-- Four iterations that never read the value: the whole budget of the initialization poll. -/
def initMisses : List IterationAnswers := none :: missesOf3

theorem initMisses_misses : misses rcShort 3 initMisses := by
  intro x hx
  rcases List.mem_cons.1 hx with rfl | hx
  · simp [iterationFits, iterationValue]
  · exact missesOf3_misses rcShort rfl x hx

/-! What the tables and the polls of these configurations do, in the terms of Safety.lean. -/

theorem does_acked {s : State} {t : TableId} {xs : List (Entry × Nat)} (ht : s.transport = true) (hx : entriesFit s.cfg xs)
    (hb : tableBody s.cfg t (xs.map Prod.fst)) : tableDoes s t (tableEvents s.cfg xs) (tableWrites s.cfg xs) .ok :=
  .inl ⟨ht, xs, hx, .inl ⟨rfl, hb, rfl, rfl⟩⟩

theorem does_failed {s : State} {t : TableId} {xs : List (Entry × Nat)} {e : Entry} (ht : s.transport = true)
    (hx : entriesFit s.cfg xs) (hb : tableReaches s.cfg t (xs.map Prod.fst) e) :
    tableDoes s t (tableEvents s.cfg xs ++ failedWrite s.cfg e.addr e.value) (tableWrites s.cfg xs ++ failingAnswers s.cfg)
      (.writeError xs.length .transferError) :=
  .inl ⟨ht, xs, hx, .inr ⟨e, rfl, hb, rfl, rfl⟩⟩

theorem does_hit {s : State} {q : PollReq} {its : List IterationAnswers} {x : IterationAnswers} (ht : s.transport = true)
    (hm : misses s.cfg q.expected its) (hx : hits s.cfg q.expected x) (hl : its.length < q.maxAttempts.toNat) :
    pollDoes s q (pollEvents s.cfg q (its ++ [x])) (pollWrites s.cfg (its ++ [x])) (pollReads (its ++ [x]))
      (.converged q.expected) :=
  .inl ⟨ht, its, hm, .inl ⟨x, hx, hl, rfl, rfl, rfl, rfl⟩⟩

theorem does_miss {s : State} {q : PollReq} {its : List IterationAnswers} (ht : s.transport = true)
    (hm : misses s.cfg q.expected its) (hl : its.length = q.maxAttempts.toNat) :
    pollDoes s q (pollEvents s.cfg q its) (pollWrites s.cfg its) (pollReads its) (.timeout (lastRead its)) :=
  .inl ⟨ht, its, hm, .inr ⟨hl, rfl, rfl, rfl, rfl⟩⟩

theorem does_silent (s : State) (q : PollReq) (ht : s.transport = false) :
    pollDoes s q (List.replicate q.maxAttempts.toNat (.sleep q.delayMs)) [] [] (.timeout none) :=
  .inr ⟨ht, rfl, rfl, rfl, rfl⟩

/-- Without a transport, and with the WAITs of table 103 as the init table and the mode's. -/
def quiet : State :=
  { unattached with cfg := { rcShort with tInit := 103, tMode640x480 := 103, tReturnPreview := 103 } }

theorem quiet_waits : ∀ e ∈ ([⟨0, 0⟩, ⟨0, 3⟩] : List Entry), entryKind quiet.cfg e = .wait := by decide

theorem quiet_does : tableDoes quiet 103 [.sleep 0, .sleep 3] [] .ok :=
  .inr ⟨rfl, rfl, _, quiet_waits, rfl, .inl ⟨rfl, by decide, ⟨1, 0⟩, [], by decide, by decide⟩⟩

/-- Without a transport the mode's table fails at its first WR. -/
theorem quiet_fails : tableDoes quiet (tMode quiet.cfg .m1600x1200) [] [] (.writeError 0 .noDevice) :=
  .inr ⟨rfl, rfl, [], by decide, rfl, .inr ⟨⟨0x0300, 0x0002⟩, rfl, by decide, by decide, [⟨1, 0⟩], by decide⟩⟩

theorem init_does {s : State} (hc : s.cfg = rcShort) (ht : s.transport = true) :
    tableDoes s s.cfg.tInit (tableEvents rcShort entriesInit) (tableWrites rcShort entriesInit) .ok := by
  have := does_acked (s := s) (t := s.cfg.tInit) (xs := entriesInit) ht (by rw [hc]; exact fit_rcShort _ (by decide))
    (by rw [hc]; exact bodyInit)
  rwa [hc] at *

theorem mode_does {s : State} (hc : s.cfg = rcShort) (ht : s.transport = true) :
    tableDoes s (tMode s.cfg .m640x480) (tableEvents rcShort entriesMode) (tableWrites rcShort entriesMode) .ok := by
  have := does_acked (s := s) (t := tMode s.cfg .m640x480) (xs := entriesMode) ht
    (by rw [hc]; exact fit_rcShort _ (by decide)) (by rw [hc]; exact bodyMode)
  rwa [hc] at *

theorem preview_does {s : State} (hc : s.cfg = rcShort) (ht : s.transport = true) :
    tableDoes s s.cfg.tReturnPreview (tableEvents rcShort entriesPreview) (tableWrites rcShort entriesPreview) .ok := by
  have := does_acked (s := s) (t := s.cfg.tReturnPreview) (xs := entriesPreview) ht
    (by rw [hc]; exact fit_rcShort _ (by decide)) (by rw [hc]; exact bodyPreview)
  rwa [hc] at *

/-- Under either value of the policy flag, with a transport; and without one under the flag. -/
theorem witness_InitPollTimeoutPolicy :
    (∃ s last v ei ep em eq wi wp wm wq rp rq, readyInSession s ∧ s.initialized = false ∧
      tableDoes s s.cfg.tInit ei wi .ok ∧ pollDoes s (initPollReq s.cfg) ep wp rp (.timeout last) ∧
      s.cfg.initPollFatal = false ∧ tableDoes s (tMode s.cfg .m640x480) em wm .ok ∧
      pollDoes s (modePollReq s.cfg .m640x480) eq wq rq (.converged v) ∧
      s.writeAnswers = wi ++ wp ++ wm ++ wq ++ [] ∧ s.readAnswers = rp ++ rq ++ []) ∧
    (∃ s last ei ep wi wp rp, readyInSession s ∧ s.initialized = false ∧ tableDoes s s.cfg.tInit ei wi .ok ∧
      pollDoes s (initPollReq s.cfg) ep wp rp (.timeout last) ∧ s.cfg.initPollFatal = true ∧
      s.writeAnswers = wi ++ wp ++ [] ∧ s.readAnswers = rp ++ []) :=
  ⟨⟨answered (short uninit)
        (tableWrites rcShort entriesInit ++ pollWrites rcShort initMisses ++ tableWrites rcShort entriesMode ++
          pollWrites rcShort (modeMisses ++ [hitOf3]) ++ [])
        (pollReads initMisses ++ pollReads (modeMisses ++ [hitOf3]) ++ []),
      _, _, _, _, _, _, _, _, _, _, _, _, ⟨⟨rfl, rfl⟩, rfl⟩, rfl, init_does rfl rfl,
      does_miss rfl initMisses_misses (by decide), rfl, mode_does rfl rfl,
      does_hit rfl (modeMisses_misses _) (hitOf3_hits rcShort rfl) (by decide), rfl, rfl⟩,
    { quiet with cfg := { quiet.cfg with initPollFatal := true } }, _, _, _, _, _, _, ⟨⟨rfl, rfl⟩, rfl⟩, rfl,
      .inr ⟨rfl, rfl, _, quiet_waits, rfl, .inl ⟨rfl, by decide, ⟨1, 0⟩, [], by decide, by decide⟩⟩,
      does_silent _ _ rfl, rfl, rfl, rfl⟩

/-- The first entry fails, and the last. -/
theorem witness_InitTableFailureEndsSetMode :
    (readyInSession (answered uninit (tableWrites rc (entriesInit.take 2) ++ (failingAnswers rc ++ [])) []) ∧
      uninit.transport = true ∧ uninit.initialized = false ∧
      tableReaches rc rc.tInit ((entriesInit.take 2).map Prod.fst) ⟨0x0012, 0x00AB⟩ ∧
      entriesFit rc (entriesInit.take 2) ∧ tableReaches rc rc.tInit [] ⟨0x0010, 0x0001⟩) ∧
    (readyInSession unattached ∧ unattached.transport = false ∧ unattached.initialized = false ∧
      tableReaches rc rc.tInit [] ⟨0x0010, 0x0001⟩ ∧ ∀ x ∈ ([] : List Entry), entryKind rc x = .wait) :=
  ⟨⟨session_uninit _ _, rfl, rfl, ⟨by decide, by decide, [⟨1, 0⟩], by decide⟩, entriesFit_rc _ (by decide), by decide,
      by decide, _, rfl⟩,
    ⟨⟨rfl, rfl⟩, rfl⟩, rfl, rfl, ⟨by decide, by decide, _, rfl⟩, by decide⟩

/-- On an initialized session: the mode's table at its last WR, and the return-to-preview table. On one not initialized: after an
init poll that converged, and, without a transport, after one whose timeout was ignored. -/
theorem witness_LaterTableFailureEndsSetMode :
    (∃ s em wm k c, readyInSession s ∧ s.initialized = true ∧ tableDoes s (tMode s.cfg .m640x480) em wm (.writeError k c) ∧
      s.writeAnswers = wm ++ []) ∧
    (∃ s em wm er wr k c, readyInSession s ∧ s.initialized = true ∧ modeClass .m640x480 = .preview ∧
      tableDoes s (tMode s.cfg .m640x480) em wm .ok ∧ tableDoes s s.cfg.tReturnPreview er wr (.writeError k c) ∧
      s.writeAnswers = wm ++ wr ++ []) ∧
    (∃ s ei wi ep wp rp em wm k c, readyInSession s ∧ s.initialized = false ∧ tableDoes s s.cfg.tInit ei wi .ok ∧
      initPollPasses s ep wp rp ∧ tableDoes s (tMode s.cfg .m640x480) em wm (.writeError k c) ∧
      s.writeAnswers = wi ++ wp ++ wm ++ [] ∧ s.readAnswers = rp ++ []) ∧
    (readyInSession quiet ∧ quiet.initialized = false ∧ tableDoes quiet quiet.cfg.tInit [.sleep 0, .sleep 3] [] .ok ∧
      (∃ ep, initPollPasses quiet ep [] []) ∧
      tableDoes quiet (tMode quiet.cfg .m1600x1200) [] [] (.writeError 0 .noDevice) ∧
      quiet.writeAnswers = [] ++ [] ++ [] ++ [] ∧ quiet.readAnswers = [] ++ []) :=
  ⟨⟨answered (short (inited .m640x480)) ((tableWrites rcShort (entriesMode.take 1) ++ failingAnswers rcShort) ++ []) [],
      _, _, _, _, ⟨⟨rfl, rfl⟩, rfl⟩, rfl,
      does_failed (xs := entriesMode.take 1) (e := ⟨0x0102, 0x01E0⟩) rfl (fit_rcShort _ (by decide))
        ⟨by decide, by decide, [⟨1, 0⟩], by decide⟩, rfl⟩,
    ⟨answered (short (inited .m1600x1200)) (tableWrites rcShort entriesMode ++ (tableWrites rcShort [] ++
        failingAnswers rcShort) ++ []) [],
      _, _, _, _, _, _, ⟨⟨rfl, rfl⟩, rfl⟩, rfl, rfl, mode_does rfl rfl,
      does_failed (xs := []) (e := ⟨0x0200, 0x0001⟩) rfl (fit_rcShort _ (by decide)) ⟨by decide, by decide, [⟨1, 0⟩], by decide⟩,
      rfl⟩,
    ⟨answered (short uninit) (tableWrites rcShort entriesInit ++ pollWrites rcShort (missesOf3 ++ [hitOf3]) ++
        (tableWrites rcShort (entriesMode.take 1) ++ failingAnswers rcShort) ++ []) (pollReads (missesOf3 ++ [hitOf3]) ++ []),
      _, _, _, _, _, _, _, _, _, ⟨⟨rfl, rfl⟩, rfl⟩, rfl, init_does rfl rfl,
      .inl ⟨_, does_hit rfl (missesOf3_misses rcShort rfl) (hitOf3_hits rcShort rfl) (by decide)⟩,
      does_failed (xs := entriesMode.take 1) (e := ⟨0x0102, 0x01E0⟩) rfl (fit_rcShort _ (by decide))
        ⟨by decide, by decide, [⟨1, 0⟩], by decide⟩, rfl, rfl⟩,
    ⟨⟨rfl, rfl⟩, rfl⟩, rfl, quiet_does, ⟨_, .inr ⟨rfl, _, _, does_silent _ _ rfl, rfl⟩⟩, quiet_fails, rfl, rfl⟩

/-- A mode poll missed by a preview-class mode, with the return to preview, and by a capture-class one; V-TM-02, where both polls
of a first use time out; and both without a transport. -/
theorem witness_ModePollTimeoutIsTheResult :
    (∃ s em wm er wr eq wq rq last, readyInSession s ∧ tableDoes s (tMode s.cfg .m640x480) em wm .ok ∧
      pollDoes s (modePollReq s.cfg .m640x480) eq wq rq (.timeout last) ∧ s.initialized = true ∧
      (modeClass .m640x480 = .preview → tableDoes s s.cfg.tReturnPreview er wr .ok) ∧
      (modeClass .m640x480 = .capture → er = [] ∧ wr = []) ∧
      s.writeAnswers = wm ++ wr ++ wq ++ [] ∧ s.readAnswers = rq ++ []) ∧
    (∃ s em wm eq wq rq last, readyInSession s ∧ tableDoes s (tMode s.cfg .m1600x1200) em wm .ok ∧
      pollDoes s (modePollReq s.cfg .m1600x1200) eq wq rq (.timeout last) ∧ s.initialized = true ∧
      (modeClass .m1600x1200 = .preview → tableDoes s s.cfg.tReturnPreview [] [] .ok) ∧
      s.writeAnswers = wm ++ [] ++ wq ++ [] ∧ s.readAnswers = rq ++ []) ∧
    (∃ s ei wi ep wp rp em wm eq wq rq last, readyInSession s ∧ tableDoes s (tMode s.cfg .m640x480) em wm .ok ∧
      pollDoes s (modePollReq s.cfg .m640x480) eq wq rq (.timeout last) ∧ s.initialized = false ∧
      tableDoes s s.cfg.tInit ei wi .ok ∧ initPollPasses s ep wp rp ∧
      s.writeAnswers = wi ++ wp ++ wm ++ wq ++ [] ∧ s.readAnswers = rp ++ rq ++ []) ∧
    (readyInSession quiet ∧ quiet.initialized = false ∧ tableDoes quiet quiet.cfg.tInit [.sleep 0, .sleep 3] [] .ok ∧
      (∃ ep, initPollPasses quiet ep [] []) ∧
      tableDoes quiet (tMode quiet.cfg .m640x480) [.sleep 0, .sleep 3] [] .ok ∧
      ∃ eq, pollDoes quiet (modePollReq quiet.cfg .m640x480) eq [] [] (.timeout none)) :=
  ⟨⟨answered (short (inited .m800x600)) (tableWrites rcShort entriesMode ++ tableWrites rcShort entriesPreview ++
        pollWrites rcShort missesOf3 ++ []) (pollReads missesOf3 ++ []),
      _, _, _, _, _, _, _, _, ⟨⟨rfl, rfl⟩, rfl⟩, mode_does rfl rfl,
      does_miss rfl (missesOf3_misses rcShort rfl) (by decide), rfl, fun _ => preview_does rfl rfl, (fun h => by cases h), rfl,
      rfl⟩,
    ⟨answered (short (inited .m800x600)) (tableWrites rcShort entriesCapture ++ [] ++
        pollWrites rcShort (none :: modeMisses) ++ []) (pollReads (none :: modeMisses) ++ []),
      _, _, _, _, _, _, ⟨⟨rfl, rfl⟩, rfl⟩, does_acked (xs := entriesCapture) rfl (fit_rcShort _ (by decide)) bodyCapture,
      does_miss (its := none :: modeMisses) rfl (noneModeMisses_misses _) (by decide), rfl, (fun h => by cases h), rfl, rfl⟩,
    ⟨answered (short uninit) (tableWrites rcShort entriesInit ++ pollWrites rcShort initMisses ++
        tableWrites rcShort entriesMode ++ pollWrites rcShort missesOf3 ++ [])
        (pollReads initMisses ++ pollReads missesOf3 ++ []),
      _, _, _, _, _, _, _, _, _, _, _, ⟨⟨rfl, rfl⟩, rfl⟩, mode_does rfl rfl,
      does_miss rfl (missesOf3_misses rcShort rfl) (by decide), rfl, init_does rfl rfl,
      .inr ⟨rfl, _, _, does_miss rfl initMisses_misses (by decide), rfl⟩, rfl, rfl⟩,
    ⟨⟨rfl, rfl⟩, rfl⟩, rfl, quiet_does, ⟨_, .inr ⟨rfl, _, _, does_silent _ _ rfl, rfl⟩⟩, quiet_does, _, does_silent _ _ rfl⟩

/-- A SET_MODE that commits. -/
theorem witness_SetModeWritesSessionOnlyOnOk :
    ∃ t, ready (answered (inited .m640x480) [.ack, .ack] [.ack 0x00 0x07]) ∧
      exec (.setMode 1280 720) (answered (inited .m640x480) [.ack, .ack] [.ack 0x00 0x07]) = .next t ∧
      t.mode = some .m1280x720 := ⟨_, ⟨rfl, rfl⟩, rfl, by decide⟩

/-- The first unrecognized code; a table that ends; one that fails at its first entry, refused and for want of a transport; and a
table of WAITs without a transport. -/
theorem witness_SetEffectOutcomes :
    (readyInSession (answered (inited .m800x600) [] []) ∧ itemOf 4 = none) ∧
    (∃ s evs used, readyInSession s ∧ itemOf 3 = some .scene ∧ tableDoes s (effectTable s.cfg .scene 7) evs used .ok ∧
      s.writeAnswers = used ++ []) ∧
    (∃ s evs used k c, readyInSession s ∧ tableDoes s (effectTable s.cfg .scene 7) evs used (.writeError k c) ∧
      s.writeAnswers = used ++ [] ∧ s.transport = true) ∧
    (∃ evs, readyInSession unattached ∧
      tableDoes unattached (effectTable unattached.cfg .scene 7) evs [] (.writeError 0 .noDevice)) ∧
    ∃ s evs, readyInSession s ∧ tableDoes s (effectTable s.cfg .scene 7) evs [] .ok ∧ s.transport = false :=
  ⟨⟨ready_inited _ _ _, rfl⟩,
    ⟨answered uninit (tableWrites rc [(⟨0x0630, 0x0000⟩, 0)] ++ []) [], _, _, session_uninit _ _, rfl,
      does_acked (xs := [(⟨0x0630, 0x0000⟩, 0)]) rfl (entriesFit_rc _ (by decide)) ⟨by decide, ⟨1, 0⟩, [], by decide, by decide⟩,
      rfl⟩,
    ⟨answered uninit (tableWrites rc [] ++ failingAnswers rc ++ []) [], _, _, _, _, session_uninit _ _,
      does_failed (xs := []) (e := ⟨0x0630, 0x0000⟩) rfl (entriesFit_rc _ (by decide))
        ⟨by decide, by decide, [⟨1, 0⟩], by decide⟩, rfl, rfl⟩,
    ⟨_, ⟨⟨rfl, rfl⟩, rfl⟩, .inr ⟨rfl, rfl, [], by decide, rfl, .inr ⟨⟨0x0630, 0x0000⟩, rfl, by decide, by decide, [⟨1, 0⟩],
      by decide⟩⟩⟩,
    { quiet with cfg := { quiet.cfg with scene := ⟨[], 103⟩ } }, _, ⟨⟨rfl, rfl⟩, rfl⟩,
    .inr ⟨rfl, rfl, _, quiet_waits, rfl, .inl ⟨rfl, by decide, ⟨1, 0⟩, [], by decide, by decide⟩⟩, rfl⟩

theorem brightness_99 : ∀ p ∈ rc.brightness.recognized, p.1 ≠ 99 := by
  intro p hp
  simp only [rc, List.mem_cons, List.not_mem_nil, or_false] at hp
  subst hp
  decide

theorem witness_EffectTableSelection :
    (∀ p ∈ (effectRow rc .brightness).recognized, p.1 ≠ 99) ∧
    ((1, 11) : Long × TableId) ∈ (effectRow rc .brightness).recognized ∧
    ((effectRow rc .brightness).recognized.map Prod.fst).Nodup :=
  ⟨brightness_99, by simp [effectRow, rc], by simp [effectRow, rc]⟩

theorem witness_BrightnessDefaultTable :
    readyInSession (answered (inited .m800x600) [.ack] []) ∧ (inited .m800x600).transport = true ∧
    (∀ p ∈ rc.brightness.recognized, p.1 ≠ 99) ∧
    tableBody rc rc.brightness.defaultTable ([(⟨0x0600, 0x0000⟩, 0)].map Prod.fst) ∧
    entriesFit rc [(⟨0x0600, 0x0000⟩, 0)] ∧ [WriteAnswer.ack] = tableWrites rc [(⟨0x0600, 0x0000⟩, 0)] ++ [] :=
  ⟨ready_inited _ _ _, rfl, brightness_99, ⟨by decide, ⟨1, 0⟩, [], by decide, by decide⟩, entriesFit_rc _ (by decide),
    by decide⟩

/-! ### Frames and the whole machine -/

def isNext : Outcome → Bool
  | .next _ => true
  | .fault _ => false
  | .refused _ => false

theorem next_of {o : Outcome} (h : isNext o = true) : ∃ t, o = .next t := by
  cases o with
  | next t => exact ⟨t, rfl⟩
  | fault r => cases h
  | refused r => cases h

theorem witness_UnitRequestFrame :
    (∃ t, exec (.readReg 0x3012) (answered uninit [] [.nak]) = .next t) ∧
    (∃ t, exec (.writeReg 0x301A 0x10DC) (answered uninit [.ack] []) = .next t) ∧
    (∃ t, exec (.pollStatus 0x00F0 0x0104 0x00F2 3 50 1) (answered uninit [.ack] [.nak]) = .next t) ∧
    (∃ t, exec (.readReg 0x3012) (atCursor 1 0) = .next t) := ⟨next_of (by decide), next_of (by decide), next_of (by decide), next_of (by decide)⟩

theorem witness_TableCommandFrame :
    (∃ t, exec (.applyTable 101) uninit = .next t) ∧ (∃ t, exec (.setEffect 4 0) uninit = .next t) ∧
    (∃ t, exec .getStatus uninit = .next t) := ⟨next_of (by decide), next_of (by decide), next_of (by decide)⟩

theorem witness_EntryFrame :
    (isCommand (.wr 0x0012 0x00AB) = false ∧ ∃ t, exec (.wr 0x0012 0x00AB) (answered (atCursor 1 2) [.ack] []) = .next t) ∧
    (isCommand (.wait 5) = false ∧ ∃ t, exec (.wait 5) (atCursor 1 1) = .next t) ∧
    (isCommand (.endTable 0) = false ∧ ∃ t, exec (.endTable 0) (atCursor 1 3) = .next t) :=
  ⟨⟨rfl, _, rfl⟩, ⟨rfl, _, rfl⟩, rfl, _, rfl⟩

theorem witness_SetModeFrame : ∃ t, exec (.setMode 0 0) uninit = .next t := ⟨_, rfl⟩

theorem witness_SessionCommandFrame :
    (∃ t, exec .openSession s0 = .next t) ∧ (∃ t, exec .closeSession uninit = .next t) := ⟨next_of (by decide), next_of (by decide)⟩

theorem witness_ConfigurationIsConstant :
    (∃ t, step (s0.present .host [0x01]) = .next t) ∧ (∃ t, exec .openSession s0 = .next t) := ⟨next_of (by decide), next_of (by decide)⟩

theorem witness_StepOnlyAddsEvents : ∃ t, step (s0.present .host [0x01]) = .next t := ⟨_, rfl⟩

theorem inv_s0 (p : Port) (bytes : List Byte) : StateInv (s0.present p bytes) :=
  ⟨rfl, (fun h => by cases h), (fun h => by cases h), ⟨(fun h => by cases h), fun h => absurd rfl h⟩, trivial⟩

/-- A SET_MODE that waits in the second attempt of the first write of `T_INIT`. -/
def waiting : State :=
  { uninit with
    busy := true
    control := .write 0x0010 0x0001 2 (.entry 1 0 (.initTable ⟨.m640x480, false⟩))
    writeAnswers := [.ack] }

theorem inv_waiting : StateInv waiting :=
  ⟨rfl, by decide, by decide, by decide, rfl, by decide, by decide, rfl, rfl, rfl⟩

/-- A first SET_MODE that waits for the read of its mode poll. -/
def polling : State :=
  { uninit with
    busy := true
    control := .read 0x00F2 (.result ⟨modePollReq rc .m640x480, 1, none, .modePoll ⟨.m640x480, false⟩⟩)
    readAnswers := [.ack 0x00 0x03] }

theorem inv_polling : StateInv polling :=
  ⟨rfl, by decide, by decide, by decide, rfl, by decide, by decide, rfl, rfl⟩

/-- A CLOSE whose hook has returned. -/
def closing : State := { inited .m640x480 with busy := true, control := .hook .powerOff }

theorem inv_closing : StateInv closing := ⟨rfl, by decide, by decide, by decide, rfl⟩

/-- An idle machine with a frame, and one in the middle of a command. -/
theorem witness_StepKeepsInvariant :
    (StateInv (s0.present .host [0x01]) ∧ ∃ t, step (s0.present .host [0x01]) = .next t) ∧
    (StateInv waiting ∧ ∃ t, step waiting = .next t) :=
  ⟨⟨inv_s0 _ _, _, rfl⟩, inv_waiting, _, rfl⟩

theorem inv_uninit (ws : List WriteAnswer) (rs : List ReadAnswer) (p : Port) (bytes : List Byte) :
    StateInv ((answered uninit ws rs).present p bytes) :=
  ⟨rfl, (fun h => by cases h), fun _ => rfl, ⟨(fun h => by cases h), fun h => absurd rfl h⟩, trivial⟩

/-- A SET_MODE that initializes in the step that accepts its frame (program P1), and one that goes on to it from its mode poll; a
CLOSE that clears in the step that accepts its frame, and one after its hook. -/
theorem witness_OnlySetModeInitializes :
    (∃ t, StateInv ((answered uninit [.ack, .ack, .ack, .ack, .ack, .ack] [.ack 0x00 0x03, .ack 0x00 0x03]).present .host
        [0x10, 0x00, 0x00, 0x02, 0x80, 0x00, 0x00, 0x01, 0xE0]) ∧
      step ((answered uninit [.ack, .ack, .ack, .ack, .ack, .ack] [.ack 0x00 0x03, .ack 0x00 0x03]).present .host
        [0x10, 0x00, 0x00, 0x02, 0x80, 0x00, 0x00, 0x01, 0xE0]) = .next t ∧
      uninit.initialized = false ∧ t.initialized = true) ∧
    (∃ t, StateInv polling ∧ step polling = .next t ∧ polling.initialized = false ∧ t.initialized = true) ∧
    (∃ t, StateInv ((inited .m640x480).present .host [0x02]) ∧
      step ((inited .m640x480).present .host [0x02]) = .next t ∧
      (inited .m640x480).initialized = true ∧ t.initialized = false) ∧
    (∃ t, StateInv closing ∧ step closing = .next t ∧ closing.initialized = true ∧ t.initialized = false) :=
  ⟨⟨_, inv_uninit _ _ _ _, rfl, rfl, by decide⟩, ⟨_, inv_polling, rfl, rfl, by decide⟩,
    ⟨_, ⟨rfl, by decide, by decide, by decide, trivial⟩, rfl, rfl, by decide⟩, _, inv_closing, rfl, rfl, by decide⟩

/-- An OPEN; a SET_MODE that commits (program P1); a CLOSE. -/
theorem witness_SessionTransitions :
    (∃ t, StateInv (s0.present .host [0x01]) ∧ step (s0.present .host [0x01]) = .next t ∧
      sessionView s0 = some .noSession ∧ sessionView t = some .uninitialized) ∧
    (∃ t, step ((answered uninit [.ack, .ack, .ack, .ack, .ack, .ack] [.ack 0x00 0x03, .ack 0x00 0x03]).present .host
        [0x10, 0x00, 0x00, 0x02, 0x80, 0x00, 0x00, 0x01, 0xE0]) = .next t ∧
      sessionView t = some (.initialized .m640x480)) ∧
    (∃ t, step ((inited .m640x480).present .host [0x02]) = .next t ∧ sessionView t = some .noSession) :=
  ⟨⟨_, inv_s0 _ _, rfl, by decide, by decide⟩, ⟨_, rfl, by decide⟩, _, rfl, by decide⟩

theorem witness_NoTransportNoBusTraffic :
    StateInv (unattached.present .internal [0x23, 0x00, 0x01]) ∧ unattached.transport = false ∧
    ∃ t, step (unattached.present .internal [0x23, 0x00, 0x01]) = .next t :=
  ⟨⟨rfl, by decide, by decide, by decide, trivial⟩, rfl, _, rfl⟩

/-- A result delivered by the instruction itself, and by a step of a command that waited. -/
theorem witness_HostResultKinds :
    (∃ t, ready uninit ∧ isHostCommand (.setEffect 4 0) = true ∧ exec (.setEffect 4 0) uninit = .next t ∧
      ∃ evs, t.trace = uninit.trace ++ evs ∧ .result (.fail .unknownItem) ∈ evs) ∧
    (∃ t, StateInv polling ∧ isHostPosition polling.control = true ∧ step polling = .next t ∧
      ∃ evs, t.trace = polling.trace ++ evs ∧ .result .ok ∈ evs) :=
  ⟨⟨_, ⟨rfl, rfl⟩, rfl, rfl, [.cmd (.setEffect 4 0), .result (.fail .unknownItem)], rfl, by decide⟩,
    _, inv_polling, rfl, rfl, [.rd 0x00F2 (some 3), .result .ok], rfl, by decide⟩

/-- A command that ends, and one that waits; a step that ends a running command, and one after which it still waits. -/
theorem witness_OneResultPerCommand :
    (∃ t, ready uninit ∧ isCommand .getStatus = true ∧ exec .getStatus uninit = .next t ∧ t.trace ≠ uninit.trace) ∧
    (∃ t, ready uninit ∧ isCommand (.readReg 0x3012) = true ∧ exec (.readReg 0x3012) uninit = .next t ∧
      t.trace ≠ uninit.trace) ∧
    (∃ t, StateInv polling ∧ polling.busy = true ∧ step polling = .next t ∧ t.busy = false) ∧
    (∃ t, StateInv waiting ∧ waiting.busy = true ∧ step waiting = .next t ∧ t.busy = true) :=
  ⟨⟨_, ⟨rfl, rfl⟩, rfl, rfl, by decide⟩, ⟨_, ⟨rfl, rfl⟩, rfl, rfl, by decide⟩, ⟨_, inv_polling, rfl, rfl, rfl⟩,
    _, inv_waiting, rfl, rfl, rfl⟩

end Sys2Proof.Tests
end

section
/-! SUPPORT. All that a command can do when it is accepted, said once, and what every step keeps: the proofs of the statements of
10_state.md. -/

namespace Sys2Proof.Machine

/-! ## A command that is accepted -/

/-- The mode a command can commit: the one a SET_MODE's operands resolve to (43_mode_effect.md R248). -/
def commandMode : Instr → Option ModeId
  | .setMode w h => resolve w h
  | _ => none

theorem setMode_of_commandMode {i : Instr} {m : ModeId} (h : commandMode i = some m) :
    ∃ w v, i = .setMode w v ∧ resolve w v = some m := by
  cases i with
  | setMode w v => exact ⟨w, v, rfl, h⟩
  | _ => cases h

/-- A hook that is not supplied or returns at once is followed by what comes after it; one that does not return holds the RSE
(44_control_surface.md R283, 60_exceptions.md R332). -/
theorem withHook_cases (supplied : Bool) (k : Hook) (f : State → State) (s : State) :
    (∃ u, (u = s ∨ u = s.emit (.hook k)) ∧ withHook supplied k f s = f u) ∨
      withHook supplied k f s = (s.emit (.hook k)).setControl (.hook k) := by
  unfold withHook
  split
  · split
    · exact .inl ⟨_, .inr rfl, rfl⟩
    · exact .inr rfl
  · exact .inl ⟨s, .inl rfl, rfl⟩

/-- What a command comes to that no fault stops: the end of OPEN or CLOSE or its hook, or the work of any other one. -/
def CommandDoes (i : Instr) (s t : State) : Prop :=
  (i = .openSession ∧ s.sessionOpen = false ∧
      t = withHook s.cfg.powerOnHook .powerOn afterPowerOn (s.accept i).acquireSession) ∨
    (i = .closeSession ∧ s.sessionOpen = true ∧ t = withHook s.cfg.powerOffHook .powerOff afterPowerOff (s.accept i)) ∨
    ((isHostCommand i = true → s.sessionOpen = true) ∧
      Advanced (commandMode i) (ResultOf (isHostCommand i)) (s.accept i) t)

/-- A host command that needs a session and works in it. -/
theorem hostCommand_does {i : Instr} {run : State → State} {s t : State} (hi : i ≠ .openSession)
    (hrun : ∀ u, u.sessionOpen = true → Advanced (commandMode i) isHostResult u (run u))
    (h : hostCommand i run s = .next t) : (∃ f, t = s.raiseFault f) ∨ s.busy = false ∧ CommandDoes i s t := by
  obtain ⟨-, ⟨-, rfl⟩ | ⟨hb, ⟨f, rfl, -⟩ | ⟨hs, rfl⟩⟩⟩ := hostCommand_cases h
  · exact .inl ⟨_, rfl⟩
  · exact .inl ⟨f, rfl⟩
  · have ho := sessionOpen_of_sessionFault hi hs
    exact .inr ⟨hb, .inr (.inr ⟨fun _ => ho, (hrun (s.accept i) ho).mono fun _ hr _ => hr⟩)⟩

/-- A harness request, with a session or without one. -/
theorem harnessRequest_does {i : Instr} {run : State → State} {s t : State} (hi : isHostCommand i = false)
    (hrun : ∀ u, Advanced (commandMode i) (fun _ => True) u (run u)) (h : harnessRequest i run s = .next t) :
    (∃ f, t = s.raiseFault f) ∨ s.busy = false ∧ CommandDoes i s t := by
  obtain ⟨-, ⟨-, rfl⟩ | ⟨hb, rfl⟩⟩ := harnessRequest_cases h
  · exact .inl ⟨_, rfl⟩
  · refine .inr ⟨hb, .inr (.inr ⟨fun hh => ?_, (hrun (s.accept i)).mono fun _ _ hh => ?_⟩)⟩ <;> simp [hi] at hh

/-- All that a command or a request can do: a fault at its dispatch, or its work (44_control_surface.md R280, 60_exceptions.md
R334). -/
theorem exec_command_cases {i : Instr} {s t : State} (hi : isCommand i = true) (he : exec i s = .next t) :
    (∃ f, t = s.raiseFault f) ∨ s.busy = false ∧ CommandDoes i s t := by
  cases i with
  | openSession =>
    simp only [exec, execOpenSession] at he
    obtain ⟨-, ⟨-, rfl⟩ | ⟨hb, ⟨f, rfl, -⟩ | ⟨hs, rfl⟩⟩⟩ := hostCommand_cases he
    · exact .inl ⟨_, rfl⟩
    · exact .inl ⟨f, rfl⟩
    · exact .inr ⟨hb, .inl ⟨rfl, by simpa [sessionFault] using hs, rfl⟩⟩
  | closeSession =>
    simp only [exec, execCloseSession] at he
    obtain ⟨-, ⟨-, rfl⟩ | ⟨hb, ⟨f, rfl, -⟩ | ⟨hs, rfl⟩⟩⟩ := hostCommand_cases he
    · exact .inl ⟨_, rfl⟩
    · exact .inl ⟨f, rfl⟩
    · exact .inr ⟨hb, .inr (.inl ⟨rfl, sessionOpen_of_sessionFault (by simp) hs, rfl⟩)⟩
  | setMode w h => exact hostCommand_does (by simp) (fun _ ho => setMode_advanced w h ho) he
  | getStatus => exact hostCommand_does (by simp) (fun u _ => .finish u .ok (.inl rfl)) he
  | setEffect item value => exact hostCommand_does (by simp) (fun _ ho => setEffect_advanced item value ho) he
  | readReg a => exact harnessRequest_does rfl (readReg_advanced a) he
  | writeReg a v => exact harnessRequest_does rfl (writeReg_advanced a v) he
  | pollStatus sa sv ra e d n => exact harnessRequest_does rfl (pollStatus_advanced ⟨sa, sv, ra, e, d, n⟩) he
  | applyTable k => exact harnessRequest_does rfl (applyTable_advanced k) he
  | wr _ _ => cases hi
  | wait _ => cases hi
  | endTable _ => cases hi

/-! ## The invariant -/

/-- The part of the invariant that speaks of the session alone (10_state.md R33, R36, R37). -/
structure SessionInv (s : State) : Prop where
  initialized_mode : s.initialized = s.mode.isSome
  initialized_open : s.initialized = true → s.sessionOpen = true
  transport_open   : s.transport = true → s.sessionOpen = true

theorem StateInv.sessionInv {s : State} (h : StateInv s) : SessionInv s :=
  ⟨h.initialized_mode, h.initialized_open, h.transport_open⟩

theorem SessionInv.of_sameSession {s t : State} (h : SessionInv s) (k : SameSession s t) : SessionInv t := by
  refine ⟨?_, ?_, ?_⟩ <;> simp only [k.sessionOpen, k.transport, k.initialized, k.mode]
  · exact h.initialized_mode
  · exact h.initialized_open
  · exact h.transport_open

/-- Nothing runs. -/
theorem SessionInv.idle {s : State} (h : SessionInv s) (hb : s.busy = false) (hc : s.control = .idle) : StateInv s :=
  ⟨h.initialized_mode, h.initialized_open, h.transport_open, by simp [hb, hc], by rw [hc]; trivial⟩

/-- A command runs and its position fits. -/
theorem SessionInv.held {s : State} (h : SessionInv s) (hb : s.busy = true) (hc : s.control ≠ .idle)
    (ho : controlOk s s.control) : StateInv s :=
  ⟨h.initialized_mode, h.initialized_open, h.transport_open, by simp [hb, hc], ho⟩

theorem SessionInv.initialized_of_closed {s : State} (h : SessionInv s) (ho : s.sessionOpen = false) :
    s.initialized = false := by
  cases hi : s.initialized with
  | false => rfl
  | true => rw [h.initialized_open hi] at ho; cases ho

theorem SessionInv.mode_of_uninitialized {s : State} (h : SessionInv s) (hi : s.initialized = false) : s.mode = none := by
  have hm := h.initialized_mode
  cases hs : s.mode with
  | none => rfl
  | some m => rw [hi, hs] at hm; cases hm

/-- What a position asks of the state it asks of the session and the configuration. -/
theorem controlOk_congr {s t : State} (h : SameSession s t) (hcfg : t.cfg = s.cfg) {c : Control} (hc : controlOk s c) :
    controlOk t c := by
  cases c with
  | idle => trivial
  | hook k => cases k <;> simpa only [controlOk, h.sessionOpen, h.initialized] using hc
  | write a v n ret =>
    obtain ⟨ht, h1, h2, hr⟩ := hc
    refine ⟨h.transport.trans ht, h1, by rw [hcfg]; exact h2, ?_⟩
    cases ret with
    | request => trivial
    | selector p => exact pollOk_congr h hr
    | entry _ _ tret => exact tableRetOk_congr h tret hr
  | read a ret =>
    refine ⟨h.transport.trans hc.1, ?_⟩
    cases ret with
    | request => trivial
    | result p => exact pollOk_congr h hc.2
  | table _ _ ret => exact tableRetOk_congr h ret hc
  | tableDone ret _ => exact tableRetOk_congr h ret hc

theorem sessionOpen_of_tableMode {s : State} {ret : TableRet} (hr : tableRetOk s ret) (hm : tableMode ret ≠ none) :
    s.sessionOpen = true := by
  cases ret with
  | request => exact absurd rfl hm
  | effect => exact hr
  | initTable l => exact hr.1
  | modeTable l => exact hr.1
  | previewTable l => exact hr.1.1

theorem sessionOpen_of_pollMode {s : State} {ret : PollRet} (hr : pollRetOk s ret) (hm : pollMode ret ≠ none) :
    s.sessionOpen = true := by
  cases ret with
  | request => exact absurd rfl hm
  | initPoll l => exact hr.1
  | modePoll l => exact hr.1

/-- A position of a SET_MODE stands in a session. -/
theorem sessionOpen_of_positionMode {s : State} {c : Control} (hc : controlOk s c) (hm : positionMode c ≠ none) :
    s.sessionOpen = true := by
  cases c with
  | idle => exact absurd rfl hm
  | hook _ => exact absurd rfl hm
  | write _ _ _ ret =>
    obtain ⟨-, -, -, hr⟩ := hc
    cases ret with
    | request => exact absurd rfl hm
    | selector p => exact sessionOpen_of_pollMode hr.2.2 hm
    | entry _ _ tret => exact sessionOpen_of_tableMode hr hm
  | read _ ret =>
    obtain ⟨-, hr⟩ := hc
    cases ret with
    | request => exact absurd rfl hm
    | result p => exact sessionOpen_of_pollMode hr.2.2 hm
  | table _ _ ret => exact sessionOpen_of_tableMode hc hm
  | tableDone ret _ => exact sessionOpen_of_tableMode hc hm

theorem StateInv.clearPort {s : State} (h : StateInv s) : StateInv s.clearPort :=
  ⟨h.initialized_mode, h.initialized_open, h.transport_open, h.busy_control,
    controlOk_congr (s := s) ⟨rfl, rfl, rfl, rfl⟩ rfl h.control_ok⟩

theorem StateInv.raiseFault {s : State} (h : StateInv s) (f : FaultKind) : StateInv (s.raiseFault f) :=
  ⟨h.initialized_mode, h.initialized_open, h.transport_open, h.busy_control,
    controlOk_congr (s := s) ⟨rfl, rfl, rfl, rfl⟩ rfl h.control_ok⟩

/-! ## What work does to the session -/

/-- Work leaves the session, or commits the mode it was for and delivers `Ok` (43_mode_effect.md R248). -/
theorem Advanced.session_cases {m : Option ModeId} {P : Result → Prop} {s t : State} (h : Advanced m P s t) :
    SameSession s t ∨
      (t.busy = false ∧ t.initialized = true ∧ (∃ m', m = some m' ∧ t.mode = some m') ∧
        ∃ evs, t.trace = s.trace ++ evs ++ [.result .ok]) := by
  obtain ⟨evs, -, ⟨r, ht, hb, -, -, -, ⟨hi, hm⟩ | ⟨rfl, hne, hi, hm⟩⟩ | ⟨-, -, hi, hm, -⟩⟩ := h.outcome
  · exact .inl ⟨h.sessionOpen, h.transport, hi, hm⟩
  · obtain ⟨m', rfl⟩ := Option.ne_none_iff_exists'.1 hne
    exact .inr ⟨hb, hi, ⟨m', rfl, hm⟩, evs, by rw [ht, List.append_assoc]⟩
  · exact .inl ⟨h.sessionOpen, h.transport, hi, hm⟩

/-- Work of a running command keeps the invariant; one that can commit a mode runs in a session. -/
theorem Advanced.inv {m : Option ModeId} {P : Result → Prop} {s t : State} (h : Advanced m P s t) (hs : SessionInv s)
    (hb : s.busy = true) (ho : m ≠ none → s.sessionOpen = true) : StateInv t := by
  have ht : SessionInv t := by
    rcases h.session_cases with hsame | ⟨-, hi, ⟨m', rfl, hm⟩, -⟩
    · exact hs.of_sameSession hsame
    · have hto : t.sessionOpen = true := h.sessionOpen.trans (ho (by simp))
      exact ⟨by rw [hi, hm]; rfl, fun _ => hto, fun _ => hto⟩
  obtain ⟨evs, -, ⟨r, -, hbt, hct, -⟩ | ⟨-, hbt, -, -, hct, hok⟩⟩ := h.outcome
  · exact ht.idle hbt hct
  · exact ht.held (hbt.trans hb) hct hok

/-- The end of OPEN. -/
theorem afterPowerOn_inv {s : State} (ho : s.sessionOpen = true) : StateInv (afterPowerOn s) :=
  SessionInv.idle ⟨rfl, fun h => (by cases h), fun _ => ho⟩ rfl rfl

/-- The end of CLOSE. -/
theorem afterPowerOff_inv (s : State) : StateInv (afterPowerOff s) :=
  SessionInv.idle ⟨rfl, fun h => (by cases h), fun h => (by cases h)⟩ rfl rfl

theorem commandMode_sessionOpen {i : Instr} {s : State} (h : isHostCommand i = true → s.sessionOpen = true)
    (hm : commandMode i ≠ none) : s.sessionOpen = true := by
  obtain ⟨m, hm⟩ := Option.ne_none_iff_exists'.1 hm
  obtain ⟨w, v, rfl, -⟩ := setMode_of_commandMode hm
  exact h rfl

/-- An accepted command keeps the invariant. -/
theorem CommandDoes.inv {i : Instr} {s t : State} (h : CommandDoes i s t) (hs : StateInv s) : StateInv t := by
  rcases h with ⟨-, ho, rfl⟩ | ⟨-, ho, rfl⟩ | ⟨ho, h⟩
  · have hi := hs.sessionInv.initialized_of_closed ho
    rcases withHook_cases s.cfg.powerOnHook .powerOn afterPowerOn (s.accept i).acquireSession with
      ⟨u, rfl | rfl, hu⟩ | hu <;> rw [hu]
    · exact afterPowerOn_inv rfl
    · exact afterPowerOn_inv rfl
    · exact SessionInv.held ⟨hs.initialized_mode, fun _ => rfl, fun _ => rfl⟩ rfl (by simp) ⟨rfl, hi⟩
  · rcases withHook_cases s.cfg.powerOffHook .powerOff afterPowerOff (s.accept i) with ⟨u, -, hu⟩ | hu <;> rw [hu]
    · exact afterPowerOff_inv u
    · exact SessionInv.held ⟨hs.initialized_mode, fun _ => ho, fun _ => ho⟩ rfl (by simp) ho
  · exact h.inv (hs.sessionInv.of_sameSession ⟨rfl, rfl, rfl, rfl⟩) rfl (commandMode_sessionOpen ho)

/-- Every step of a running command keeps the invariant. -/
theorem stepRunning_inv {s t : State} (hs : StateInv s) (hb : s.busy = true) (he : stepRunning s = .next t) : StateInv t := by
  rcases stepRunning_cases hs he with ⟨f, rfl⟩ | h | ⟨k, hk, rfl⟩
  · exact hs.raiseFault f
  · exact h.inv hs.sessionInv hb (sessionOpen_of_positionMode hs.control_ok)
  · have hc := hs.control_ok
    rw [hk] at hc
    cases k with
    | powerOn => exact afterPowerOn_inv hc.1
    | powerOff => exact afterPowerOff_inv s

/-- Settles O53: a step refuses a frame with a fault, runs the command the frame decodes to, or goes on with the running one, and
each keeps `StateInv`. -/
theorem stepKeepsInvariant : Obligations.StepKeepsInvariant := by
  intro s t hs he
  obtain ⟨-, ⟨p, f, -, rfl⟩ | ⟨p, i, -, -, hd, he⟩ | ⟨-, hb, he⟩⟩ := step_cases he
  · exact hs.clearPort.raiseFault f
  · rcases exec_command_cases (decodeFrame_command hd) he with ⟨f, rfl⟩ | ⟨-, h⟩
    · exact hs.clearPort.raiseFault f
    · exact h.inv hs.clearPort
  · exact stepRunning_inv hs hb he

/-! ## The session of a step (10_state.md R34 to R37) -/

/-- The step is one of a SET_MODE to `m`: it takes its frame, or goes on from a position in one of its steps. -/
def SetModeRuns (s : State) (m : ModeId) : Prop :=
  (∃ p w h, s.port = some p ∧ decodeFrame p.port p.bytes = .ok (.setMode w h) ∧ resolve w h = some m) ∨
    (s.port = none ∧ ∃ k, seqStep s.control = some k)

/-- The step is one of a CLOSE: it takes its frame, or goes on from its hook. -/
def CloseRuns (s : State) : Prop :=
  (∃ p, s.port = some p ∧ decodeFrame p.port p.bytes = .ok .closeSession) ∨
    (s.port = none ∧ s.control = .hook .powerOff)

/-- Between `s` and `t` the last event came that delivers `Ok`. -/
def EndsWithOk (s t : State) : Prop := ∃ evs, t.trace = s.trace ++ evs ++ [.result .ok]

/-- All that a step can do to the session: leave it, open one, end one by a CLOSE, or record the mode of a SET_MODE in one. -/
inductive SessionMove (s t : State) : Prop
  | kept (ho : t.sessionOpen = s.sessionOpen) (hi : t.initialized = s.initialized) (hm : t.mode = s.mode)
  | opened (hs : s.sessionOpen = false) (ho : t.sessionOpen = true) (hi : t.initialized = false)
  | closed (hs : s.sessionOpen = true) (ho : t.sessionOpen = false) (hm : t.mode = none) (hok : EndsWithOk s t)
      (hrun : CloseRuns s)
  | committed (m : ModeId) (hs : s.sessionOpen = true) (ho : t.sessionOpen = true) (hb : t.busy = false)
      (hi : t.initialized = true) (hm : t.mode = some m) (hok : EndsWithOk s t) (hrun : SetModeRuns s m)

/-- The work of a command that was accepted in `s`, or ran there, as seen from `s`: `u` is where the work began. -/
theorem Advanced.sessionMove {m : Option ModeId} {P : Result → Prop} {s u t : State} (h : Advanced m P u t)
    (hu : SameSession s u) (htr : ∃ evs, u.trace = s.trace ++ evs) (ho : m ≠ none → s.sessionOpen = true)
    (hrun : ∀ m', m = some m' → SetModeRuns s m') : SessionMove s t := by
  rcases h.session_cases with hsame | ⟨hb, hi, ⟨m', rfl, hm⟩, evs, ht⟩
  · have hst := hu.trans hsame
    exact .kept hst.sessionOpen hst.initialized hst.mode
  · obtain ⟨before, htr⟩ := htr
    have hs := ho (by simp)
    refine .committed m' hs ((h.sessionOpen.trans hu.sessionOpen).trans hs) hb hi hm ⟨before ++ evs, ?_⟩ (hrun m' rfl)
    rw [ht, htr, List.append_assoc s.trace]

/-- What a command does to the session when its frame is taken. -/
theorem CommandDoes.sessionMove {i : Instr} {s t : State} {p : Presented} (hs : StateInv s) (hp : s.port = some p)
    (hd : decodeFrame p.port p.bytes = .ok i) (h : CommandDoes i s.clearPort t) : SessionMove s t := by
  rcases h with ⟨-, ho, rfl⟩ | ⟨rfl, ho, rfl⟩ | ⟨ho, h⟩
  · have ho : s.sessionOpen = false := ho
    have hi := hs.sessionInv.initialized_of_closed ho
    rcases withHook_cases s.clearPort.cfg.powerOnHook .powerOn afterPowerOn (s.clearPort.accept i).acquireSession with
      ⟨u, rfl | rfl, hu⟩ | hu <;> rw [hu]
    · exact .opened ho rfl rfl
    · exact .opened ho rfl rfl
    · exact .opened ho rfl hi
  · have hrun : CloseRuns s := .inl ⟨p, hp, hd⟩
    rcases withHook_cases s.clearPort.cfg.powerOffHook .powerOff afterPowerOff (s.clearPort.accept .closeSession) with
      ⟨u, rfl | rfl, hu⟩ | hu <;> rw [hu]
    · exact .closed ho rfl rfl ⟨[.cmd .closeSession], rfl⟩ hrun
    · exact .closed ho rfl rfl ⟨[.cmd .closeSession, .hook .powerOff], by simp [afterPowerOff]⟩ hrun
    · exact .kept rfl rfl rfl
  · refine h.sessionMove (s := s) ⟨rfl, rfl, rfl, rfl⟩ ⟨[.cmd i], rfl⟩ (commandMode_sessionOpen ho) fun m' hm => ?_
    obtain ⟨w, v, rfl, hr⟩ := setMode_of_commandMode hm
    exact .inl ⟨p, w, v, hp, hd, hr⟩

/-- What a step of a running command does to the session. -/
theorem stepRunning_sessionMove {s t : State} (hs : StateInv s) (hp : s.port = none) (he : stepRunning s = .next t) :
    SessionMove s t := by
  rcases stepRunning_cases hs he with ⟨f, rfl⟩ | h | ⟨k, hk, rfl⟩
  · exact .kept rfl rfl rfl
  · refine h.sessionMove (.refl s) ⟨[], by simp⟩ (sessionOpen_of_positionMode hs.control_ok) fun m' hm => ?_
    exact .inr ⟨hp, seqStep_of_mode _ (by simp [hm])⟩
  · have hc := hs.control_ok
    rw [hk] at hc
    cases k with
    | powerOn => exact .kept rfl hc.2.symm (hs.sessionInv.mode_of_uninitialized hc.2).symm
    | powerOff => exact .closed hc rfl rfl ⟨[], by simp [afterHook, afterPowerOff]⟩ (.inr ⟨hp, hk⟩)

/-- All that a step can do to the session. -/
theorem step_sessionMove {s t : State} (hs : StateInv s) (he : step s = .next t) : SessionMove s t := by
  obtain ⟨-, ⟨p, f, -, rfl⟩ | ⟨p, i, hp, -, hd, he⟩ | ⟨hp, -, he⟩⟩ := step_cases he
  · exact .kept rfl rfl rfl
  · rcases exec_command_cases (decodeFrame_command hd) he with ⟨f, rfl⟩ | ⟨-, h⟩
    · exact .kept rfl rfl rfl
    · exact h.sessionMove hs hp hd
  · exact stepRunning_sessionMove hs hp he

/-- Settles O56: of all a step can do to the session, only the end of a SET_MODE sets `S.initialized`, and only that of a CLOSE
clears it; OPEN finds it false. -/
theorem onlySetModeInitializes : Obligations.OnlySetModeInitializes := by
  intro s t hs he
  cases step_sessionMove hs he with
  | kept ho hi hm =>
    rw [hi]
    exact ⟨fun h0 h1 => absurd (h0.symm.trans h1) (by simp), fun h1 h0 => absurd (h0.symm.trans h1) (by simp)⟩
  | opened hso ho hi => simp [hi, hs.sessionInv.initialized_of_closed hso]
  | closed hso ho hm hok hrun =>
    refine ⟨fun _ hi => ?_, fun _ _ => ⟨ho, hm, hok, hrun⟩⟩
    have hinv := stepKeepsInvariant s t hs he
    rw [hinv.sessionInv.initialized_of_closed ho] at hi
    cases hi
  | committed m hso ho hb hi hm hok hrun => exact ⟨fun _ _ => ⟨hb, hok, m, hm, hrun⟩, by simp [hi]⟩

theorem sessionView_closed {s : State} (ho : s.sessionOpen = false) : sessionView s = some .noSession := by
  simp [sessionView, ho]

theorem sessionView_uninitialized {s : State} (ho : s.sessionOpen = true) (hi : s.initialized = false) :
    sessionView s = some .uninitialized := by
  simp [sessionView, ho, hi]

theorem sessionView_initialized {s : State} {m : ModeId} (ho : s.sessionOpen = true) (hi : s.initialized = true)
    (hm : s.mode = some m) : sessionView s = some (.initialized m) := by
  simp [sessionView, ho, hi, hm]

/-- Under the invariant a state stands for a state of the source's machine, and for "no session" only without one. -/
theorem SessionInv.sessionView_some {s : State} (h : SessionInv s) :
    ∃ v, sessionView s = some v ∧ (s.sessionOpen = true → v ≠ .noSession) := by
  cases ho : s.sessionOpen with
  | false => exact ⟨_, sessionView_closed ho, by simp⟩
  | true =>
    cases hi : s.initialized with
    | false => exact ⟨_, sessionView_uninitialized ho hi, by simp⟩
    | true =>
      obtain ⟨m, hm⟩ := Option.isSome_iff_exists.1 (h.initialized_mode.symm.trans hi)
      exact ⟨_, sessionView_initialized ho hi hm, by simp⟩

/-- Settles O57: what a step can do to the session, read as a transition of the source's machine. -/
theorem sessionTransitions : Obligations.SessionTransitions := by
  intro s t hs he
  obtain ⟨v, hv, hne⟩ := hs.sessionInv.sessionView_some
  cases step_sessionMove hs he with
  | kept ho hi hm => exact ⟨v, v, hv, by simpa only [sessionView, ho, hi, hm] using hv, .inl rfl⟩
  | opened hso ho hi =>
    exact ⟨_, _, sessionView_closed hso, sessionView_uninitialized ho hi, .inr (.inl ⟨rfl, rfl⟩)⟩
  | closed hso ho hm hok hrun => exact ⟨v, _, hv, sessionView_closed ho, .inr (.inr (.inl ⟨hne hso, rfl⟩))⟩
  | committed m hso ho hb hi hm hok hrun =>
    obtain ⟨evs, htr⟩ := hok
    exact ⟨v, _, hv, sessionView_initialized ho hi hm, .inr (.inr (.inr ⟨hne hso, m, evs, rfl, htr⟩))⟩

/-! ## What every step extends

`Advanced` needs a position that fits; that a step only adds events and takes answers, and writes no configuration, holds in every
state. -/

/-- A unit's work and then its caller. -/
theorem Extends.elim {α : Type} {s : State} {x : Run α} {f : α → State → State} (hx : Worked s x.state)
    (hf : ∀ r u, Extends u (f r u)) : Extends s (x.elim f) := by
  cases x with
  | done r u => exact hx.extended.trans (hf r u)
  | stop u => exact hx.extended

theorem finish_extends (s : State) (r : Result) : Extends s (s.finish r) :=
  (Advanced.finish (m := none) (P := fun _ => True) s r trivial).extended

theorem finishTable_extends (r : TableResult) (s : State) : Extends s (finishTable r s) := finish_extends s _

theorem afterModePoll_extends (l : Latch) (o : PollOutcome) (s : State) : Extends s (afterModePoll l o s) :=
  (afterModePoll_advanced l o s).extended

theorem runModePoll_extends (l : Latch) (s : State) : Extends s (runModePoll l s) :=
  .elim (pollStatus_worked _ _ s).1 (afterModePoll_extends l)

theorem afterPreviewTable_extends (l : Latch) (r : TableResult) (s : State) : Extends s (afterPreviewTable l r s) := by
  cases r with
  | ok => exact runModePoll_extends l s
  | writeError i c => exact finish_extends s _

theorem runPreviewTable_extends (l : Latch) (s : State) : Extends s (runPreviewTable l s) := by
  unfold runPreviewTable
  split
  · exact .elim (applyTable_worked _ _ s) (afterPreviewTable_extends l)
  · exact runModePoll_extends l s

theorem afterModeTable_extends (l : Latch) (r : TableResult) (s : State) : Extends s (afterModeTable l r s) := by
  cases r with
  | ok => exact runPreviewTable_extends l s
  | writeError i c => exact finish_extends s _

theorem runModeTable_extends (l : Latch) (s : State) : Extends s (runModeTable l s) :=
  .elim (applyTable_worked _ _ s) (afterModeTable_extends l)

theorem afterInitPoll_extends (l : Latch) (o : PollOutcome) (s : State) : Extends s (afterInitPoll l o s) := by
  cases o with
  | converged v => exact runModeTable_extends l s
  | timeout last =>
    simp only [afterInitPoll]
    split
    · exact finish_extends s _
    · have hlog : Extends s (s.log .initPollTimeout s.cfg.statusResultAddr last) :=
        ⟨rfl, rfl, rfl, rfl, ⟨_, rfl⟩, ⟨[], rfl⟩, ⟨[], rfl⟩⟩
      exact hlog.trans (runModeTable_extends l _)

theorem runInitPoll_extends (l : Latch) (s : State) : Extends s (runInitPoll l s) :=
  .elim (pollStatus_worked _ _ s).1 (afterInitPoll_extends l)

theorem afterInitTable_extends (l : Latch) (r : TableResult) (s : State) : Extends s (afterInitTable l r s) := by
  cases r with
  | ok => exact runInitPoll_extends l s
  | writeError i c => exact finish_extends s _

theorem afterTable_extends (ret : TableRet) (r : TableResult) (s : State) : Extends s (afterTable ret r s) := by
  cases ret with
  | request => exact finishTable_extends r s
  | effect => exact finishTable_extends r s
  | initTable l => exact afterInitTable_extends l r s
  | modeTable l => exact afterModeTable_extends l r s
  | previewTable l => exact afterPreviewTable_extends l r s

theorem afterPoll_extends (ret : PollRet) (o : PollOutcome) (s : State) : Extends s (afterPoll ret o s) := by
  cases ret with
  | request => exact finish_extends s _
  | initPoll l => exact afterInitPoll_extends l o s
  | modePoll l => exact afterModePoll_extends l o s

theorem afterEntry_extends (k : TableId) (j : Nat) (ret : TableRet) (r : EntryResult) (s : State) :
    Extends s (afterEntry k j ret r s) := by
  cases r <;> exact ((Worked.refl s).setControl _).extended

theorem afterHook_extends (k : Hook) (s : State) : Extends s (afterHook k s) := by
  cases k <;> exact ⟨rfl, rfl, rfl, rfl, ⟨_, rfl⟩, ⟨[], rfl⟩, ⟨[], rfl⟩⟩

theorem accept_extends (i : Instr) (s : State) : Extends s (s.accept i) :=
  ⟨rfl, rfl, rfl, rfl, ⟨_, rfl⟩, ⟨[], rfl⟩, ⟨[], rfl⟩⟩

theorem raiseFault_extends (f : FaultKind) (s : State) : Extends s (s.raiseFault f) := ((Worked.refl s).raiseFault f).extended

theorem withHook_extends (supplied : Bool) (k : Hook) (s : State) : Extends s (withHook supplied k (afterHook k) s) := by
  have hhook : Extends s (s.emit (.hook k)) := ⟨rfl, rfl, rfl, rfl, ⟨_, rfl⟩, ⟨[], rfl⟩, ⟨[], rfl⟩⟩
  rcases withHook_cases supplied k (afterHook k) s with ⟨u, rfl | rfl, hu⟩ | hu <;> rw [hu]
  · exact afterHook_extends k _
  · exact hhook.trans (afterHook_extends k _)
  · exact hhook.trans ((Worked.refl _).setControl _).extended

/-- A command works from the state that accepted it. -/
theorem CommandDoes.extended {i : Instr} {s t : State} (h : CommandDoes i s t) : Extends s t := by
  refine (accept_extends i s).trans ?_
  rcases h with ⟨-, -, rfl⟩ | ⟨-, -, rfl⟩ | ⟨-, h⟩
  · have hopen : Extends (s.accept i) (s.accept i).acquireSession :=
      ⟨rfl, rfl, rfl, rfl, ⟨[], by simp⟩, ⟨[], rfl⟩, ⟨[], rfl⟩⟩
    exact hopen.trans (withHook_extends _ .powerOn _)
  · exact withHook_extends _ .powerOff _
  · exact h.extended

/-- A table entry, wherever its table stands. -/
theorem entry_extends {i : Instr} {s t : State} (hi : isCommand i = false) (he : exec i s = .next t) : Extends s t := by
  cases i with
  | wr a v =>
    simp only [exec, execWr] at he
    obtain ⟨-, k, j, ret, -, rfl⟩ := atEntry_cases he
    exact .elim (entryWr_worked ..).1 (afterEntry_extends k j ret)
  | wait ms =>
    simp only [exec, execWait] at he
    obtain ⟨-, k, j, ret, -, rfl⟩ := atEntry_cases he
    exact .elim (x := entryWait ms s) (.sleep s _) (afterEntry_extends k j ret)
  | endTable x =>
    simp only [exec, execEndTable] at he
    obtain ⟨-, k, j, ret, -, rfl⟩ := atEntry_cases he
    exact afterEntry_extends k j ret .finished s
  | _ => cases hi

/-- Every instruction, in every state. -/
theorem exec_extends {i : Instr} {s t : State} (he : exec i s = .next t) : Extends s t := by
  cases hi : isCommand i with
  | false => exact entry_extends hi he
  | true =>
    rcases exec_command_cases hi he with ⟨f, rfl⟩ | ⟨-, h⟩
    · exact raiseFault_extends f s
    · exact h.extended

theorem stepWrite_extends (a v : Word) (n : Nat) (ret : WriteRet) (s : State) : Extends s (stepWrite a v n ret s) := by
  have hw := resumeWrite_worked ret a v n s
  cases ret with
  | request => exact .elim hw.1 fun r u => finish_extends u _
  | selector p =>
    have hread := Run.bind_worked _ _ hw fun r u _ => pollAfterWrite_worked p r u
    have hpoll := Run.bind_worked _ _ hread fun r u _ => pollContinue_worked p r u
    exact .elim hpoll.1 (afterPoll_extends p.ret)
  | entry k j tret =>
    have hentry := Run.bind_worked _ (fun r u => .done (afterEntryWrite r) u) hw fun r u _ => ⟨.refl u, rfl⟩
    exact .elim hentry.1 (afterEntry_extends k j tret)

theorem stepRead_extends (a : Word) (ret : ReadRet) (s : State) : Extends s (stepRead a ret s) := by
  obtain ⟨hw, hf, -⟩ := resumeRead_spec ret a s
  cases ret with
  | request => exact .elim hw fun r u => finish_extends u _
  | result p =>
    have hread := Run.bind_worked _ (pollAfterRead p) ⟨hw, hf⟩ fun r u _ => by
      obtain ⟨it, h⟩ := pollAfterRead_spec p r u
      rw [h]
      exact ⟨.refl u, rfl⟩
    have hpoll := Run.bind_worked _ _ hread fun r u _ => pollContinue_worked p r u
    exact .elim hpoll.1 (afterPoll_extends p.ret)

theorem stepEntry_extends {k : TableId} {j : Nat} {s t : State} (he : stepEntry k j s = .next t) : Extends s t := by
  unfold stepEntry at he
  split at he
  · cases he
    exact raiseFault_extends _ s
  · split at he
    · cases he
      exact raiseFault_extends _ s
    · exact exec_extends he

/-- Every step of a running command, wherever it stands. -/
theorem stepRunning_extends {s t : State} (he : stepRunning s = .next t) : Extends s t := by
  unfold stepRunning at he
  split at he
  · cases he
  · split at he
    · cases he
      exact afterHook_extends _ s
    · cases he
  · split at he
    · cases he
    · cases he
      exact stepWrite_extends ..
  · split at he
    · cases he
    · cases he
      exact stepRead_extends ..
  · exact stepEntry_extends he
  · cases he
    exact afterTable_extends ..

/-- A step extends the state, or the state with the presented frame off its port. -/
theorem step_extends {s t : State} (he : step s = .next t) : Extends s t ∨ Extends s.clearPort t := by
  obtain ⟨-, ⟨p, f, -, rfl⟩ | ⟨p, i, -, -, -, he⟩ | ⟨-, -, he⟩⟩ := step_cases he
  · exact .inr (raiseFault_extends f _)
  · exact .inr (exec_extends he)
  · exact .inl (stepRunning_extends he)

/-- Settles O51: every step and every instruction extends the state it starts in, and with that keeps the configuration. -/
theorem configurationIsConstant : Obligations.ConfigurationIsConstant :=
  ⟨fun _ _ he => (step_extends he).elim Extends.cfg Extends.cfg, fun _ _ _ he => (exec_extends he).cfg⟩

/-! ## A faulted machine (10_state.md R39) -/

theorem hostCommand_halted {i : Instr} {run : State → State} {s : State} (h : s.fault.isSome = true) :
    hostCommand i run s = .fault .halted := if_pos h

theorem harnessRequest_halted {i : Instr} {run : State → State} {s : State} (h : s.fault.isSome = true) :
    harnessRequest i run s = .fault .halted := if_pos h

theorem atEntry_halted {run : TableId → Nat → TableRet → State → State} {s : State} (h : s.fault.isSome = true) :
    atEntry run s = .fault .halted := if_pos h

/-- Every instruction goes through one of the three dispatchers. -/
theorem exec_halted (i : Instr) {s : State} (h : s.fault.isSome = true) : exec i s = .fault .halted := by
  cases i with
  | openSession => simp only [exec, execOpenSession, hostCommand_halted h]
  | closeSession => simp only [exec, execCloseSession, hostCommand_halted h]
  | setMode _ _ => simp only [exec, execSetMode, hostCommand_halted h]
  | getStatus => simp only [exec, execGetStatus, hostCommand_halted h]
  | setEffect _ _ => simp only [exec, execSetEffect, hostCommand_halted h]
  | readReg _ => simp only [exec, execReadReg, harnessRequest_halted h]
  | writeReg _ _ => simp only [exec, execWriteReg, harnessRequest_halted h]
  | pollStatus _ _ _ _ _ _ => simp only [exec, execPollStatus, harnessRequest_halted h]
  | applyTable _ => simp only [exec, execApplyTable, harnessRequest_halted h]
  | wr _ _ => simp only [exec, execWr, atEntry_halted h]
  | wait _ => simp only [exec, execWait, atEntry_halted h]
  | endTable _ => simp only [exec, execEndTable, atEntry_halted h]

/-- Settles O8: `step` and each of the three dispatchers look at the fault first. -/
theorem faultedMachineHasNoStep : Obligations.FaultedMachineHasNoStep := by
  refine ⟨rfl, fun s f hf => ?_⟩
  have h : s.fault.isSome = true := by simp [hf]
  exact ⟨if_pos h, fun i => exec_halted i h⟩

/-! ## Small steps and the big step (10_state.md R48) -/

/-- The step of a running command when no frame is presented. -/
theorem step_running {s : State} (hf : s.fault = none) (hb : s.busy = true) (hp : s.port = none) :
    step s = stepRunning s := by
  simp [step, stepMachine, hf, hb, hp]

theorem steps_succ {n : Nat} {s u : State} (h : step s = .next u) : steps (n + 1) s = steps n u := by
  simp only [steps, h]

/-- The instruction an entry is, run at the cursor, does what the entry does to its table (42_table_interpreter.md R200). -/
theorem exec_decodeEntry {s : State} {t : TableId} {i : Nat} {ret : TableRet} (e : Entry) (hf : s.fault = none)
    (hc : s.control = .table t i ret) :
    exec (decodeEntry s.cfg e) s = .next ((runEntry t i ret e s).elim (afterEntry t i ret)) := by
  unfold decodeEntry runEntry
  cases entryKind s.cfg e <;> simp [exec, execWr, execWait, execEndTable, atEntry, hf, hc]

theorem step_entry {s : State} {t : TableId} {i : Nat} {ret : TableRet} {es : List Entry} (hf : s.fault = none)
    (hb : s.busy = true) (hp : s.port = none) (hc : s.control = .table t i ret) (hr : readTable s.cfg t = some es)
    (hi : i < es.length) : step s = .next ((runEntry t i ret es[i] s).elim (afterEntry t i ret)) := by
  rw [step_running hf hb hp]
  simp [stepRunning, hc, stepEntry, hr, hi, exec_decodeEntry _ hf hc]

/-- Past the last entry the step takes the fault the table takes (42_table_interpreter.md R204). -/
theorem step_overrun {s : State} {t : TableId} {i : Nat} {ret : TableRet} {es : List Entry} (hf : s.fault = none)
    (hb : s.busy = true) (hp : s.port = none) (hc : s.control = .table t i ret) (hr : readTable s.cfg t = some es)
    (hi : es.length ≤ i) : step s = .next ((s.setControl (.table t i ret)).raiseFault .tableOverrun) := by
  rw [step_running hf hb hp]
  have hset : s.setControl (.table t i ret) = s := by rw [← hc]; rfl
  simp [stepRunning, hc, stepEntry, hr, hi, hset]

/-- A table that has ended hands its result to its caller in one step. -/
theorem steps_tableDone {s : State} (ret : TableRet) (r : TableResult) (hf : s.fault = none) (hb : s.busy = true)
    (hp : s.port = none) : steps 1 (s.setControl (.tableDone ret r)) = .next (afterTable ret r s) := by
  have hstep : step (s.setControl (.tableDone ret r)) = .next (afterTable ret r (s.setControl (.tableDone ret r))) :=
    step_running hf hb hp
  rw [steps_succ hstep, ← afterTable_alike ret r (.of_setControl s _), steps]

/-- Settles O32, by induction on the entries that are left: an entry's step is its part of the big step, and the rest does not read
the position the step records. -/
theorem smallStepsAgreeWithBigStep : Obligations.SmallStepsAgreeWithBigStep := by
  intro s t i ret es hf hb hp hc hr hi
  obtain ⟨left, hleft⟩ := Nat.exists_eq_add_of_le hi
  induction left generalizing i s with
  | zero =>
    refine ⟨1, ?_⟩
    rw [steps_succ (step_overrun hf hb hp hc hr (by omega)), List.drop_eq_nil_of_le (by omega)]
    rfl
  | succ left ih =>
    have hlt : i < es.length := by omega
    have hstep := step_entry hf hb hp hc hr hlt
    have hwork := runEntry_worked t i ret es[i] s
    rw [tableLoop_entry hr hlt]
    rcases hx : runEntry t i ret es[i] s with ⟨r, u⟩ | u <;> rw [hx] at hstep hwork
    · have hw : Worked s u := hwork.1
      have hfu : u.fault = none := hwork.2.trans hf
      have hbu := hw.busy.trans hb
      have hpu := hw.extended.port.trans hp
      have hru : readTable u.cfg t = some es := by rw [hw.extended.cfg, hr]
      cases r with
      | goOn =>
        obtain ⟨n, hn⟩ := ih (u.setControl (.table t (i + 1) ret)) (i + 1) hfu hbu hpu rfl hru (by omega) (by omega)
        have halike : SameButControl u (u.setControl (.table t (i + 1) ret)) := .of_setControl u _
        refine ⟨n + 1, ?_⟩
        rw [steps_succ hstep]
        simp only [Run.elim_done, afterEntry, restOfTable, hru, hlt, if_true]
        rw [hn, (tableLoop_alike t ret _ (i + 1) halike).elim fun r _ _ h => afterTable_alike ret r h]
      | finished => exact ⟨2, (steps_succ hstep).trans (steps_tableDone ret .ok hfu hbu hpu)⟩
      | failed c => exact ⟨2, (steps_succ hstep).trans (steps_tableDone ret (.writeError i c) hfu hbu hpu)⟩
    · exact ⟨1, steps_succ hstep⟩

end Sys2Proof.Machine
end

section
/-! SUPPORT. What the bus carries and what a wait for it leaves undone: the proofs of the statements of 20_memory.md. -/

namespace Sys2Proof.Machine

/-! ## The trace and the answers (20_memory.md R78, R80, R81) -/

/-- Settles O52: a step extends the state it starts in, or that state with the presented frame off its port, which has the same
trace and the same answers. -/
theorem stepOnlyAddsEvents : Obligations.StepOnlyAddsEvents := by
  intro s t he
  rcases step_extends he with h | h
  · exact ⟨h.trace, h.writeAnswers, h.readAnswers⟩
  · exact ⟨h.trace, h.writeAnswers, h.readAnswers⟩

/-! ## The bytes on the bus (20_memory.md R64 to R66) -/

theorem toNat_eq_bytes (v : Word) : v.toNat = (hiByte v).toNat * 256 + (loByte v).toNat := by
  rw [← be16_toNat, be16_bytes]

theorem bytes16_be16 (hi lo : Byte) : bytes16 (be16 hi lo) = [hi, lo] := by
  have hhi : hiByte (be16 hi lo) = hi := BitVec.extractLsb'_append_eq_left
  have hlo : loByte (be16 hi lo) = lo := BitVec.extractLsb'_append_eq_right
  rw [bytes16, hhi, hlo]

/-- Settles O18: a frame is made of the high and the low byte of each word, and the two bytes a read receives make its value and
are the bytes of it. -/
theorem transferBytes : Obligations.TransferBytes := by
  intro c a v o d0 d1
  refine ⟨?_, be16_toNat d0 d1, hiByte a, loByte a, ?_, toNat_eq_bytes a⟩
  · refine ⟨hiByte a, loByte a, hiByte v, loByte v, ?_⟩
    cases o with
    | ack => exact ⟨some [], rfl, toNat_eq_bytes a, toNat_eq_bytes v⟩
    | nak => exact ⟨none, rfl, toNat_eq_bytes a, toNat_eq_bytes v⟩
  · rw [transfer, bytes16_be16, readFrame, bytes16]

/-! ## An instruction and the answers that come later (20_memory.md R82, 10_state.md R48) -/

section MoreAnswers

variable {g : Word → Word → Nat → WriteRet → State → State} {ws : List WriteAnswer} {rs : List ReadAnswer}

/-- A harness request is dispatched alike with more answers. -/
theorem harnessRequest_later {i : Instr} {run : State → State} {s t : State}
    (hrun : ∀ u, Later g ws rs (run u) (run (u.moreAnswers ws rs))) (h : harnessRequest i run s = .next t) :
    ∃ u, harnessRequest i run (s.moreAnswers ws rs) = .next u ∧ Later g ws rs t u := by
  obtain ⟨hf, ⟨hb, rfl⟩ | ⟨hb, rfl⟩⟩ := harnessRequest_cases h
  · exact ⟨(s.moreAnswers ws rs).raiseFault .reentry, by simp [harnessRequest, hf, hb], .of_fault (by simp)⟩
  · exact ⟨_, harnessRequest_ready ⟨hf, hb⟩, hrun (s.accept i)⟩

/-- A host command is dispatched alike with more answers: neither the busy check nor the session check reads them. -/
theorem hostCommand_later {i : Instr} {run : State → State} {s t : State}
    (hrun : ∀ u, Later g ws rs (run u) (run (u.moreAnswers ws rs))) (h : hostCommand i run s = .next t) :
    ∃ u, hostCommand i run (s.moreAnswers ws rs) = .next u ∧ Later g ws rs t u := by
  have hsession : sessionFault i (s.moreAnswers ws rs) = sessionFault i s := rfl
  obtain ⟨hf, ⟨hb, rfl⟩ | ⟨hb, ⟨f, rfl, hs⟩ | ⟨hs, rfl⟩⟩⟩ := hostCommand_cases h
  · exact ⟨(s.moreAnswers ws rs).raiseFault .reentry, by simp [hostCommand, hf, hb], .of_fault (by simp)⟩
  · exact ⟨(s.moreAnswers ws rs).raiseFault f, by simp [hostCommand, hf, hb, hsession, hs], .of_fault (by simp)⟩
  · exact ⟨run ((s.moreAnswers ws rs).accept i), by simp [hostCommand, hf, hb, hsession, hs], hrun (s.accept i)⟩

/-- An entry is run at the same cursor with more answers. -/
theorem atEntry_later {run : TableId → Nat → TableRet → State → State} {s t : State}
    (hrun : ∀ k j ret, Later g ws rs (run k j ret s) (run k j ret (s.moreAnswers ws rs))) (h : atEntry run s = .next t) :
    ∃ u, atEntry run (s.moreAnswers ws rs) = .next u ∧ Later g ws rs t u := by
  obtain ⟨hf, k, j, ret, hc, rfl⟩ := atEntry_cases h
  exact ⟨_, by simp [atEntry, hf, hc], hrun k j ret⟩

/-- OPEN and CLOSE wait for no transaction. -/
theorem withHook_later (supplied : Bool) (k : Hook) (s y : State) :
    Later g ws rs (withHook supplied k (afterHook k) s) y := by
  rcases withHook_cases supplied k (afterHook k) s with ⟨u, -, hu⟩ | hu <;> rw [hu]
  · cases k <;> exact .finish _ _
  · exact .of_control (by simp) (by simp)

/-- A command or a request, with more answers: it comes to what going on from its wait comes to, the rest of a table in one go. -/
theorem exec_command_later {i : Instr} {s t : State} (hi : isCommand i = true) (he : exec i s = .next t) :
    ∃ u, exec i (s.moreAnswers ws rs) = .next u ∧ Later goOnWrite ws rs t u := by
  cases i with
  | openSession =>
    simp only [exec, execOpenSession] at he ⊢
    exact hostCommand_later (fun u => withHook_later _ .powerOn u.acquireSession _) he
  | closeSession =>
    simp only [exec, execCloseSession] at he ⊢
    exact hostCommand_later (fun u => withHook_later _ .powerOff u _) he
  | setMode w h => exact hostCommand_later (setMode_later w h) he
  | getStatus =>
    simp only [exec, execGetStatus] at he ⊢
    exact hostCommand_later (fun u => .finish u .ok) he
  | setEffect item value => exact hostCommand_later (setEffect_later item value) he
  | readReg a => exact harnessRequest_later (harnessRead_later a) he
  | writeReg a v => exact harnessRequest_later (harnessWrite_later a v) he
  | pollStatus sa sv ra e d n => exact harnessRequest_later (harnessPoll_later ⟨sa, sv, ra, e, d, n⟩) he
  | applyTable k =>
    simp only [exec, execApplyTable] at he ⊢
    exact harnessRequest_later (fun u => applyTable_later (afterTable_follows u.cfg .request)) he
  | wr _ _ => cases hi
  | wait _ => cases hi
  | endTable _ => cases hi

/-- An entry run alone at the cursor, with more answers: it comes to what one step from its wait comes to. -/
theorem exec_entry_later {i : Instr} {s t : State} (hi : isCommand i = false) (he : exec i s = .next t) :
    ∃ u, exec i (s.moreAnswers ws rs) = .next u ∧ Later stepWrite ws rs t u := by
  cases i with
  | wr a v =>
    simp only [exec, execWr] at he ⊢
    exact atEntry_later (fun k j ret => entryWr_later k j ret a v s) he
  | wait ms =>
    simp only [exec, execWait] at he ⊢
    refine atEntry_later (fun k j ret => .of_control ?_ ?_) he <;> simp [entryWait, afterEntry]
  | endTable x =>
    simp only [exec, execEndTable] at he ⊢
    refine atEntry_later (fun k j ret => .of_control ?_ ?_) he <;> simp [entryEnd, afterEntry]
  | _ => cases hi

/-- Every instruction, with more answers: a write goes on by one step, or by a step and the rest of its table. -/
theorem exec_later (ws : List WriteAnswer) (rs : List ReadAnswer) {i : Instr} {s t : State} (he : exec i s = .next t) :
    ∃ g u, (g = stepWrite ∨ g = goOnWrite) ∧ exec i (s.moreAnswers ws rs) = .next u ∧ Later g ws rs t u := by
  cases hi : isCommand i with
  | true =>
    obtain ⟨u, hu, hlater⟩ := exec_command_later hi he
    exact ⟨goOnWrite, u, .inr rfl, hu, hlater⟩
  | false =>
    obtain ⟨u, hu, hlater⟩ := exec_entry_later hi he
    exact ⟨stepWrite, u, .inl rfl, hu, hlater⟩

end MoreAnswers

/-! ## The steps at a transaction -/

/-- A command runs and a step of it is due: no fault, no frame presented. -/
structure StepDue (s : State) : Prop where
  fault : s.fault = none
  busy  : s.busy = true
  port  : s.port = none

theorem StepDue.moreAnswers {s : State} (h : StepDue s) (ws : List WriteAnswer) (rs : List ReadAnswer) :
    StepDue (s.moreAnswers ws rs) := ⟨h.fault, h.busy, h.port⟩

theorem StepDue.step_eq {s : State} (h : StepDue s) : step s = stepRunning s := step_running h.fault h.busy h.port

/-- A step is due after an instruction that was run with no frame presented and neither ended nor faulted. -/
theorem StepDue.of_exec {i : Instr} {s t : State} (hp : s.port = none) (he : exec i s = .next t) (hb : t.busy = true)
    (hf : t.fault = none) : StepDue t := ⟨hf, hb, (exec_extends he).port.trans hp⟩

theorem step_read_held {s : State} {a : Word} {ret : ReadRet} (h : StepDue s) (hc : s.control = .read a ret)
    (hr : s.readAnswers = []) : step s = .fault .awaitingBus := by
  simp [h.step_eq, stepRunning, hc, hr]

theorem step_read_answered {s : State} {a : Word} {ret : ReadRet} (h : StepDue s) (hc : s.control = .read a ret)
    (hr : s.readAnswers ≠ []) : step s = .next (stepRead a ret s) := by
  simp [h.step_eq, stepRunning, hc, hr]

theorem step_write_held {s : State} {a v : Word} {n : Nat} {ret : WriteRet} (h : StepDue s)
    (hc : s.control = .write a v n ret) (hw : s.writeAnswers = []) : step s = .fault .awaitingBus := by
  simp [h.step_eq, stepRunning, hc, hw]

theorem step_write_answered {s : State} {a v : Word} {n : Nat} {ret : WriteRet} (h : StepDue s)
    (hc : s.control = .write a v n ret) (hw : s.writeAnswers ≠ []) : step s = .next (stepWrite a v n ret s) := by
  simp [h.step_eq, stepRunning, hc, hw]

/-! ## Reads that wait -/

/-- An instruction that stands at a read has no step, and one step after the answer it is where it would have been. -/
theorem read_waits {s t : State} {i : Instr} {a : Word} {ret : ReadRet} (hp : s.port = none) (he : exec i s = .next t)
    (hb : t.busy = true) (hf : t.fault = none) (hc : t.control = .read a ret) :
    step t = .fault .awaitingBus ∧
      ∀ (ws : List WriteAnswer) (rs : List ReadAnswer), rs ≠ [] →
        step (t.moreAnswers ws rs) = exec i (s.moreAnswers ws rs) := by
  have hdue := StepDue.of_exec hp he hb hf
  have hlater : ∀ ws rs, t.readAnswers = [] ∧
      exec i (s.moreAnswers ws rs) = .next (stepRead a ret (t.moreAnswers ws rs)) := by
    intro ws rs
    obtain ⟨g, u, -, hu, hlater⟩ := exec_later ws rs he
    obtain ⟨hr, rfl⟩ := hlater.read hf a ret hc
    exact ⟨hr, hu⟩
  refine ⟨step_read_held hdue hc (hlater [] []).1, fun ws rs hrs => ?_⟩
  rw [(hlater ws rs).2]
  exact step_read_answered (hdue.moreAnswers ws rs) hc (by simp [hrs])

theorem exec_readReg_ready {s : State} (h : ready s) (a : Word) :
    exec (.readReg a) s = .next ((readRegister .request a (s.accept (.readReg a))).elim finishRead) := by
  rw [exec, execReadReg, harnessRequest_ready h]

/-- Settles O19: READ_REG with no answer stands at its read, and what an instruction that stands at a read does is `read_waits`. -/
theorem readWaitsForItsAnswer : Obligations.ReadWaitsForItsAnswer := by
  refine ⟨fun s a r hready hp ht hr => ?_, fun s t i a ret hp he hb hf hc => read_waits hp he hb hf hc⟩
  have he : exec (.readReg a) s = .next ((s.accept (.readReg a)).setControl (.read a .request)) := by
    have htr : (s.accept (.readReg a)).transport = true := ht
    have hra : (s.accept (.readReg a)).readAnswers = [] := hr
    rw [exec_readReg_ready hready, readRegister_transport _ _ _ htr, resumeRead_held _ _ _ hra, Run.elim_stop]
  obtain ⟨hheld, hgo⟩ := read_waits hp he rfl hready.1 rfl
  have hanswer : ∀ x : State, x.answerRead r = x.moreAnswers [] [r] := by
    intro x
    simp [State.answerRead, State.moreAnswers]
  have hexec := exec_readReg_ready (s := s.answerRead r) hready a
  refine ⟨_, he, rfl, hheld, _, ?_, hexec⟩
  rw [hanswer, hgo [] [r] (by simp), ← hanswer, hexec]

/-! ## Writes that wait -/

/-- The steps after an entry come to what the rest of its table comes to in one go. -/
theorem steps_restOfTable {u : State} (h : StepDue u) (t : TableId) (i : Nat) (ret : TableRet) (r : EntryResult) :
    ∃ n, steps n (afterEntry t i ret r u) = .next (restOfTable t i ret r u) := by
  cases r with
  | finished => exact ⟨1, steps_tableDone ret .ok h.fault h.busy h.port⟩
  | failed c => exact ⟨1, steps_tableDone ret (.writeError i c) h.fault h.busy h.port⟩
  | goOn =>
    simp only [restOfTable, afterEntry]
    rcases hr : readTable u.cfg t with _ | es
    · exact ⟨0, rfl⟩
    · by_cases hi : i < es.length
      · have halike := SameButControl.of_setControl u (.table t (i + 1) ret)
        obtain ⟨n, hn⟩ := smallStepsAgreeWithBigStep (u.setControl (.table t (i + 1) ret)) t (i + 1) ret es h.fault h.busy
          h.port rfl hr hi
        refine ⟨n, ?_⟩
        simp only [hi, if_true]
        rw [hn, (tableLoop_alike t ret _ (i + 1) halike).elim fun r _ _ h => afterTable_alike ret r h]
      · exact ⟨0, by simp only [hi, if_false, steps]⟩

/-- A step is due after a unit's work that raised no fault. -/
theorem StepDue.of_worked {s u : State} (h : StepDue s) (hw : Worked s u) (hf : u.fault = s.fault) : StepDue u :=
  ⟨hf.trans h.fault, hw.busy.trans h.busy, hw.extended.port.trans h.port⟩

/-- Some number of steps goes on from a write whose answer has come, to the end of its table where it is an entry's. -/
theorem steps_goOnWrite {s : State} {a v : Word} {n : Nat} {ret : WriteRet} (h : StepDue s)
    (hc : s.control = .write a v n ret) (hw : s.writeAnswers ≠ []) :
    ∃ k, steps k s = .next (goOnWrite a v n ret s) := by
  have hstep := step_write_answered h hc hw
  cases ret with
  | request => exact ⟨1, steps_succ hstep⟩
  | selector p => exact ⟨1, steps_succ hstep⟩
  | entry t i tret =>
    have hwork := resumeWrite_worked (.entry t i tret) a v n s
    simp only [stepWrite, Run.bind_elim] at hstep
    simp only [goOnWrite, Run.bind_elim]
    rcases hx : resumeWrite (.entry t i tret) a v n s with ⟨r, u⟩ | u <;> rw [hx] at hstep hwork
    · obtain ⟨k, hk⟩ := steps_restOfTable (h.of_worked hwork.1 hwork.2) t i tret (afterEntryWrite r)
      exact ⟨k + 1, (steps_succ hstep).trans hk⟩
    · exact ⟨1, steps_succ hstep⟩

/-- An instruction that stands at a write has no step, and going on with the answers, by a step or by as many as its table takes,
it comes to where it would have come. -/
theorem write_waits {s t : State} {i : Instr} {a v : Word} {n : Nat} {ret : WriteRet} (hp : s.port = none)
    (he : exec i s = .next t) (hb : t.busy = true) (hf : t.fault = none) (hc : t.control = .write a v n ret) :
    step t = .fault .awaitingBus ∧
      ∀ (ws : List WriteAnswer) (rs : List ReadAnswer), ws ≠ [] →
        ∃ k, steps k (t.moreAnswers ws rs) = exec i (s.moreAnswers ws rs) := by
  have hdue := StepDue.of_exec hp he hb hf
  have hnone : t.writeAnswers = [] := by
    obtain ⟨g, u, -, -, hlater⟩ := exec_later [] [] he
    exact (hlater.write hf a v n ret hc).1
  refine ⟨step_write_held hdue hc hnone, fun ws rs hws => ?_⟩
  have hanswered : (t.moreAnswers ws rs).writeAnswers ≠ [] := by simp [hws]
  obtain ⟨g, u, hg, hu, hlater⟩ := exec_later ws rs he
  obtain ⟨-, rfl⟩ := hlater.write hf a v n ret hc
  rw [hu]
  rcases hg with rfl | rfl
  · exact ⟨1, steps_succ (step_write_answered (hdue.moreAnswers ws rs) hc hanswered)⟩
  · exact steps_goOnWrite (hdue.moreAnswers ws rs) hc hanswered

/-- A WRITE_REG that is still busy stands at its write. -/
theorem writeReg_busy {s t : State} {a v : Word} (hready : ready s) (he : exec (.writeReg a v) s = .next t)
    (hb : t.busy = true) : t.fault = none ∧ ∃ n, t.control = .write a v n .request := by
  rw [exec, execWriteReg, harnessRequest_ready hready] at he
  cases he
  have hwork := writeRegister_worked .request a v (s.accept (.writeReg a v))
  rcases hx : writeRegister .request a v (s.accept (.writeReg a v)) with ⟨r, u⟩ | u <;> rw [hx] at hwork hb
  · cases hb
  · obtain ⟨-, n, -, -, hc⟩ := writeRegister_stop hx
    exact ⟨hwork.2.trans hready.1, n, hc⟩

/-- Settles O20: a busy WRITE_REG stands at its write and goes on by the one step; what any instruction that stands at a write does
is `write_waits`. -/
theorem writeWaitsForItsAnswer : Obligations.WriteWaitsForItsAnswer := by
  refine ⟨fun s a v more t hready hp _ he hb hmore => ?_,
    fun s t i a v n ret hp he hb hf hc => write_waits hp he hb hf hc⟩
  obtain ⟨hf, n, hc⟩ := writeReg_busy hready he hb
  have hdue := StepDue.of_exec hp he hb hf
  obtain ⟨u, hu, hlater⟩ := exec_command_later (ws := more) (rs := []) rfl he
  obtain ⟨hnone, rfl⟩ := hlater.write hf a v n .request hc
  have hs : { s with writeAnswers := s.writeAnswers ++ more } = s.moreAnswers more [] := by simp [State.moreAnswers]
  have ht : { t with writeAnswers := more } = t.moreAnswers more [] := by simp [State.moreAnswers, hnone]
  rw [hs, ht, hu]
  exact ⟨step_write_held hdue hc hnone, step_write_answered (hdue.moreAnswers more []) hc (by simp [hmore])⟩

end Sys2Proof.Machine
end

section
/-! SUPPORT. Decode and encode agree, which frames are illegal, and the table a value selects: the proofs of the statements of
30_encoding.md. -/

namespace Sys2Proof

/-! ## Table entries (30_encoding.md R100 to R103) -/

theorem decodeEntry_wait {c : Cfg} {e : Entry} (h : e.addr = c.waitAddr) : decodeEntry c e = .wait e.value := by
  simp [decodeEntry, entryKind, h]

theorem decodeEntry_endTable {c : Cfg} {e : Entry} (hw : e.addr ≠ c.waitAddr) (he : e.addr = c.endAddr) :
    decodeEntry c e = .endTable e.value := by
  have hsentinels : c.endAddr ≠ c.waitAddr := he ▸ hw
  simp [decodeEntry, entryKind, he, hsentinels]

theorem decodeEntry_wr {c : Cfg} {e : Entry} (hw : e.addr ≠ c.waitAddr) (he : e.addr ≠ c.endAddr) :
    decodeEntry c e = .wr e.addr e.value := by
  simp [decodeEntry, entryKind, hw, he]

/-- What an entry decodes to is well-formed and is assembled to that entry again. -/
theorem decodeEntry_faithful (c : Cfg) (e : Entry) :
    (decodeEntry c e).wellFormed c = true ∧ encode c (decodeEntry c e) = .entry (packEntry e) := by
  by_cases hw : e.addr = c.waitAddr
  · rw [decodeEntry_wait hw]
    simp [Instr.wellFormed, encode, waitEntry, ← hw]
  · by_cases he : e.addr = c.endAddr
    · rw [decodeEntry_endTable hw he]
      simp [Instr.wellFormed, encode, endEntry, ← he]
    · rw [decodeEntry_wr hw he]
      simp [Instr.wellFormed, encode, wrEntry, hw, he]

@[simp] theorem decode_packed (c : Cfg) (e : Entry) : decode c (.entry (packEntry e)) = .ok (decodeEntry c e) := by
  simp [decode]

/-- Settles O2: the entry a word unpacks to decodes faithfully, and packs to that word. -/
theorem everyEntryWordIsAnEntry : Obligations.EveryEntryWordIsAnEntry := by
  intro c w
  obtain ⟨hwf, henc⟩ := decodeEntry_faithful c (unpackEntry w)
  exact ⟨_, rfl, hwf, Machine.decodeEntry_entry c _, by rw [henc, pack_unpack]⟩

/-- Settles O3: the three rules of `decodeEntry`; the meaning of END does not read its value. -/
theorem entryKindByAddress : Obligations.EntryKindByAddress := by
  intro c e
  refine ⟨fun hwf => ?_, fun hw => ⟨decodeEntry_wait hw, rfl⟩,
    fun ⟨he, hw⟩ => ⟨decodeEntry_endTable hw he, fun _ _ => rfl⟩, fun ⟨hw, he⟩ => decodeEntry_wr hw he⟩
  obtain ⟨hne, -⟩ : c.waitAddr ≠ c.endAddr ∧ risingIds c.tables = true := by simpa [Cfg.wellFormed] using hwf
  exact hne

/-! ## Operands of a frame (30_encoding.md R104, R105)

What a frame sends of its operands is what the decoder reads, and the decoder reads no more bytes than there are. -/

@[simp] theorem operandsW_bytes (a : Word) : operandsW (bytes16 a) = some a := by
  simp [operandsW, bytes16]

@[simp] theorem operandsWW_bytes (a b : Word) : operandsWW (bytes16 a ++ bytes16 b) = some (a, b) := by
  simp [operandsWW, bytes16]

@[simp] theorem operandsLL_bytes (a b : Long) : operandsLL (bytes32 a ++ bytes32 b) = some (a, b) := by
  simp [operandsLL, bytes32, bytes16]

@[simp] theorem operandsPoll_bytes (s t r e : Word) (d n : Long) :
    operandsPoll (bytes16 s ++ (bytes16 t ++ (bytes16 r ++ (bytes16 e ++ (bytes32 d ++ bytes32 n))))) =
      some (s, t, r, e, d, n) := by
  simp [operandsPoll, bytes16]

theorem operandsW_length {l : List Byte} {x : Word} (h : operandsW l = some x) : 2 ≤ l.length := by
  unfold operandsW at h
  split at h
  · simp
  · cases h

theorem operandsWW_length {l : List Byte} {x : Word × Word} (h : operandsWW l = some x) : 4 ≤ l.length := by
  unfold operandsWW at h
  split at h
  · simp
  · cases h

theorem operandsLL_length {l : List Byte} {x : Long × Long} (h : operandsLL l = some x) : 8 ≤ l.length := by
  unfold operandsLL at h
  split at h
  · simp
  · cases h

theorem operandsPoll_length {l : List Byte} {x : Word × Word × Word × Word × Long × Long}
    (h : operandsPoll l = some x) : 16 ≤ l.length := by
  unfold operandsPoll at h
  split at h
  · obtain ⟨y, hy, -⟩ := Option.map_eq_some_iff.1 h
    have := operandsLL_length hy
    simp only [List.length_cons]
    omega
  · cases h

/-! ## Decode of encode -/

/-- Settles O1: the operands' bytes are read back, and an entry's address decides its kind. -/
theorem decodeOfEncode : Obligations.DecodeOfEncode := by
  intro c i hne hwf
  cases i with
  | openSession => rfl
  | closeSession => rfl
  | setMode w h => simp [encode, decode, decodeFrame, decodeHost, orShort]
  | getStatus => rfl
  | setEffect item value => simp [encode, decode, decodeFrame, decodeHost, orShort]
  | readReg a => simp [encode, decode, decodeFrame, decodeInternal, orShort]
  | writeReg a v => simp [encode, decode, decodeFrame, decodeInternal, orShort]
  | pollStatus sa sv ra e d n => simp [encode, decode, decodeFrame, decodeInternal, orShort]
  | applyTable t => simp [encode, decode, decodeFrame, decodeInternal, orShort]
  | wr a v =>
    obtain ⟨hw, he⟩ : a ≠ c.waitAddr ∧ a ≠ c.endAddr := by simpa [Instr.wellFormed] using hwf
    rw [encode, decode_packed, decodeEntry_wr (e := wrEntry a v) hw he]
    rfl
  | wait ms =>
    rw [encode, decode_packed, decodeEntry_wait (e := waitEntry c ms) rfl]
    rfl
  | endTable x =>
    rw [encode, decode_packed, decodeEntry_endTable (e := endEntry c x) hne.symm rfl]
    rfl

/-- Settles O4: the frames run; the three words unpack to entries at another address, at the WAIT and at the END sentinel. -/
theorem specFramesDecode : Obligations.SpecFramesDecode := by
  refine ⟨by decide, by decide, by decide, by decide, by decide, by decide, by decide, by decide, by decide,
    fun c hw he => ⟨?_, ?_, ?_⟩⟩
  · have hu : unpackEntry 0x00100001 = ⟨0x0010, 0x0001⟩ := by decide
    rw [decode, hu, decodeEntry_wr (by simp [hw]) (by simp [he])]
  · have hu : unpackEntry 0x0000FFFF = ⟨0x0000, 0xFFFF⟩ := by decide
    rw [decode, hu, decodeEntry_wait hw.symm]
  · have hu : unpackEntry 0x0001ABCD = ⟨0x0001, 0xABCD⟩ := by decide
    rw [decode, hu, decodeEntry_endTable (by simp [hw]) he.symm]

/-! ## Illegal frames (30_encoding.md R106) -/

/-- The opcodes of a port. -/
def portOpcode : Port → Byte → Bool
  | .host => isHostOpcode
  | .internal => isInternalOpcode

/-- A host frame that decodes begins with a host opcode and has that opcode's length. -/
theorem decodeHost_ok {op : Byte} {rest : List Byte} {i : Instr} (h : decodeHost (op :: rest) = .ok i) :
    isHostOpcode op = true ∧ frameLength op ≤ rest.length + 1 := by
  simp only [decodeHost] at h
  split_ifs at h with hopen hclose hmode hstatus heffect
  · subst hopen
    exact ⟨rfl, Nat.le_add_left ..⟩
  · subst hclose
    exact ⟨rfl, Nat.le_add_left ..⟩
  · obtain ⟨_, hx, -⟩ := Option.map_eq_some_iff.1 (Machine.orShort_ok h)
    subst hmode
    exact ⟨rfl, Nat.succ_le_succ (operandsLL_length hx)⟩
  · subst hstatus
    exact ⟨rfl, Nat.le_add_left ..⟩
  · obtain ⟨_, hx, -⟩ := Option.map_eq_some_iff.1 (Machine.orShort_ok h)
    subst heffect
    exact ⟨rfl, Nat.succ_le_succ (operandsLL_length hx)⟩

/-- A request frame that decodes begins with an internal opcode and has that opcode's length. -/
theorem decodeInternal_ok {op : Byte} {rest : List Byte} {i : Instr} (h : decodeInternal (op :: rest) = .ok i) :
    isInternalOpcode op = true ∧ frameLength op ≤ rest.length + 1 := by
  simp only [decodeInternal] at h
  split_ifs at h with hread hwrite hpoll happly <;> obtain ⟨_, hx, -⟩ := Option.map_eq_some_iff.1 (Machine.orShort_ok h)
  · subst hread
    exact ⟨rfl, Nat.succ_le_succ (operandsW_length hx)⟩
  · subst hwrite
    exact ⟨rfl, Nat.succ_le_succ (operandsWW_length hx)⟩
  · subst hpoll
    exact ⟨rfl, Nat.succ_le_succ (operandsPoll_length hx)⟩
  · subst happly
    exact ⟨rfl, Nat.succ_le_succ (operandsW_length hx)⟩

theorem decodeFrame_ok {p : Port} {bytes : List Byte} {i : Instr} (h : decodeFrame p bytes = .ok i) :
    ∃ op rest, bytes = op :: rest ∧ portOpcode p op = true ∧ frameLength op ≤ rest.length + 1 := by
  cases bytes with
  | nil => cases p <;> cases h
  | cons op rest =>
    refine ⟨op, rest, rfl, ?_⟩
    cases p with
    | host => exact decodeHost_ok h
    | internal => exact decodeInternal_ok h

end Sys2Proof

namespace Sys2Proof.Machine

/-- A presented frame that does not decode is the fault F_ILLEGAL_COMMAND, and leaves the port. -/
theorem step_illegal {s : State} {p : Presented} {e : DecodeError} (hf : s.fault = none) (hb : s.busy = false)
    (hp : s.port = some p) (hd : decodeFrame p.port p.bytes = .error e) :
    step s = .next (s.clearPort.raiseFault .illegalCommand) := by
  simp [step, stepMachine, stepPresented, hf, hb, hp, hd]

/-- Settles O5: a frame that decodes has an opcode of its port and that opcode's length, so an illegal frame does not decode. -/
theorem illegalFrameFaults : Obligations.IllegalFrameFaults := by
  intro s p bytes hf hb hp hbad
  cases hd : decodeFrame p bytes with
  | error e => exact step_illegal hf hb hp hd
  | ok i =>
    obtain ⟨op, rest, rfl, hop, hlen⟩ := decodeFrame_ok hd
    obtain hnil | ⟨_, _, heq, hbad⟩ := hbad
    · cases hnil
    · cases heq
      obtain ⟨rfl, hno⟩ | ⟨rfl, hno⟩ | hshort := hbad
      · cases hop.symm.trans hno
      · cases hop.symm.trans hno
      · omega

/-! ## The table a value selects (43_mode_effect.md R251) -/

theorem rowTable_default {r : EffectRow} {value : Long} (h : ∀ p ∈ r.recognized, p.1 ≠ value) :
    rowTable r value = r.defaultTable := by
  have hnone : (r.recognized.find? fun p => p.1 = value) = none := by simpa using h
  simp [rowTable, hnone]

theorem rowTable_recognized {r : EffectRow} {value : Long} {t : TableId} (hmem : (value, t) ∈ r.recognized)
    (hnodup : (r.recognized.map Prod.fst).Nodup) : rowTable r value = t := by
  unfold rowTable
  split
  · rename_i p hp
    have hfst : p.1 = value := by simpa using List.find?_some hp
    have heq : p = (value, t) := List.inj_on_of_nodup_map hnodup (List.mem_of_find?_eq_some hp) hmem hfst
    rw [heq]
  · rename_i hnone
    exact absurd (List.find?_eq_none.1 hnone _ hmem) (by simp)

/-- Settles O44: `itemOf` is the table of codes, and a row is read by its first match, the only one of a value listed once. -/
theorem effectTableSelection : Obligations.EffectTableSelection :=
  ⟨fun _ => rfl, fun _ _ _ => ⟨rowTable_default, fun _ => rowTable_recognized⟩⟩

end Sys2Proof.Machine
end

section
/-! SUPPORT. What a request to the Bus Transport comes to, and what stays off the bus without a transport: the proofs of the
statements of 40_bus_transport.md. -/

namespace Sys2Proof.Machine

/-! ## READ_REG (40_bus_transport.md R140, R141) -/

/-- A READ_REG whose read returns is completed with that result. -/
theorem exec_readReg_done {s : State} {a : Word} {r : ReadResult} {evs : List Event} {ws : List WriteAnswer}
    {rs : List ReadAnswer} (h : ready s)
    (hread : readRegister .request a (s.accept (.readReg a)) = .done r ((s.accept (.readReg a)).after evs ws rs)) :
    exec (.readReg a) s = .next (completed s (.readReg a) evs (readResult r) ws rs) := by
  rw [exec_readReg_ready h, hread, Run.elim_done, finishRead, completed_eq]

/-- Settles O16: with a transport the one answer decides the result, `Ack` or `Nak`; without one there is no transaction. -/
theorem readRegOutcomes : Obligations.ReadRegOutcomes := by
  intro s a hready
  have hanswered : s.transport = true → ∀ (r : ReadAnswer) (rs : List ReadAnswer), s.readAnswers = r :: rs →
      exec (.readReg a) s = .next
        (completed s (.readReg a) [.rd a (readValue r)] (readResult (readOutcome r)) s.writeAnswers rs) := by
    intro ht r rs hr
    refine exec_readReg_done hready ?_
    rw [readRegister_transport _ _ _ (by simpa using ht), resumeRead_answered _ _ _ r rs (by simpa using hr)]
    rfl
  refine ⟨fun ht d0 d1 rs hr => hanswered ht _ rs hr, fun ht rs hr => hanswered ht _ rs hr, fun ht => ?_, rfl⟩
  refine exec_readReg_done (r := .fail .noDevice) hready ?_
  rw [readRegister_noTransport _ _ _ (by simpa using ht)]
  exact congrArg _ (State.after_nil _).symm

/-! ## WRITE_REG (40_bus_transport.md R143 to R148) -/

/-- A WRITE_REG whose write returns is completed with that result. -/
theorem exec_writeReg_done {s : State} {a v : Word} {r : WriteResult} {evs : List Event} {ws : List WriteAnswer}
    {rs : List ReadAnswer} (h : ready s)
    (hwrite : writeRegister .request a v (s.accept (.writeReg a v)) =
      .done r ((s.accept (.writeReg a v)).after evs ws rs)) :
    exec (.writeReg a v) s = .next (completed s (.writeReg a v) evs (writeResult r) ws rs) := by
  rw [exec, execWriteReg, harnessRequest_ready h, hwrite, Run.elim_done, finishWrite, completed_eq]

/-- Settles O17: the attempts of the write are those of `writeAttempts_acked` and `writeAttempts_failed`; without a transport there
is none. -/
theorem writeRegOutcomes : Obligations.WriteRegOutcomes := by
  intro s a v hready
  refine ⟨fun ht j ws hj hw => ?_, fun ht ws hw => ?_, fun ht => ?_, rfl⟩
  · refine exec_writeReg_done (r := .ok) hready ?_
    rw [writeRegister_transport _ _ _ _ (by simpa using ht),
      writeAttempts_acked _ _ _ j _ _ ws (by simpa using hj) (by simpa using hw)]
    rfl
  · refine exec_writeReg_done (r := .fail .transferError) hready ?_
    rw [writeRegister_transport _ _ _ _ (by simpa using ht),
      writeAttempts_failed _ _ _ _ _ ws (by simpa [failingAnswers] using hw)]
    rfl
  · refine exec_writeReg_done (r := .fail .noDevice) hready ?_
    rw [writeRegister_noTransport _ _ _ _ (by simpa using ht)]
    exact congrArg _ (State.after_nil _).symm

/-! ## The frame of the unit requests (40_bus_transport.md R149, 41_status_poller.md R180) -/

/-- A request that runs a unit and delivers its result changes no session field, and meets no fault but its own refusal. -/
theorem harnessRequest_unit_frame {α : Type} {i : Instr} {run : State → Run α} {result : α → Result} {s t : State}
    (hrun : ∀ u, Worked u (run u).state ∧ (run u).state.fault = u.fault)
    (he : harnessRequest i (fun u => (run u).elim fun r w => w.finish (result r)) s = .next t) :
    SameSession s t ∧ (t.fault = none ∨ (s.busy = true ∧ t.fault = some .reentry)) := by
  obtain ⟨hf, ⟨hb, rfl⟩ | ⟨-, rfl⟩⟩ := harnessRequest_cases he
  · exact ⟨⟨rfl, rfl, rfl, rfl⟩, .inr ⟨hb, rfl⟩⟩
  · obtain ⟨hw, hfault⟩ := hrun (s.accept i)
    have haccept : SameSession s (s.accept i) := ⟨rfl, rfl, rfl, rfl⟩
    have hnone := hfault.trans hf
    cases hx : run (s.accept i) with
    | done r w =>
      rw [hx] at hw hnone
      exact ⟨(haccept.trans hw.session).trans ⟨rfl, rfl, rfl, rfl⟩, .inl hnone⟩
    | stop w =>
      rw [hx] at hw hnone
      exact ⟨haccept.trans hw.session, .inl hnone⟩

/-- Settles O46: every instruction extends the state it starts in, and each of the three runs one unit. -/
theorem unitRequestFrame : Obligations.UnitRequestFrame := by
  rintro s t i hi he
  refine ⟨exec_extends he, ?_⟩
  obtain ⟨a, rfl⟩ | ⟨a, v, rfl⟩ | ⟨sa, sv, ra, e, d, n, rfl⟩ := hi
  · exact harnessRequest_unit_frame (readRegister_worked .request a) he
  · exact harnessRequest_unit_frame (writeRegister_worked .request a v) he
  · exact harnessRequest_unit_frame (pollStatus_worked ⟨sa, sv, ra, e, d, n⟩ .request) he

/-! ## Off the bus (40_bus_transport.md R140, R143, 41_status_poller.md R172) -/

/-- Between `s` and `t` nothing went over the bus: no transaction was added to the trace and no answer was taken. -/
structure BusSilent (s t : State) : Prop where
  trace        : ∃ evs, t.trace = s.trace ++ evs ∧ ∀ e ∈ evs, isBusEvent e = false
  writeAnswers : t.writeAnswers = s.writeAnswers
  readAnswers  : t.readAnswers = s.readAnswers

theorem BusSilent.trans {s t u : State} (h : BusSilent s t) (k : BusSilent t u) : BusSilent s u := by
  obtain ⟨e1, h1, p1⟩ := h.trace
  obtain ⟨e2, h2, p2⟩ := k.trace
  refine ⟨⟨e1 ++ e2, by rw [h2, h1, List.append_assoc], fun e he => ?_⟩, k.writeAnswers.trans h.writeAnswers,
    k.readAnswers.trans h.readAnswers⟩
  exact (List.mem_append.1 he).elim (p1 e) (p2 e)

/-- Nothing that leaves the trace and the answers alone uses the bus. -/
theorem BusSilent.of_eq {s t : State} (htr : t.trace = s.trace) (hw : t.writeAnswers = s.writeAnswers)
    (hr : t.readAnswers = s.readAnswers) : BusSilent s t :=
  ⟨⟨[], by simp [htr], by simp⟩, hw, hr⟩

/-- One event that is no transaction. -/
theorem BusSilent.of_event {s t : State} {e : Event} (htr : t.trace = s.trace ++ [e]) (he : isBusEvent e = false)
    (hw : t.writeAnswers = s.writeAnswers) (hr : t.readAnswers = s.readAnswers) : BusSilent s t :=
  ⟨⟨[e], htr, by simpa using he⟩, hw, hr⟩

theorem BusSilent.refl (s : State) : BusSilent s s := .of_eq rfl rfl rfl

theorem BusSilent.setControl (s : State) (c : Control) : BusSilent s (s.setControl c) := .of_eq rfl rfl rfl

theorem BusSilent.raiseFault (s : State) (f : FaultKind) : BusSilent s (s.raiseFault f) := .of_eq rfl rfl rfl

theorem BusSilent.sleep (s : State) (ms : Long) : BusSilent s (s.sleep ms) := .of_event rfl rfl rfl rfl

theorem BusSilent.log (s : State) (k : LogKind) (a : Word) (v : Option Word) : BusSilent s (s.log k a v) :=
  .of_event rfl rfl rfl rfl

theorem BusSilent.accept (s : State) (i : Instr) : BusSilent s (s.accept i) := .of_event rfl rfl rfl rfl

theorem BusSilent.finish (s : State) (r : Result) : BusSilent s (s.finish r) := .of_event rfl rfl rfl rfl

/-! ### The hooks -/

theorem afterHook_silent (k : Hook) (s : State) : BusSilent s (afterHook k s) := by
  cases k <;> exact .of_event rfl rfl rfl rfl

theorem withHook_silent (supplied : Bool) (k : Hook) (s : State) : BusSilent s (withHook supplied k (afterHook k) s) := by
  have hhook : BusSilent s (s.emit (.hook k)) := .of_event rfl rfl rfl rfl
  rcases withHook_cases supplied k (afterHook k) s with ⟨u, rfl | rfl, hu⟩ | hu <;> rw [hu]
  · exact afterHook_silent k _
  · exact hhook.trans (afterHook_silent k _)
  · exact hhook.trans (.setControl _ _)

/-! ### The units without a transport -/

/-- A unit's work without a transport, and then its caller, which finds none either. -/
theorem BusSilent.elim {α : Type} {s : State} {x : Run α} {f : α → State → State} (ht : s.transport = false)
    (hw : Worked s x.state) (hx : BusSilent s x.state) (hf : ∀ r u, u.transport = false → BusSilent u (f r u)) :
    BusSilent s (x.elim f) := by
  cases x with
  | done r u => exact hx.trans (hf r u (hw.session.transport.trans ht))
  | stop u => exact hx

/-- Every iteration sleeps and no more (41_status_poller.md R172). -/
theorem pollStatus_silent (req : PollReq) (ret : PollRet) {s : State} (ht : s.transport = false) :
    BusSilent s (pollStatus req ret s).state := by
  rw [pollStatus, pollLoop_noTransport _ _ _ ht]
  refine ⟨⟨_, rfl, fun e he => ?_⟩, rfl, rfl⟩
  rw [List.eq_of_mem_replicate he]
  rfl

theorem entryWr_silent (t : TableId) (i : Nat) (ret : TableRet) (a v : Word) {s : State} (ht : s.transport = false) :
    BusSilent s (entryWr t i ret a v s).state := by
  rw [entryWr, writeRegister_noTransport _ _ _ _ ht]
  exact .refl s

theorem runEntry_silent (t : TableId) (i : Nat) (ret : TableRet) (e : Entry) {s : State} (ht : s.transport = false) :
    BusSilent s (runEntry t i ret e s).state := by
  unfold runEntry
  split
  · exact .sleep s _
  · exact .refl s
  · exact entryWr_silent t i ret _ _ ht

theorem tableLoop_silent (t : TableId) (ret : TableRet) (es : List Entry) (i : Nat) {s : State}
    (ht : s.transport = false) : BusSilent s (tableLoop t ret es i s).state := by
  induction es generalizing i s with
  | nil => exact (BusSilent.setControl s _).trans (.raiseFault _ _)
  | cons e es ih =>
    have hentry := runEntry_silent t i ret e ht
    have hwork := (runEntry_worked t i ret e s).1
    rw [tableLoop]
    rcases hx : runEntry t i ret e s with ⟨r, u⟩ | u <;> rw [hx] at hentry hwork
    · cases r with
      | goOn => exact hentry.trans (ih (i + 1) (hwork.session.transport.trans ht))
      | finished => exact hentry
      | failed c => exact hentry
    · exact hentry

theorem applyTable_silent (t : TableId) (ret : TableRet) {s : State} (ht : s.transport = false) :
    BusSilent s (applyTable t ret s).state := by
  unfold applyTable
  split
  · exact (BusSilent.setControl s _).trans (.raiseFault _ _)
  · exact tableLoop_silent t ret _ 0 ht

/-- A table and its caller. -/
theorem applyTable_elim_silent (t : TableId) (ret : TableRet) {f : TableResult → State → State} {s : State}
    (ht : s.transport = false) (hf : ∀ r u, u.transport = false → BusSilent u (f r u)) :
    BusSilent s ((applyTable t ret s).elim f) :=
  .elim ht (applyTable_worked t ret s) (applyTable_silent t ret ht) hf

/-- A poll and its caller. -/
theorem pollStatus_elim_silent (req : PollReq) (ret : PollRet) {f : PollOutcome → State → State} {s : State}
    (ht : s.transport = false) (hf : ∀ r u, u.transport = false → BusSilent u (f r u)) :
    BusSilent s ((pollStatus req ret s).elim f) :=
  .elim ht (pollStatus_worked req ret s).1 (pollStatus_silent req ret ht) hf

/-! ### The steps of SET_MODE without a transport -/

theorem runModePoll_silent (l : Latch) {s : State} (ht : s.transport = false) : BusSilent s (runModePoll l s) :=
  pollStatus_elim_silent _ _ ht fun o _ _ => by cases o <;> exact .of_event rfl rfl rfl rfl

theorem afterPreviewTable_silent (l : Latch) (r : TableResult) {s : State} (ht : s.transport = false) :
    BusSilent s (afterPreviewTable l r s) := by
  cases r with
  | ok => exact runModePoll_silent l ht
  | writeError i c => exact .finish s _

theorem runPreviewTable_silent (l : Latch) {s : State} (ht : s.transport = false) :
    BusSilent s (runPreviewTable l s) := by
  unfold runPreviewTable
  split
  · exact applyTable_elim_silent _ _ ht fun r _ => afterPreviewTable_silent l r
  · exact runModePoll_silent l ht

theorem afterModeTable_silent (l : Latch) (r : TableResult) {s : State} (ht : s.transport = false) :
    BusSilent s (afterModeTable l r s) := by
  cases r with
  | ok => exact runPreviewTable_silent l ht
  | writeError i c => exact .finish s _

theorem runModeTable_silent (l : Latch) {s : State} (ht : s.transport = false) : BusSilent s (runModeTable l s) :=
  applyTable_elim_silent _ _ ht fun r _ => afterModeTable_silent l r

theorem afterInitPoll_silent (l : Latch) (o : PollOutcome) {s : State} (ht : s.transport = false) :
    BusSilent s (afterInitPoll l o s) := by
  cases o with
  | converged v => exact runModeTable_silent l ht
  | timeout last =>
    simp only [afterInitPoll]
    split
    · exact .finish s _
    · exact (BusSilent.log s _ _ _).trans (runModeTable_silent l ht)

theorem afterInitTable_silent (l : Latch) (r : TableResult) {s : State} (ht : s.transport = false) :
    BusSilent s (afterInitTable l r s) := by
  cases r with
  | ok => exact pollStatus_elim_silent _ _ ht fun o _ => afterInitPoll_silent l o
  | writeError i c => exact .finish s _

theorem afterTable_silent (ret : TableRet) (r : TableResult) {s : State} (ht : s.transport = false) :
    BusSilent s (afterTable ret r s) := by
  cases ret with
  | request => exact .finish s _
  | effect => exact .finish s _
  | initTable l => exact afterInitTable_silent l r ht
  | modeTable l => exact afterModeTable_silent l r ht
  | previewTable l => exact afterPreviewTable_silent l r ht

theorem setMode_silent (w h : Long) {s : State} (ht : s.transport = false) : BusSilent s (setMode w h s) := by
  unfold setMode
  split
  · exact .finish s _
  · split
    · exact runModeTable_silent _ ht
    · exact applyTable_elim_silent _ _ ht fun r _ => afterInitTable_silent _ r

theorem setEffect_silent (item value : Long) {s : State} (ht : s.transport = false) :
    BusSilent s (setEffect item value s) := by
  unfold setEffect
  split
  · exact .finish s _
  · exact applyTable_elim_silent _ _ ht fun _ u _ => .finish u _

/-! ### Instructions and steps without a transport -/

theorem readReg_silent (a : Word) {s : State} (ht : s.transport = false) :
    BusSilent s ((readRegister .request a s).elim finishRead) := by
  rw [readRegister_noTransport _ a s ht]
  exact .finish s _

theorem writeReg_silent (a v : Word) {s : State} (ht : s.transport = false) :
    BusSilent s ((writeRegister .request a v s).elim finishWrite) := by
  rw [writeRegister_noTransport _ a v s ht]
  exact .finish s _

theorem hostCommand_silent {i : Instr} {run : State → State} {s t : State} (ht : s.transport = false)
    (hrun : ∀ u, u.transport = false → BusSilent u (run u)) (he : hostCommand i run s = .next t) : BusSilent s t := by
  obtain ⟨-, ⟨-, rfl⟩ | ⟨-, ⟨f, rfl, -⟩ | ⟨-, rfl⟩⟩⟩ := hostCommand_cases he
  · exact .raiseFault s _
  · exact .raiseFault s f
  · exact (BusSilent.accept s i).trans (hrun _ ht)

theorem harnessRequest_silent {i : Instr} {run : State → State} {s t : State} (ht : s.transport = false)
    (hrun : ∀ u, u.transport = false → BusSilent u (run u)) (he : harnessRequest i run s = .next t) :
    BusSilent s t := by
  obtain ⟨-, ⟨-, rfl⟩ | ⟨-, rfl⟩⟩ := harnessRequest_cases he
  · exact .raiseFault s _
  · exact (BusSilent.accept s i).trans (hrun _ ht)

theorem atEntry_silent {run : TableId → Nat → TableRet → State → Run EntryResult} {s t : State}
    (hrun : ∀ k j ret, BusSilent s (run k j ret s).state)
    (he : atEntry (fun k j ret u => (run k j ret u).elim (afterEntry k j ret)) s = .next t) : BusSilent s t := by
  obtain ⟨-, k, j, ret, -, rfl⟩ := atEntry_cases he
  have hentry := hrun k j ret
  rcases hx : run k j ret s with ⟨r, u⟩ | u <;> rw [hx] at hentry
  · refine hentry.trans ?_
    cases r <;> exact .setControl u _
  · exact hentry

/-- No instruction uses the bus without a transport; an OPEN that acquires one does not either. -/
theorem exec_silent {i : Instr} {s t : State} (ht : s.transport = false) (he : exec i s = .next t) : BusSilent s t := by
  cases i with
  | openSession =>
    rw [exec, execOpenSession] at he
    refine hostCommand_silent ht (fun u _ => ?_) he
    have hopen : BusSilent u u.acquireSession := .of_eq rfl rfl rfl
    exact hopen.trans (withHook_silent u.cfg.powerOnHook .powerOn u.acquireSession)
  | closeSession => exact hostCommand_silent ht (fun u _ => withHook_silent _ .powerOff u) he
  | setMode w h => exact hostCommand_silent ht (fun _ => setMode_silent w h) he
  | getStatus => exact hostCommand_silent ht (fun u _ => .finish u .ok) he
  | setEffect item value => exact hostCommand_silent ht (fun _ => setEffect_silent item value) he
  | readReg a => exact harnessRequest_silent ht (fun _ => readReg_silent a) he
  | writeReg a v => exact harnessRequest_silent ht (fun _ => writeReg_silent a v) he
  | pollStatus sa sv ra e d n =>
    have hrun := fun u hu => pollStatus_elim_silent ⟨sa, sv, ra, e, d, n⟩ .request (f := finishPoll) (s := u) hu
      fun _ w _ => .finish w _
    exact harnessRequest_silent ht hrun he
  | applyTable k =>
    have hrun := fun u hu => applyTable_elim_silent k .request (f := finishTable) (s := u) hu fun _ w _ => .finish w _
    exact harnessRequest_silent ht hrun he
  | wr a v => exact atEntry_silent (fun k j ret => entryWr_silent k j ret a v ht) he
  | wait ms => exact atEntry_silent (run := fun _ _ _ => entryWait ms) (fun _ _ _ => .sleep s _) he
  | endTable x => exact atEntry_silent (run := fun _ _ _ => entryEnd) (fun _ _ _ => .refl s) he

theorem stepEntry_silent {k : TableId} {j : Nat} {s t : State} (ht : s.transport = false)
    (he : stepEntry k j s = .next t) : BusSilent s t := by
  unfold stepEntry at he
  split at he
  · cases he
    exact .raiseFault s _
  · split at he
    · cases he
      exact .raiseFault s _
    · exact exec_silent ht he

/-- A running command: the invariant shuts out the positions that wait for the bus without a transport. -/
theorem stepRunning_silent {s t : State} (hs : StateInv s) (ht : s.transport = false) (he : stepRunning s = .next t) :
    BusSilent s t := by
  have hc := hs.control_ok
  unfold stepRunning at he
  cases hk : s.control <;> simp only [hk] at hc he
  case idle => cases he
  case hook k =>
    split at he
    · cases he
      exact afterHook_silent k s
    · cases he
  case write => exact absurd (ht.symm.trans hc.1) (by simp)
  case read => exact absurd (ht.symm.trans hc.1) (by simp)
  case table => exact stepEntry_silent ht he
  case tableDone ret r =>
    cases he
    exact afterTable_silent ret r ht

/-- Settles O58: a step refuses a frame, runs the instruction it decodes to, or goes on with the running command, and none of them
uses the bus. -/
theorem noTransportNoBusTraffic : Obligations.NoTransportNoBusTraffic := by
  intro s t hs ht he
  have hsilent : BusSilent s t := by
    have hport : BusSilent s s.clearPort := .of_eq rfl rfl rfl
    obtain ⟨-, ⟨p, f, -, rfl⟩ | ⟨p, i, -, -, -, he⟩ | ⟨-, -, he⟩⟩ := step_cases he
    · exact hport.trans (.raiseFault _ f)
    · exact hport.trans (exec_silent ht he)
    · exact stepRunning_silent hs ht he
  exact ⟨hsilent.trace, hsilent.writeAnswers, hsilent.readAnswers⟩

end Sys2Proof.Machine
end

section
/-! SUPPORT. What a POLL_STATUS comes to, and what it spends however it is answered: the proofs of the statements of
41_status_poller.md. -/

namespace Sys2Proof.Machine

/-! ## POLL_STATUS (41_status_poller.md R170 to R178) -/

theorem exec_pollStatus_ready {s : State} (h : ready s) (sa sv ra e : Word) (d n : Long) :
    exec (.pollStatus sa sv ra e d n) s = .next
      ((pollStatus ⟨sa, sv, ra, e, d, n⟩ .request (s.accept (.pollStatus sa sv ra e d n))).elim finishPoll) := by
  rw [exec, execPollStatus, harnessRequest_ready h]

/-- A POLL_STATUS whose poll returns is completed with the poll's outcome. -/
theorem exec_pollStatus_does {s : State} {sa sv ra e : Word} {d n : Long} {evs : List Event} {usedW ws : List WriteAnswer}
    {usedR rs : List ReadAnswer} {o : PollOutcome} (h : ready s)
    (hdoes : pollDoes s ⟨sa, sv, ra, e, d, n⟩ evs usedW usedR o) (hw : s.writeAnswers = usedW ++ ws)
    (hr : s.readAnswers = usedR ++ rs) :
    exec (.pollStatus sa sv ra e d n) s =
      .next (completed s (.pollStatus sa sv ra e d n) evs (pollResult o) ws rs) := by
  have haccepted : pollDoes (s.accept (.pollStatus sa sv ra e d n)) ⟨sa, sv, ra, e, d, n⟩ evs usedW usedR o :=
    (pollDoes_congr rfl rfl _ _ _ _ _).2 hdoes
  rw [exec_pollStatus_ready h, pollStatus_does haccepted .request ws rs hw hr, Run.elim_done, finishPoll, completed_eq]

/-- Settles O21: the answers are those of a poll that ends at its first hit. -/
theorem pollConvergesAtFirstHit : Obligations.PollConvergesAtFirstHit := by
  intro s sa sv ra e d n its x ws rs hready ht hm hx hl hw hr
  exact exec_pollStatus_does (o := .converged e) hready
    (.inl ⟨ht, its, hm, .inl ⟨x, hx, hl, rfl, rfl, rfl, rfl⟩⟩) hw hr

/-- Settles O22: the answers are those of a poll whose whole budget misses, or there is no transport. -/
theorem pollTimesOutWithLastRead : Obligations.PollTimesOutWithLastRead := by
  refine ⟨fun s sa sv ra e d n its ws rs hready ht hm hl hw hr => ?_, fun s sa sv ra e d n hready ht => ?_⟩
  · exact exec_pollStatus_does (o := .timeout (lastRead its)) hready
      (.inl ⟨ht, its, hm, .inr ⟨hl, rfl, rfl, rfl, rfl⟩⟩) hw hr
  · exact exec_pollStatus_does (o := .timeout none) hready (.inr ⟨ht, rfl, rfl, rfl, rfl⟩) rfl rfl

/-! ## What a poll spends (41_status_poller.md R179) -/

/-- From `s` to `t` the trace grew by at most `reads` reads and at most `writes` write attempts, and by at least `ms` milliseconds
of sleep. -/
structure Spent (reads writes ms : Nat) (s t : State) : Prop where
  reads  : t.trace.countP isReadEvent ≤ s.trace.countP isReadEvent + reads
  writes : t.trace.countP isWriteEvent ≤ s.trace.countP isWriteEvent + writes
  slept  : sleptAtLeast s.trace + ms ≤ sleptAtLeast t.trace

theorem sleptAtLeast_append (xs ys : List Event) : sleptAtLeast (xs ++ ys) = sleptAtLeast xs + sleptAtLeast ys := by
  simp [sleptAtLeast]

theorem Spent.of_events {r w m : Nat} {s t : State} {evs : List Event} (htr : t.trace = s.trace ++ evs)
    (hr : evs.countP isReadEvent ≤ r) (hw : evs.countP isWriteEvent ≤ w) (hm : m ≤ sleptAtLeast evs) : Spent r w m s t := by
  constructor <;> simp only [htr, List.countP_append, sleptAtLeast_append] <;> omega

theorem Spent.events {r w m : Nat} {s t : State} {evs : List Event} (h : Spent r w m s t)
    (htr : t.trace = s.trace ++ evs) :
    evs.countP isReadEvent ≤ r ∧ evs.countP isWriteEvent ≤ w ∧ m ≤ sleptAtLeast evs := by
  obtain ⟨hr, hw, hm⟩ := h
  simp only [htr, List.countP_append, sleptAtLeast_append] at hr hw hm
  omega

theorem Spent.refl (s : State) : Spent 0 0 0 s s := ⟨le_rfl, le_rfl, le_rfl⟩

theorem Spent.trans {r₁ w₁ m₁ r₂ w₂ m₂ : Nat} {s t u : State} (h : Spent r₁ w₁ m₁ s t) (k : Spent r₂ w₂ m₂ t u) :
    Spent (r₁ + r₂) (w₁ + w₂) (m₁ + m₂) s u := by
  obtain ⟨hr, hw, hm⟩ := h
  obtain ⟨kr, kw, km⟩ := k
  constructor <;> omega

theorem Spent.mono {r w m r' w' m' : Nat} {s t : State} (h : Spent r w m s t) (hr : r ≤ r') (hw : w ≤ w') (hm : m' ≤ m) :
    Spent r' w' m' s t :=
  ⟨h.reads.trans (by omega), h.writes.trans (by omega), le_trans (by omega) h.slept⟩

theorem Spent.finish (s : State) (r : Result) : Spent 0 0 0 s (s.finish r) := .of_events rfl le_rfl le_rfl le_rfl

theorem Spent.sleep (s : State) (ms : Long) : Spent 0 0 ms.toNat s (s.sleep ms) := .of_events rfl le_rfl le_rfl le_rfl

/-- What a unit spent and what its continuation spends; a unit that stands still has spent no more than both. -/
theorem Run.bind_spent {α β : Type} {r₁ w₁ r₂ w₂ m : Nat} {s : State} {x : Run α} {f : α → State → Run β}
    (hx : Spent r₁ w₁ m s x.state) (hf : ∀ r u, Spent r₂ w₂ 0 u (f r u).state) :
    Spent (r₁ + r₂) (w₁ + w₂) m s (x.bind f).state := by
  cases x with
  | done r u => exact hx.trans (hf r u)
  | stop u => exact hx.mono (by omega) (by omega) le_rfl

/-- A failed attempt that is retried is one write and no read. -/
theorem retries_count (c : Cfg) (a v : Word) (j : Nat) :
    (List.replicate j (retryEvents c a v)).flatten.countP isReadEvent = 0 ∧
      (List.replicate j (retryEvents c a v)).flatten.countP isWriteEvent = j := by
  simp [List.countP_flatten, List.countP_cons, retryEvents, isReadEvent, isWriteEvent]

theorem attempts_count (c : Cfg) (a v : Word) (j : Nat) (o : WriteAnswer) :
    ((List.replicate j (retryEvents c a v)).flatten ++ [Event.wr a v o]).countP isReadEvent = 0 ∧
      ((List.replicate j (retryEvents c a v)).flatten ++ [Event.wr a v o]).countP isWriteEvent = 1 + j := by
  obtain ⟨hr, hw⟩ := retries_count c a v j
  exact ⟨by rw [List.countP_append, hr]; rfl, by rw [List.countP_append, hw, Nat.add_comm]; rfl⟩

theorem writeAttempts_spent (ret : WriteRet) (a v : Word) (left : Nat) (s : State) :
    Spent 0 (1 + left) 0 s (writeAttempts ret a v left s).state := by
  rcases writeAnswers_cases left s.writeAnswers with ⟨j, ws, hj, h⟩ | ⟨ws, h⟩ | ⟨j, hj, h⟩
  · obtain ⟨hr, hw⟩ := attempts_count s.cfg a v j .ack
    rw [writeAttempts_acked ret a v j left s ws hj h]
    exact .of_events rfl hr.le (hw.le.trans (by omega)) (Nat.zero_le _)
  · obtain ⟨hr, hw⟩ := attempts_count s.cfg a v left .nak
    rw [writeAttempts_failed ret a v left s ws h]
    exact .of_events rfl hr.le hw.le (Nat.zero_le _)
  · obtain ⟨hr, hw⟩ := retries_count s.cfg a v j
    rw [writeAttempts_held ret a v j left s hj h]
    exact .of_events rfl hr.le (hw.le.trans (by omega)) (Nat.zero_le _)

theorem writeRegister_spent (ret : WriteRet) (a v : Word) (s : State) :
    Spent 0 (1 + s.cfg.writeRetries.toNat) 0 s (writeRegister ret a v s).state := by
  cases h : s.transport
  · rw [writeRegister_noTransport ret a v s h]
    exact (Spent.refl s).mono le_rfl (Nat.zero_le _) le_rfl
  · rw [writeRegister_transport ret a v s h]
    exact writeAttempts_spent ret a v _ s

theorem readRegister_spent (ret : ReadRet) (a : Word) (s : State) : Spent 1 0 0 s (readRegister ret a s).state := by
  cases h : s.transport
  · rw [readRegister_noTransport ret a s h]
    exact (Spent.refl s).mono (Nat.zero_le _) le_rfl le_rfl
  · rw [readRegister_transport ret a s h]
    rcases hr : s.readAnswers with _ | ⟨r, rs⟩
    · rw [resumeRead_held ret a s hr]
      exact .of_events (List.append_nil _).symm (Nat.zero_le _) le_rfl le_rfl
    · rw [resumeRead_answered ret a s r rs hr]
      exact .of_events rfl le_rfl le_rfl le_rfl

theorem pollAfterWrite_spent (p : Poll) (r : WriteResult) (s : State) : Spent 1 0 0 s (pollAfterWrite p r s).state := by
  cases r with
  | fail e => exact (Spent.refl s).mono (Nat.zero_le _) le_rfl le_rfl
  | ok =>
    refine Run.bind_spent (r₂ := 0) (w₂ := 0) (readRegister_spent _ _ s) fun r u => ?_
    obtain ⟨it, h⟩ := pollAfterRead_spec p r u
    rw [h]
    exact .refl u

/-- An iteration, finished or waiting, has slept its delay and is within one read and the attempts of one write
(41_status_poller.md R171 to R173). -/
theorem pollIteration_spent (p : Poll) (s : State) :
    Spent 1 (1 + s.cfg.writeRetries.toNat) p.req.delayMs.toNat s (pollIteration p s).state := by
  have hwrite := (Spent.sleep s p.req.delayMs).trans
    (writeRegister_spent (.selector p) p.req.selAddr p.req.selValue (s.sleep p.req.delayMs))
  refine (Run.bind_spent hwrite fun r u => pollAfterWrite_spent p r u).mono ?_ ?_ ?_ <;> simp

/-- The iterations of a poll spend at most their reads and their writes; all of them have slept when the poll times out. -/
theorem pollLoop_spent (left : Nat) (p : Poll) (s : State) :
    Spent left (left * (1 + s.cfg.writeRetries.toNat)) 0 s (pollLoop left p s).state ∧
      ∀ last u, pollLoop left p s = .done (.timeout last) u →
        Spent left (left * (1 + s.cfg.writeRetries.toNat)) (left * p.req.delayMs.toNat) s u := by
  induction left generalizing p s with
  | zero =>
    simp only [Nat.zero_mul]
    refine ⟨.refl s, fun last u h => ?_⟩
    cases h
    exact .refl s
  | succ left ih =>
    have hfirst := pollIteration_spent p s
    have hwork := (pollIteration_worked p s).1
    rw [pollLoop, Nat.add_comm left 1, Nat.add_mul, Nat.add_mul, Nat.one_mul, Nat.one_mul]
    have hended := hfirst.mono (Nat.le_add_right 1 left)
      (Nat.le_add_right _ (left * (1 + s.cfg.writeRetries.toNat))) (Nat.zero_le _)
    rcases h : pollIteration p s with ⟨it, t⟩ | t <;> rw [h] at hfirst hended hwork
    · cases it with
      | converged v => exact ⟨hended, by simp⟩
      | again last =>
        obtain ⟨hrest, htimeout⟩ := ih (nextIteration p last) t
        have hcfg : t.cfg = s.cfg := hwork.extended.cfg
        rw [hcfg] at hrest htimeout
        exact ⟨(hfirst.trans hrest).mono le_rfl le_rfl (Nat.zero_le _),
          fun last' u hu => hfirst.trans (htimeout last' u hu)⟩
    · exact ⟨hended, by simp⟩

/-! ## The budget of a POLL_STATUS -/

theorem requestedPoll_spent (req : PollReq) (s : State) :
    Spent req.maxAttempts.toNat (req.maxAttempts.toNat * (1 + s.cfg.writeRetries.toNat)) 0 s
      ((pollStatus req .request s).elim finishPoll) := by
  have hpoll : Spent _ _ 0 s (pollStatus req .request s).state := (pollLoop_spent _ _ s).1
  rcases hx : pollStatus req .request s with ⟨o, u⟩ | u <;> rw [hx] at hpoll
  · exact hpoll.trans (.finish u _)
  · exact hpoll

/-- A poll's own events hold no result, so a Timeout is delivered only by a poll that timed out (41_status_poller.md R177). -/
theorem requestedPoll_timeout {req : PollReq} {s : State} {evs : List Event} {last : Option Word}
    (htr : ((pollStatus req .request s).elim finishPoll).trace = s.trace ++ evs) (hm : .result (.timeout last) ∈ evs) :
    ∃ u, pollStatus req .request s = .done (.timeout last) u := by
  obtain ⟨work, hwork, hport⟩ := (pollStatus_worked req .request s).1.unitOnly
  have hnone : .result (.timeout last) ∉ work := fun h => absurd (hport _ h) (by simp [isPortEvent])
  rcases hx : pollStatus req .request s with ⟨o, u⟩ | u <;>
    simp only [hx, Run.elim_done, Run.elim_stop, Run.state_done, Run.state_stop, finishPoll, State.finish_trace] at htr hwork
  · rw [hwork, List.append_assoc, List.append_cancel_left_eq] at htr
    subst htr
    have ho : .timeout last = pollResult o := by simpa [hnone] using hm
    cases o with
    | converged v => cases ho
    | timeout l =>
      cases ho
      exact ⟨u, rfl⟩
  · rw [hwork, List.append_cancel_left_eq] at htr
    exact absurd (htr ▸ hm) hnone

/-- Between a POLL_STATUS's acceptance and its result or its wait, R179's bounds hold. -/
theorem requestedPoll_budget (req : PollReq) (s : State) :
    ∃ evs, ((pollStatus req .request s).elim finishPoll).trace = s.trace ++ evs ∧
      evs.countP isReadEvent ≤ req.maxAttempts.toNat ∧
      evs.countP isWriteEvent ≤ req.maxAttempts.toNat * (1 + s.cfg.writeRetries.toNat) ∧
      ((∃ last, .result (.timeout last) ∈ evs) → req.maxAttempts.toNat * req.delayMs.toNat ≤ sleptAtLeast evs) := by
  obtain ⟨evs, htr⟩ := (Extends.elim (pollStatus_worked req .request s).1
    fun o u => finish_extends u (pollResult o)).trace
  obtain ⟨hreads, hwrites, -⟩ := (requestedPoll_spent req s).events htr
  refine ⟨evs, htr, hreads, hwrites, fun ⟨last, hm⟩ => ?_⟩
  obtain ⟨u, hx⟩ := requestedPoll_timeout htr hm
  have htimeout := ((pollLoop_spent _ _ s).2 last u hx).trans (.finish u (.timeout last))
  rw [hx] at htr
  exact (htimeout.events htr).2.2

/-- Settles O23: accepting the request adds no transaction and no sleep, so the bounds are those of `requestedPoll_budget`. -/
theorem pollStaysInBudget : Obligations.PollStaysInBudget := by
  intro s t sa sv ra e d n hready he
  rw [exec_pollStatus_ready hready] at he
  cases he
  obtain ⟨evs, htr, hreads, hwrites, htimeout⟩ :=
    requestedPoll_budget ⟨sa, sv, ra, e, d, n⟩ (s.accept (.pollStatus sa sv ra e d n))
  refine ⟨.cmd (.pollStatus sa sv ra e d n) :: evs, by simp [htr], ?_, ?_, fun ⟨last, hm⟩ => ?_⟩
  · simpa [isReadEvent] using hreads
  · simpa [isWriteEvent] using hwrites
  · simpa [sleptAtLeast, eventMs] using htimeout ⟨last, by simpa using hm⟩

end Sys2Proof.Machine
end

section
/-! SUPPORT. What an APPLY_TABLE comes to, what an entry at the cursor does, and what both leave alone: the proofs of the
statements of 42_table_interpreter.md. -/

namespace Sys2Proof.Machine

/-! ## APPLY_TABLE with a result (42_table_interpreter.md R200 to R210) -/

theorem exec_applyTable_ready {s : State} (h : ready s) (t : TableId) :
    exec (.applyTable t) s = .next ((applyTable t .request (s.accept (.applyTable t))).elim finishTable) := by
  rw [exec, execApplyTable, harnessRequest_ready h]

/-- An APPLY_TABLE whose table returns is completed with the table's result. -/
theorem exec_applyTable_does {s : State} {t : TableId} {evs : List Event} {used ws : List WriteAnswer} {r : TableResult}
    (h : ready s) (hdoes : tableDoes s t evs used r) (hw : s.writeAnswers = used ++ ws) :
    exec (.applyTable t) s = .next (completed s (.applyTable t) evs (tableResult r) ws s.readAnswers) := by
  have haccepted : tableDoes (s.accept (.applyTable t)) t evs used r := (tableDoes_congr rfl rfl _ _ _ _).2 hdoes
  rw [exec_applyTable_ready h, applyTable_does haccepted .request ws hw, Run.elim_done, finishTable, completed_eq]
  rfl

/-- Settles O25: the answers are those of a table that ends at its END or at the WR entry that fails. -/
theorem applyTableOutcomes : Obligations.ApplyTableOutcomes := by
  intro s t xs ws hready ht hx
  refine ⟨fun hb hw => ?_, fun e hb hw => ?_⟩
  · exact exec_applyTable_does (r := .ok) hready (.inl ⟨ht, xs, hx, .inl ⟨rfl, hb, rfl, rfl⟩⟩) hw
  · exact exec_applyTable_does (r := .writeError xs.length .transferError) hready
      (.inl ⟨ht, xs, hx, .inr ⟨e, rfl, hb, rfl, rfl⟩⟩) (by simpa using hw)

/-- Settles O26: without a transport a table takes no answer, and ends at its END or at its first WR entry. -/
theorem applyTableWithoutTransport : Obligations.ApplyTableWithoutTransport := by
  intro s t es hready ht hk
  refine ⟨fun e hb => ?_, fun hb => ?_⟩
  · exact exec_applyTable_does (r := .writeError es.length .noDevice) hready
      (.inr ⟨ht, rfl, es, hk, rfl, .inr ⟨e, rfl, hb⟩⟩) rfl
  · exact exec_applyTable_does (r := .ok) hready (.inr ⟨ht, rfl, es, hk, rfl, .inl ⟨rfl, hb⟩⟩) rfl

/-! ## Entries acknowledged at once (42_table_interpreter.md R208) -/

@[simp] theorem atOnce_map_fst (es : List Entry) : (atOnce es).map Prod.fst = es := by
  simp [atOnce, Function.comp_def]

theorem atOnce_fit {c : Cfg} {es : List Entry} (h : ∀ e ∈ es, entryKind c e ≠ .endTable) : entriesFit c (atOnce es) := by
  intro x hx
  obtain ⟨e, he, rfl⟩ := List.mem_map.1 hx
  exact ⟨h e he, Nat.zero_le _⟩

/-- With no failed attempt an entry's events are its one write or its one sleep. -/
theorem entryEvents_atOnce (c : Cfg) (e : Entry) : entryEvents c (e, 0) = ackedEntryEvents c e := by
  unfold entryEvents ackedEntryEvents
  cases entryKind c e <;> rfl

theorem tableEvents_atOnce (c : Cfg) (es : List Entry) : tableEvents c (atOnce es) = es.flatMap (ackedEntryEvents c) := by
  simp [tableEvents, atOnce, List.flatMap_map, entryEvents_atOnce]

/-- One acknowledgement for each WR entry. -/
theorem tableWrites_atOnce (c : Cfg) (es : List Entry) :
    tableWrites c (atOnce es) = List.replicate (es.countP fun e => entryKind c e = .wr) .ack := by
  induction es with
  | nil => rfl
  | cons e es ih =>
    simp only [tableWrites, atOnce, List.map_cons, List.flatMap_cons, List.countP_cons] at ih ⊢
    rw [ih]
    cases hk : entryKind c e <;> simp [entryWrites, hk, List.replicate_succ]

/-- Settles O24: a fault-free table is one whose writes are acknowledged after no failed attempt. -/
theorem applyTableFaultFree : Obligations.ApplyTableFaultFree := by
  intro s t es ws hready ht hb hw
  rw [← tableWrites_atOnce] at hw
  rw [← tableEvents_atOnce]
  exact (applyTableOutcomes s t (atOnce es) ws hready ht (atOnce_fit hb.1)).1 (by simpa using hb) hw

/-! ## Table faults (42_table_interpreter.md R204) -/

theorem applyTable_unknown {t : TableId} {s : State} (ret : TableRet) (h : readTable s.cfg t = none) :
    applyTable t ret s = .stop ((s.setControl (.table t 0 ret)).raiseFault .noTable) := by
  rw [applyTable, h]

/-- A table that runs past its last entry, every write acknowledged within its retries. -/
theorem applyTable_overrun_acked {t : TableId} {s : State} (ret : TableRet) {xs : List (Entry × Nat)}
    {ws : List WriteAnswer} (ht : s.transport = true) (hx : entriesFit s.cfg xs)
    (hr : readTable s.cfg t = some (xs.map Prod.fst)) (hw : s.writeAnswers = tableWrites s.cfg xs ++ ws) :
    applyTable t ret s = .stop
      (((s.after (tableEvents s.cfg xs) ws s.readAnswers).setControl (.table t xs.length ret)).raiseFault .tableOverrun) := by
  have hloop := tableLoop_acked t ret xs [] 0 s ws ht hx hw
  rw [List.append_nil, Nat.zero_add] at hloop
  rw [applyTable, hr]
  exact hloop

/-- A table of WAITs that runs past its last entry, with a transport or without one. -/
theorem applyTable_overrun_waits {t : TableId} {s : State} (ret : TableRet) {es : List Entry}
    (hk : ∀ e ∈ es, entryKind s.cfg e = .wait) (hr : readTable s.cfg t = some es) :
    applyTable t ret s = .stop
      (((s.after (es.map fun x => .sleep (waitMs x.value)) s.writeAnswers s.readAnswers).setControl
        (.table t es.length ret)).raiseFault .tableOverrun) := by
  have hloop := tableLoop_waits t ret es [] 0 s hk
  rw [List.append_nil, Nat.zero_add, waits_events _ _ hk] at hloop
  rw [applyTable, hr]
  exact hloop

theorem accept_sameSession (i : Instr) (s : State) : SameSession s (s.accept i) := ⟨rfl, rfl, rfl, rfl⟩

/-- An APPLY_TABLE whose table stops with a fault delivers no result, stays busy and leaves the session. -/
theorem exec_applyTable_fault {s u : State} {t : TableId} {evs : List Event} {f : FaultKind} (h : ready s)
    (hstop : applyTable t .request (s.accept (.applyTable t)) = .stop u) (hf : u.fault = some f)
    (htr : u.trace = s.trace ++ .cmd (.applyTable t) :: evs) :
    ∃ u, exec (.applyTable t) s = .next u ∧ u.fault = some f ∧ u.busy = true ∧
      u.trace = s.trace ++ .cmd (.applyTable t) :: evs ∧ SameSession s u := by
  have hw := applyTable_worked t .request (s.accept (.applyTable t))
  rw [hstop, Run.state_stop] at hw
  refine ⟨u, ?_, hf, hw.busy, htr, (accept_sameSession _ s).trans hw.session⟩
  rw [exec_applyTable_ready h, hstop, Run.elim_stop]

/-- Settles O27: the three ways a table application stops with a fault. -/
theorem tableFaults : Obligations.TableFaults := by
  intro s t hready
  refine ⟨fun hr => ?_, fun xs ws ht hx hr hw => ?_, fun es _ hk hr => ?_⟩
  · exact exec_applyTable_fault hready (applyTable_unknown .request hr) rfl rfl
  · exact exec_applyTable_fault hready (applyTable_overrun_acked .request ht hx hr hw) rfl (by simp)
  · exact exec_applyTable_fault hready (applyTable_overrun_waits .request hk hr) rfl (by simp)

/-! ## Entries at the cursor (42_table_interpreter.md R200 to R203) -/

/-- Settles O7: with nothing presented the step of a running table fetches its entry. -/
theorem stepRunsEntryAtCursor : Obligations.StepRunsEntryAtCursor := by
  intro s t i ret es e hf hb hp hc hr he
  rw [step_running hf hb hp]
  simp only [stepRunning, hc, stepEntry, hr, he]

theorem atEntry_cursor {run : TableId → Nat → TableRet → State → State} {s : State} {t : TableId} {i : Nat}
    {ret : TableRet} (hf : s.fault = none) (hc : s.control = .table t i ret) :
    atEntry run s = .next (run t i ret s) := by
  simp [atEntry, hf, hc]

/-- A WR entry whose write returns leaves its table where the write's result puts it. -/
theorem exec_wr_done {s u : State} {t : TableId} {i : Nat} {ret : TableRet} {a v : Word} {r : WriteResult}
    (hf : s.fault = none) (hc : s.control = .table t i ret) (hwrite : writeRegister (.entry t i ret) a v s = .done r u) :
    exec (.wr a v) s = .next (afterEntry t i ret (afterEntryWrite r) u) := by
  rw [exec, execWr, atEntry_cursor hf hc, entryWr, hwrite, Run.bind_done, Run.elim_done]

/-- Settles O28: the attempts of the write are those of `writeAttempts_acked` and `writeAttempts_failed`; without a transport there
is none. -/
theorem wrEntryWritesRegister : Obligations.WrEntryWritesRegister := by
  intro s t i ret a v hf hc
  refine ⟨fun ht j ws hj hw => ?_, fun ht ws hw => ?_, fun ht => ?_⟩
  · exact exec_wr_done hf hc
      ((writeRegister_transport _ _ _ _ ht).trans (writeAttempts_acked _ _ _ j _ _ ws hj hw))
  · exact exec_wr_done hf hc
      ((writeRegister_transport _ _ _ _ ht).trans (writeAttempts_failed _ _ _ _ _ ws hw))
  · exact exec_wr_done hf hc (writeRegister_noTransport _ _ _ _ ht)

/-- Settles O29: a WAIT entry is one sleep, and the table goes on. -/
theorem waitEntrySleeps : Obligations.WaitEntrySleeps := by
  intro s t i ret ms hf hc
  rw [exec, execWait, atEntry_cursor hf hc]
  rfl

/-- Settles O30: at the cursor END only moves the position; a table that begins with it does nothing, with a transport or
without one. -/
theorem endEntryEndsTable : Obligations.EndEntryEndsTable := by
  refine ⟨fun s t i ret x hf hc => ?_, fun s t hready hb => ?_⟩
  · rw [exec, execEndTable, atEntry_cursor hf hc]
    rfl
  · cases ht : s.transport with
    | true => exact (applyTableOutcomes s t [] s.writeAnswers hready ht (by simp [entriesFit])).1 hb rfl
    | false => exact (applyTableWithoutTransport s t [] hready ht (by simp)).2 hb

/-! ## The frame of the commands (42_table_interpreter.md R212, 43_mode_effect.md R254, 44_control_surface.md R286) -/

/-- A command that is not OPEN, CLOSE or SET_MODE changes no session field. -/
theorem exec_command_sameSession {i : Instr} {s t : State} (hi : isCommand i = true) (hopen : i ≠ .openSession)
    (hclose : i ≠ .closeSession) (hmode : commandMode i = none) (he : exec i s = .next t) : SameSession s t := by
  rcases exec_command_cases hi he with ⟨f, rfl⟩ | ⟨-, ⟨h, -⟩ | ⟨h, -⟩ | ⟨-, h⟩⟩
  · exact ⟨rfl, rfl, rfl, rfl⟩
  · exact absurd h hopen
  · exact absurd h hclose
  · rw [hmode] at h
    exact (accept_sameSession i s).trans h.sameSession

/-- Settles O47: every instruction extends the state it starts in, and none of the three commits a mode. -/
theorem tableCommandFrame : Obligations.TableCommandFrame := by
  intro s t i hi he
  refine ⟨exec_extends he, ?_⟩
  obtain ⟨k, rfl⟩ | ⟨k, v, rfl⟩ | rfl := hi
  all_goals exact exec_command_sameSession rfl (by simp) (by simp) rfl he

/-! ## The frame of the entries (42_table_interpreter.md R201 to R203, R212) -/

theorem writeRegister_readAnswers (ret : WriteRet) (a v : Word) (s : State) :
    (writeRegister ret a v s).state.readAnswers = s.readAnswers := by
  cases ht : s.transport with
  | false => rw [writeRegister_noTransport _ _ _ _ ht, Run.state_done]
  | true =>
    rw [writeRegister_transport _ _ _ _ ht]
    rcases writeAnswers_cases s.cfg.writeRetries.toNat s.writeAnswers with ⟨j, ws, hj, h⟩ | ⟨ws, h⟩ | ⟨j, hj, h⟩
    · rw [writeAttempts_acked _ _ _ j _ _ ws hj h, Run.state_done, State.after_readAnswers]
    · rw [writeAttempts_failed _ _ _ _ _ ws h, Run.state_done, State.after_readAnswers]
    · rw [writeAttempts_held _ _ _ j _ _ hj h, Run.state_stop, State.setControl_readAnswers, State.after_readAnswers]

theorem entryWr_readAnswers (t : TableId) (i : Nat) (ret : TableRet) (a v : Word) (s : State) :
    (entryWr t i ret a v s).state.readAnswers = s.readAnswers := by
  rw [← writeRegister_readAnswers (.entry t i ret) a v s, entryWr]
  cases writeRegister (.entry t i ret) a v s <;> rfl

/-- Handing an entry's result to its table moves the position and nothing else. -/
theorem elim_afterEntry_eq_setControl (t : TableId) (i : Nat) (ret : TableRet) (x : Run EntryResult) :
    ∃ c, x.elim (afterEntry t i ret) = x.state.setControl c := by
  rcases x with ⟨r, u⟩ | u
  · cases r <;> exact ⟨_, rfl⟩
  · exact ⟨u.control, rfl⟩

/-- Settles O48: a WR entry leaves what its write leaves, a WAIT entry only sleeps, and an END entry does nothing but end its
table. -/
theorem entryFrame : Obligations.EntryFrame := by
  intro s t i hi he
  refine ⟨entry_extends hi he, ?_⟩
  cases i with
  | wr a v =>
    rw [exec, execWr] at he
    obtain ⟨-, k, j, ret, -, ht⟩ := atEntry_cases he
    obtain ⟨c, hc⟩ := elim_afterEntry_eq_setControl k j ret (entryWr k j ret a v s)
    obtain rfl : t = (entryWr k j ret a v s).state.setControl c := ht.trans hc
    obtain ⟨hw, hfault⟩ := entryWr_worked k j ret a v s
    exact ⟨(hw.setControl c).session, hfault, hw.busy, entryWr_readAnswers k j ret a v s, by simp, by simp⟩
  | wait ms =>
    rw [exec, execWait] at he
    obtain ⟨-, k, j, ret, -, rfl⟩ := atEntry_cases he
    exact ⟨⟨rfl, rfl, rfl, rfl⟩, rfl, rfl, rfl, fun _ => rfl, by simp⟩
  | endTable x =>
    rw [exec, execEndTable] at he
    obtain ⟨-, k, j, ret, -, rfl⟩ := atEntry_cases he
    exact ⟨⟨rfl, rfl, rfl, rfl⟩, rfl, rfl, rfl, fun _ => rfl, fun _ => ⟨rfl, rfl⟩⟩
  | _ => cases hi

end Sys2Proof.Machine
end

section
/-! SUPPORT. What a SET_MODE and a SET_EFFECT come to, step by step as their tables and polls return, and what SET_MODE writes: the
proofs of the statements of 43_mode_effect.md. -/

namespace Sys2Proof.Machine

/-! ## Resolutions and classes (43_mode_effect.md R230, R231, R245) -/

/-- The search finds a mode only by its own pair, and no two modes share one. -/
theorem resolve_eq_some_iff {w h : Long} {m : ModeId} : resolve w h = some m ↔ w = modeWidth m ∧ h = modeHeight m := by
  constructor
  · intro hm
    have hpair : modeWidth m = w ∧ modeHeight m = h := by simpa using List.find?_some hm
    exact ⟨hpair.1.symm, hpair.2.symm⟩
  · rintro ⟨rfl, rfl⟩
    exact resolve_self m

/-- Settles O33: a mode is resolved from its own pair alone, here written out for each mode. -/
theorem resolveMatchesExactly : Obligations.ResolveMatchesExactly := by
  intro w h m
  rw [resolve_eq_some_iff]
  cases m <;> simp [modeWidth, modeHeight]

/-- Settles O35: `expectedFor` and `modeClass` are read off for each mode, and the two defaults are those of `Cfg`. -/
theorem expectedValueByClass : Obligations.ExpectedValueByClass :=
  ⟨fun _ => ⟨rfl, rfl, rfl, rfl⟩, rfl, rfl, rfl, rfl, rfl, rfl⟩

/-! ## SET_MODE once accepted (43_mode_effect.md R240, R241) -/

theorem exec_setMode_ready {s : State} (h : readyInSession s) (w v : Long) :
    exec (.setMode w v) s = .next (setMode w v (s.accept (.setMode w v))) := by
  rw [exec, execSetMode, hostCommand_ready h (by simp)]

/-- An accepted command has done nothing yet. -/
theorem accept_eq_after (s : State) (i : Instr) :
    s.accept i = (s.accept i).after [] s.writeAnswers s.readAnswers := (State.after_nil (s.accept i)).symm

/-- Settles O34: no mode has another pair, and SET_MODE fails where no mode is resolved. -/
theorem setModeRejectsOtherResolutions : Obligations.SetModeRejectsOtherResolutions := by
  intro s w h hready h1600 h1280 h800 h640
  have hnone : resolve w h = none := by
    refine Option.eq_none_iff_forall_ne_some.2 fun m hm => ?_
    rcases (resolveMatchesExactly w h m).1 hm with ⟨-, hp⟩ | ⟨-, hp⟩ | ⟨-, hp⟩ | ⟨-, hp⟩
    · exact h1600 hp
    · exact h1280 hp
    · exact h800 hp
    · exact h640 hp
  rw [exec_setMode_ready hready, setMode, hnone, accept_eq_after]
  exact congrArg _ (completed_eq ..)

section Steps

variable {s : State} {i : Instr} {l : Latch} {m : ModeId}

/-! ## The steps of SET_MODE, as their tables and polls return

Each step starts in the state of an accepted command that has done `evs`, with the answers it takes at the front of those to come. -/

theorem applyTable_accepted {t : TableId} {et : List Event} {wt : List WriteAnswer} {r : TableResult}
    (h : tableDoes s t et wt r) (ret : TableRet) (evs : List Event) (ws : List WriteAnswer) (rs : List ReadAnswer) :
    applyTable t ret ((s.accept i).after evs (wt ++ ws) rs) = .done r ((s.accept i).after (evs ++ et) ws rs) := by
  have hafter : tableDoes ((s.accept i).after evs (wt ++ ws) rs) t et wt r := (tableDoes_congr rfl rfl ..).2 h
  rw [applyTable_does hafter ret ws rfl, State.after_after, State.after_readAnswers]

theorem pollStatus_accepted {q : PollReq} {ep : List Event} {wp : List WriteAnswer} {rp : List ReadAnswer} {o : PollOutcome}
    (h : pollDoes s q ep wp rp o) (ret : PollRet) (evs : List Event) (ws : List WriteAnswer) (rs : List ReadAnswer) :
    pollStatus q ret ((s.accept i).after evs (wp ++ ws) (rp ++ rs)) =
      .done o ((s.accept i).after (evs ++ ep) ws rs) := by
  have hafter : pollDoes ((s.accept i).after evs (wp ++ ws) (rp ++ rs)) q ep wp rp o := (pollDoes_congr rfl rfl ..).2 h
  rw [pollStatus_does hafter ret ws rs rfl rfl, State.after_after]

theorem runInitTable_does {ei : List Event} {wi : List WriteAnswer} {r : TableResult}
    (h : tableDoes s s.cfg.tInit ei wi r) (evs : List Event) (ws : List WriteAnswer) (rs : List ReadAnswer) :
    runInitTable l ((s.accept i).after evs (wi ++ ws) rs) =
      afterInitTable l r ((s.accept i).after (evs ++ ei) ws rs) := by
  rw [runInitTable, State.after_cfg, State.accept_cfg, applyTable_accepted h, Run.elim_done]

theorem runInitPoll_does {ep : List Event} {wp : List WriteAnswer} {rp : List ReadAnswer} {o : PollOutcome}
    (h : pollDoes s (initPollReq s.cfg) ep wp rp o) (evs : List Event) (ws : List WriteAnswer) (rs : List ReadAnswer) :
    runInitPoll l ((s.accept i).after evs (wp ++ ws) (rp ++ rs)) =
      afterInitPoll l o ((s.accept i).after (evs ++ ep) ws rs) := by
  rw [runInitPoll, State.after_cfg, State.accept_cfg, pollStatus_accepted h, Run.elim_done]

/-- An initialization poll that SET_MODE goes on after leads to step 3, its log entry among its events (43_mode_effect.md
R242). -/
theorem runInitPoll_passes {ep : List Event} {wp : List WriteAnswer} {rp : List ReadAnswer}
    (h : initPollPasses s ep wp rp) (evs : List Event) (ws : List WriteAnswer) (rs : List ReadAnswer) :
    runInitPoll l ((s.accept i).after evs (wp ++ ws) (rp ++ rs)) =
      runModeTable l ((s.accept i).after (evs ++ ep) ws rs) := by
  rcases h with ⟨v, h⟩ | ⟨hpolicy, before, last, h, rfl⟩
  · rw [runInitPoll_does h, afterInitPoll]
  · rw [runInitPoll_does h, afterInitPoll]
    simp [hpolicy, State.log_eq_after]

theorem runModeTable_does {em : List Event} {wm : List WriteAnswer} {r : TableResult}
    (h : tableDoes s (tMode s.cfg l.m) em wm r) (evs : List Event) (ws : List WriteAnswer) (rs : List ReadAnswer) :
    runModeTable l ((s.accept i).after evs (wm ++ ws) rs) =
      afterModeTable l r ((s.accept i).after (evs ++ em) ws rs) := by
  rw [runModeTable, State.after_cfg, State.accept_cfg, applyTable_accepted h, Run.elim_done]

/-- A capture-class mode, and a session not yet initialized, skip the return to preview (43_mode_effect.md R246). -/
theorem runPreviewTable_skipped (h : l.wasInit = false ∨ modeClass l.m = .capture) (u : State) :
    runPreviewTable l u = runModePoll l u := by
  rcases h with h | h <;> simp [runPreviewTable, h]

theorem runPreviewTable_does {er : List Event} {wr : List WriteAnswer} {r : TableResult} (hinit : l.wasInit = true)
    (hclass : modeClass l.m = .preview) (h : tableDoes s s.cfg.tReturnPreview er wr r) (evs : List Event)
    (ws : List WriteAnswer) (rs : List ReadAnswer) :
    runPreviewTable l ((s.accept i).after evs (wr ++ ws) rs) =
      afterPreviewTable l r ((s.accept i).after (evs ++ er) ws rs) := by
  rw [runPreviewTable, if_pos (by simp [hinit, hclass]), State.after_cfg, State.accept_cfg, applyTable_accepted h,
    Run.elim_done]

theorem runModePoll_does {eq : List Event} {wq : List WriteAnswer} {rq : List ReadAnswer} {o : PollOutcome}
    (h : pollDoes s (modePollReq s.cfg l.m) eq wq rq o) (evs : List Event) (ws : List WriteAnswer) (rs : List ReadAnswer) :
    runModePoll l ((s.accept i).after evs (wq ++ ws) (rq ++ rs)) =
      afterModePoll l o ((s.accept i).after (evs ++ eq) ws rs) := by
  rw [runModePoll, State.after_cfg, State.accept_cfg, pollStatus_accepted h, Run.elim_done]

/-! ### The ends of SET_MODE -/

theorem afterInitTable_writeError (k : Nat) (c : BusError) (evs : List Event) (ws : List WriteAnswer)
    (rs : List ReadAnswer) :
    afterInitTable l (.writeError k c) ((s.accept i).after evs ws rs) =
      completed s i evs (.fail (.writeError k c)) ws rs := completed_eq ..

theorem afterModeTable_writeError (k : Nat) (c : BusError) (evs : List Event) (ws : List WriteAnswer)
    (rs : List ReadAnswer) :
    afterModeTable l (.writeError k c) ((s.accept i).after evs ws rs) =
      completed s i evs (.fail (.writeError k c)) ws rs := completed_eq ..

theorem afterPreviewTable_writeError (k : Nat) (c : BusError) (evs : List Event) (ws : List WriteAnswer)
    (rs : List ReadAnswer) :
    afterPreviewTable l (.writeError k c) ((s.accept i).after evs ws rs) =
      completed s i evs (.fail (.writeError k c)) ws rs := completed_eq ..

/-- Under the policy flag a timeout of the initialization poll is the result (43_mode_effect.md R242). -/
theorem afterInitPoll_timeout_fatal (hpolicy : s.cfg.initPollFatal = true) (last : Option Word) (evs : List Event)
    (ws : List WriteAnswer) (rs : List ReadAnswer) :
    afterInitPoll l (.timeout last) ((s.accept i).after evs ws rs) =
      completed s i evs (.fail (.pollTimeout last)) ws rs := by
  rw [afterInitPoll, if_pos (by simpa using hpolicy), completed_eq]

theorem afterModePoll_timeout (last : Option Word) (evs : List Event) (ws : List WriteAnswer) (rs : List ReadAnswer) :
    afterModePoll l (.timeout last) ((s.accept i).after evs ws rs) =
      completed s i evs (.fail (.pollTimeout last)) ws rs := completed_eq ..

/-- Convergence of the mode poll records the mode with the `Ok` (43_mode_effect.md R248). -/
theorem afterModePoll_converged (v : Word) (evs : List Event) (ws : List WriteAnswer) (rs : List ReadAnswer) :
    afterModePoll l (.converged v) ((s.accept i).after evs ws rs) =
      { completed s i evs .ok ws rs with initialized := true, mode := some l.m } := by
  rw [← completed_eq]
  rfl

/-! ### From step to step -/

/-- On an initialized session both tables lead to the mode poll: the return to preview for a preview-class mode alone. -/
theorem runModeTable_initialized {em er : List Event} {wm wr : List WriteAnswer}
    (hm : tableDoes s (tMode s.cfg m) em wm .ok)
    (hp : modeClass m = .preview → tableDoes s s.cfg.tReturnPreview er wr .ok)
    (hc : modeClass m = .capture → er = [] ∧ wr = []) (evs : List Event) (ws : List WriteAnswer) (rs : List ReadAnswer) :
    runModeTable ⟨m, true⟩ ((s.accept i).after evs (wm ++ (wr ++ ws)) rs) =
      runModePoll ⟨m, true⟩ ((s.accept i).after (evs ++ em ++ er) ws rs) := by
  rw [runModeTable_does hm, afterModeTable]
  cases hclass : modeClass m with
  | preview => rw [runPreviewTable_does rfl hclass (hp hclass), afterPreviewTable]
  | capture =>
    obtain ⟨rfl, rfl⟩ := hc hclass
    rw [runPreviewTable_skipped (.inr hclass), List.append_nil, List.nil_append]

/-- On a session not initialized the mode table leads to the mode poll. -/
theorem runModeTable_firstUse {em : List Event} {wm : List WriteAnswer} (hm : tableDoes s (tMode s.cfg m) em wm .ok)
    (evs : List Event) (ws : List WriteAnswer) (rs : List ReadAnswer) :
    runModeTable ⟨m, false⟩ ((s.accept i).after evs (wm ++ ws) rs) =
      runModePoll ⟨m, false⟩ ((s.accept i).after (evs ++ em) ws rs) := by
  rw [runModeTable_does hm, afterModeTable, runPreviewTable_skipped (.inl rfl)]

end Steps

section Execution

variable {s : State} {w h : Long} {m : ModeId}

/-! ## SET_MODE from its start -/

/-- On an initialized session SET_MODE begins with the mode's table. -/
theorem exec_setMode_initialized (hready : readyInSession s) (hres : resolve w h = some m) (hi : s.initialized = true) :
    exec (.setMode w h) s = .next
      (runModeTable ⟨m, true⟩ ((s.accept (.setMode w h)).after [] s.writeAnswers s.readAnswers)) := by
  rw [exec_setMode_ready hready, setMode, hres, ← accept_eq_after]
  simp [hi]

/-- On a session not initialized it begins with the init table. -/
theorem exec_setMode_firstUse (hready : readyInSession s) (hres : resolve w h = some m) (hi : s.initialized = false) :
    exec (.setMode w h) s = .next
      (runInitTable ⟨m, false⟩ ((s.accept (.setMode w h)).after [] s.writeAnswers s.readAnswers)) := by
  rw [exec_setMode_ready hready, setMode, hres, ← accept_eq_after]
  simp [hi]

/-- A failing init table is the result (43_mode_effect.md R243). -/
theorem exec_setMode_initFailed {ei : List Event} {wi ws : List WriteAnswer} {k : Nat} {c : BusError}
    (hready : readyInSession s) (hres : resolve w h = some m) (hi : s.initialized = false)
    (ht : tableDoes s s.cfg.tInit ei wi (.writeError k c)) (hw : s.writeAnswers = wi ++ ws) :
    exec (.setMode w h) s = .next (completed s (.setMode w h) ei (.fail (.writeError k c)) ws s.readAnswers) := by
  rw [exec_setMode_firstUse hready hres hi, hw, runInitTable_does ht, afterInitTable_writeError, List.nil_append]

/-- An init table that ends leads to the initialization poll, whatever its outcome. -/
theorem exec_setMode_initPolled {ei ep : List Event} {wi wp ws : List WriteAnswer} {rp rs : List ReadAnswer}
    {o : PollOutcome} (hready : readyInSession s) (hres : resolve w h = some m) (hi : s.initialized = false)
    (ht : tableDoes s s.cfg.tInit ei wi .ok) (hp : pollDoes s (initPollReq s.cfg) ep wp rp o)
    (hw : s.writeAnswers = wi ++ (wp ++ ws)) (hr : s.readAnswers = rp ++ rs) :
    exec (.setMode w h) s = .next
      (afterInitPoll ⟨m, false⟩ o ((s.accept (.setMode w h)).after (ei ++ ep) ws rs)) := by
  rw [exec_setMode_firstUse hready hres hi, hw, hr, runInitTable_does ht, afterInitTable, runInitPoll_does hp,
    List.nil_append]

/-- Step 2 passed: the mode's table is next. -/
theorem exec_setMode_initPassed {ei ep : List Event} {wi wp ws : List WriteAnswer} {rp rs : List ReadAnswer}
    (hready : readyInSession s) (hres : resolve w h = some m) (hi : s.initialized = false)
    (ht : tableDoes s s.cfg.tInit ei wi .ok) (hp : initPollPasses s ep wp rp)
    (hw : s.writeAnswers = wi ++ (wp ++ ws)) (hr : s.readAnswers = rp ++ rs) :
    exec (.setMode w h) s = .next
      (runModeTable ⟨m, false⟩ ((s.accept (.setMode w h)).after (ei ++ ep) ws rs)) := by
  rw [exec_setMode_firstUse hready hres hi, hw, hr, runInitTable_does ht, afterInitTable, runInitPoll_passes hp,
    List.nil_append]

/-- An initialized session whose tables end comes to the outcome of the mode poll. -/
theorem exec_setMode_initialized_polled {em er eq : List Event} {wm wr wq ws : List WriteAnswer} {rq rs : List ReadAnswer}
    {o : PollOutcome} (hready : readyInSession s) (hres : resolve w h = some m) (hi : s.initialized = true)
    (hm : tableDoes s (tMode s.cfg m) em wm .ok)
    (hp : modeClass m = .preview → tableDoes s s.cfg.tReturnPreview er wr .ok)
    (hc : modeClass m = .capture → er = [] ∧ wr = []) (hq : pollDoes s (modePollReq s.cfg m) eq wq rq o)
    (hw : s.writeAnswers = wm ++ wr ++ wq ++ ws) (hr : s.readAnswers = rq ++ rs) :
    exec (.setMode w h) s = .next
      (afterModePoll ⟨m, true⟩ o ((s.accept (.setMode w h)).after (em ++ er ++ eq) ws rs)) := by
  simp only [List.append_assoc] at hw
  rw [exec_setMode_initialized hready hres hi, hw, hr, runModeTable_initialized hm hp hc, runModePoll_does hq,
    List.nil_append]

/-- A session not initialized whose step 2 passed and whose mode table ends comes to the outcome of the mode poll. -/
theorem exec_setMode_firstUse_polled {ei ep em eq : List Event} {wi wp wm wq ws : List WriteAnswer}
    {rp rq rs : List ReadAnswer} {o : PollOutcome} (hready : readyInSession s) (hres : resolve w h = some m)
    (hi : s.initialized = false) (ht : tableDoes s s.cfg.tInit ei wi .ok) (hp : initPollPasses s ep wp rp)
    (hm : tableDoes s (tMode s.cfg m) em wm .ok) (hq : pollDoes s (modePollReq s.cfg m) eq wq rq o)
    (hw : s.writeAnswers = wi ++ wp ++ wm ++ wq ++ ws) (hr : s.readAnswers = rp ++ rq ++ rs) :
    exec (.setMode w h) s = .next
      (afterModePoll ⟨m, false⟩ o ((s.accept (.setMode w h)).after (ei ++ ep ++ em ++ eq) ws rs)) := by
  simp only [List.append_assoc] at hw hr
  rw [exec_setMode_initPassed hready hres hi ht hp hw hr, runModeTable_firstUse hm, runModePoll_does hq]

/-! ## Tables and polls with a transport, told by their entries and iterations -/

theorem tableDoes_acked {t : TableId} {xs : List (Entry × Nat)} (ht : s.transport = true)
    (hb : tableBody s.cfg t (xs.map Prod.fst)) (hx : entriesFit s.cfg xs) :
    tableDoes s t (tableEvents s.cfg xs) (tableWrites s.cfg xs) .ok :=
  .inl ⟨ht, xs, hx, .inl ⟨rfl, hb, rfl, rfl⟩⟩

theorem tableDoes_failed {t : TableId} {xs : List (Entry × Nat)} {e : Entry} (ht : s.transport = true)
    (hb : tableReaches s.cfg t (xs.map Prod.fst) e) (hx : entriesFit s.cfg xs) :
    tableDoes s t (tableEvents s.cfg xs ++ failedWrite s.cfg e.addr e.value)
      (tableWrites s.cfg xs ++ failingAnswers s.cfg) (.writeError xs.length .transferError) :=
  .inl ⟨ht, xs, hx, .inr ⟨e, rfl, hb, rfl, rfl⟩⟩

theorem pollDoes_hit {q : PollReq} {its : List IterationAnswers} {x : IterationAnswers} (ht : s.transport = true)
    (hm : misses s.cfg q.expected its) (hx : hits s.cfg q.expected x) (hl : its.length < q.maxAttempts.toNat) :
    pollDoes s q (pollEvents s.cfg q (its ++ [x])) (pollWrites s.cfg (its ++ [x])) (pollReads (its ++ [x]))
      (.converged q.expected) :=
  .inl ⟨ht, its, hm, .inl ⟨x, hx, hl, rfl, rfl, rfl, rfl⟩⟩

end Execution

/-! ## SET_MODE that ends with Ok (43_mode_effect.md R249) -/

/-- Settles O36: both tables end and both polls converge. -/
theorem setModeFirstUse : Obligations.SetModeFirstUse := by
  intro s m xi xm pi pm hi hm ws rs hready ht hinit hbi hfi hbm hfm hmi hhi hli hmm hhm hlm hw hr
  have hpass : initPollPasses s _ _ _ := .inl ⟨_, pollDoes_hit (q := initPollReq s.cfg) ht hmi hhi hli⟩
  have hpoll := pollDoes_hit (q := modePollReq s.cfg m) ht hmm hhm hlm
  rw [exec_setMode_firstUse_polled hready (resolve_self m) hinit (tableDoes_acked ht hbi hfi) hpass
    (tableDoes_acked ht hbm hfm) hpoll hw hr, afterModePoll_converged]

/-- Settles O37: the tables end, the return to preview being empty for a capture-class mode, and the mode poll converges. -/
theorem setModeInitialized : Obligations.SetModeInitialized := by
  intro s m xm xp pm hm ws rs hready ht hinit hbm hfm hbp hfp hcapture hmm hhm hlm hw hr
  have hnone : modeClass m = .capture → tableEvents s.cfg xp = [] ∧ tableWrites s.cfg xp = [] := fun hc => by
    rw [hcapture hc]
    exact ⟨rfl, rfl⟩
  have hpoll := pollDoes_hit (q := modePollReq s.cfg m) ht hmm hhm hlm
  rw [exec_setMode_initialized_polled hready (resolve_self m) hinit (tableDoes_acked ht hbm hfm)
    (fun hc => tableDoes_acked ht (hbp hc) hfp) hnone hpoll hw hr, afterModePoll_converged]

/-! ## SET_MODE that fails, and the policy of the initialization poll (43_mode_effect.md R242 to R247) -/

/-- Settles O38: the flag decides between the end of the call and an initialization poll that passes with its log entry. -/
theorem initPollTimeoutPolicy : Obligations.InitPollTimeoutPolicy := by
  intro s m ei ep em eq wi wp wm wq ws rp rq rs last v hready hinit ht hp
  refine ⟨fun hpolicy hw hr => ?_, fun hpolicy hm hq hw hr => ?_⟩
  · rw [List.append_assoc] at hw
    rw [exec_setMode_initPolled hready (resolve_self m) hinit ht hp hw hr, afterInitPoll_timeout_fatal hpolicy]
  · have hpass : initPollPasses s _ wp rp := .inr ⟨hpolicy, ep, last, hp, rfl⟩
    rw [exec_setMode_firstUse_polled hready (resolve_self m) hinit ht hpass hm hq hw hr, afterModePoll_converged,
      ← List.append_assoc ei]

/-- Settles O39: the init table fails after the retries of a write, or at its first WR entry without a transport. -/
theorem initTableFailureEndsSetMode : Obligations.InitTableFailureEndsSetMode := by
  intro s m hready hinit
  refine ⟨fun xi e ws ht hb hx hw => ?_, fun es e ht hb hk => ?_⟩
  · exact exec_setMode_initFailed hready (resolve_self m) hinit (tableDoes_failed ht hb hx) (by simpa using hw)
  · exact exec_setMode_initFailed hready (resolve_self m) hinit (.inr ⟨ht, rfl, es, hk, rfl, .inr ⟨e, rfl, hb⟩⟩) rfl

/-- Settles O40: the mode table fails at the start of an initialized session's SET_MODE or after step 2 of a first one, the
return-to-preview table after the mode table. -/
theorem laterTableFailureEndsSetMode : Obligations.LaterTableFailureEndsSetMode := by
  intro s m ei ep em er wi wp wm wr ws rp rs k c hready
  refine ⟨fun hinit hm hw => ?_, fun hinit hclass hm hp hw => ?_, fun hinit ht hp hm hw hr => ?_⟩
  · rw [exec_setMode_initialized hready (resolve_self m) hinit, hw, runModeTable_does hm, afterModeTable_writeError,
      List.nil_append]
  · rw [List.append_assoc] at hw
    rw [exec_setMode_initialized hready (resolve_self m) hinit, hw, runModeTable_does hm, afterModeTable,
      runPreviewTable_does rfl hclass hp, afterPreviewTable_writeError, List.nil_append]
  · simp only [List.append_assoc] at hw
    rw [exec_setMode_initPassed hready (resolve_self m) hinit ht hp hw hr, runModeTable_does hm,
      afterModeTable_writeError]

/-- Settles O41: on both kinds of session SET_MODE comes to the outcome of its mode poll, here a timeout. -/
theorem modePollTimeoutIsTheResult : Obligations.ModePollTimeoutIsTheResult := by
  intro s m ei ep em er eq wi wp wm wr wq ws rp rq rs last hready hm hq
  refine ⟨fun hinit hp hc hw hr => ?_, fun hinit ht hp hw hr => ?_⟩
  · rw [exec_setMode_initialized_polled hready (resolve_self m) hinit hm hp hc hq hw hr, afterModePoll_timeout]
  · rw [exec_setMode_firstUse_polled hready (resolve_self m) hinit ht hp hm hq hw hr, afterModePoll_timeout]

/-! ## What SET_MODE writes (43_mode_effect.md R240, R248) -/

/-- All that SET_MODE can do: a fault at its dispatch, or the work of a SET_MODE in its session. -/
theorem exec_setMode_cases {s t : State} {w h : Long} (he : exec (.setMode w h) s = .next t) :
    (∃ f, t = s.raiseFault f) ∨ Advanced (resolve w h) isHostResult (s.accept (.setMode w h)) t := by
  obtain ⟨-, ⟨-, rfl⟩ | ⟨-, ⟨f, rfl, -⟩ | ⟨hs, rfl⟩⟩⟩ := hostCommand_cases he
  · exact .inl ⟨_, rfl⟩
  · exact .inl ⟨f, rfl⟩
  · exact .inr (setMode_advanced w h (sessionOpen_of_sessionFault (by simp) hs))

/-- Settles O42: a fault writes neither field, and work that does not leave the session commits the resolved mode with its
`Ok`. -/
theorem setModeWritesSessionOnlyOnOk : Obligations.SetModeWritesSessionOnlyOnOk := by
  intro s t w h _ he
  rcases exec_setMode_cases he with ⟨f, rfl⟩ | hadv
  · exact .inl ⟨rfl, rfl⟩
  · rcases hadv.session_cases with hsame | ⟨hbusy, hinit, ⟨m, hres, hmode⟩, evs, htrace⟩
    · exact .inl ⟨hsame.initialized, hsame.mode⟩
    · exact .inr ⟨hinit, hmode.trans hres.symm, by simp [hmode], hbusy, .cmd (.setMode w h) :: evs, by simp [htrace]⟩

/-- Settles O49: every instruction extends the state it starts in, and neither a fault nor the work of SET_MODE writes the other
two fields. -/
theorem setModeFrame : Obligations.SetModeFrame := by
  intro s t w h he
  refine ⟨exec_extends he, ?_⟩
  rcases exec_setMode_cases he with ⟨f, rfl⟩ | hadv
  · exact ⟨rfl, rfl⟩
  · exact ⟨hadv.sessionOpen, hadv.transport⟩

/-! ## SET_EFFECT (43_mode_effect.md R250 to R255) -/

theorem exec_setEffect_ready {s : State} (h : readyInSession s) (code value : Long) :
    exec (.setEffect code value) s = .next (setEffect code value (s.accept (.setEffect code value))) := by
  rw [exec, execSetEffect, hostCommand_ready h (by simp)]

/-- A SET_EFFECT whose table returns is completed with the table's result. -/
theorem exec_setEffect_does {s : State} {code value : Long} {item : EffectItem} {evs : List Event}
    {used ws : List WriteAnswer} {r : TableResult} (h : readyInSession s) (hitem : itemOf code = some item)
    (hdoes : tableDoes s (effectTable s.cfg item value) evs used r) (hw : s.writeAnswers = used ++ ws) :
    exec (.setEffect code value) s = .next (completed s (.setEffect code value) evs (tableResult r) ws s.readAnswers) := by
  rw [exec_setEffect_ready h, setEffect, hitem, accept_eq_after, hw]
  simp only [State.after_cfg, State.accept_cfg]
  rw [applyTable_accepted hdoes, Run.elim_done, finishTable, completed_eq, List.nil_append]

/-- Settles O43: without an item the call ends at once; with one its result is its table's. -/
theorem setEffectOutcomes : Obligations.SetEffectOutcomes := by
  intro s code value hready
  refine ⟨fun hnone => ?_, fun item evs used ws hitem => ⟨fun hdoes hw => ?_, fun k c hdoes hw => ?_⟩⟩
  · rw [exec_setEffect_ready hready, setEffect, hnone, accept_eq_after]
    exact congrArg _ (completed_eq ..)
  · exact exec_setEffect_does (r := .ok) hready hitem hdoes hw
  · exact exec_setEffect_does (r := .writeError k c) hready hitem hdoes hw

/-- Settles O45: item code 2 is BRIGHTNESS, whose row gives an unlisted value its default table. -/
theorem brightnessDefaultTable : Obligations.BrightnessDefaultTable := by
  intro s value xs ws hready ht hunlisted hb hx hw
  have htable : effectTable s.cfg .brightness value = s.cfg.brightness.defaultTable := rowTable_default hunlisted
  exact exec_setEffect_does (r := .ok) hready (by decide : itemOf 2 = some .brightness)
    (htable ▸ tableDoes_acked ht hb hx) hw

end Sys2Proof.Machine
end

section
/-! SUPPORT. How a command is dispatched, refused and ended: the proofs of the statements of 44_control_surface.md. -/

namespace Sys2Proof.Machine

/-! ## The dispatch of an instruction (44_control_surface.md R280, 60_exceptions.md R334) -/

/-- Every host command goes through the dispatch of host commands. -/
theorem exec_eq_hostCommand {i : Instr} (hi : isHostCommand i = true) : ∃ run, ∀ s, exec i s = hostCommand i run s := by
  cases i with
  | openSession => exact ⟨_, fun _ => by rw [exec, execOpenSession]⟩
  | closeSession => exact ⟨_, fun _ => by rw [exec, execCloseSession]⟩
  | setMode w h => exact ⟨_, fun _ => by rw [exec, execSetMode]⟩
  | getStatus => exact ⟨_, fun _ => by rw [exec, execGetStatus]⟩
  | setEffect item value => exact ⟨_, fun _ => by rw [exec, execSetEffect]⟩
  | _ => cases hi

/-- Every other command goes through the dispatch of harness requests. -/
theorem exec_eq_harnessRequest {i : Instr} (hi : isCommand i = true) (hhost : isHostCommand i = false) :
    ∃ run, ∀ s, exec i s = harnessRequest i run s := by
  cases i with
  | readReg a => exact ⟨_, fun _ => by rw [exec, execReadReg]⟩
  | writeReg a v => exact ⟨_, fun _ => by rw [exec, execWriteReg]⟩
  | pollStatus sa sv ra e d n => exact ⟨_, fun _ => by rw [exec, execPollStatus]⟩
  | applyTable t => exact ⟨_, fun _ => by rw [exec, execApplyTable]⟩
  | wr _ _ => cases hi
  | wait _ => cases hi
  | endTable _ => cases hi
  | _ => cases hhost

theorem hostCommand_busy {i : Instr} {run : State → State} {s : State} (hf : s.fault = none) (hb : s.busy = true) :
    hostCommand i run s = .next (s.raiseFault .reentry) := by
  simp [hostCommand, hf, hb]

theorem harnessRequest_busy {i : Instr} {run : State → State} {s : State} (hf : s.fault = none) (hb : s.busy = true) :
    harnessRequest i run s = .next (s.raiseFault .reentry) := by
  simp [harnessRequest, hf, hb]

theorem exec_busy {i : Instr} {s : State} (hi : isCommand i = true) (hf : s.fault = none) (hb : s.busy = true) :
    exec i s = .next (s.raiseFault .reentry) := by
  cases hhost : isHostCommand i with
  | true =>
    obtain ⟨run, hrun⟩ := exec_eq_hostCommand hhost
    rw [hrun, hostCommand_busy hf hb]
  | false =>
    obtain ⟨run, hrun⟩ := exec_eq_harnessRequest hi hhost
    rw [hrun, harnessRequest_busy hf hb]

theorem step_presented {s : State} {p : Presented} (hf : s.fault = none) (hp : s.port = some p) :
    step s = stepPresented p s := by
  simp [step, stepMachine, hf, hp]

/-- Settles O6: with nothing running, taking a frame that decodes is its instruction without the frame. -/
theorem stepRunsPresentedFrame : Obligations.StepRunsPresentedFrame := by
  intro s p i hf hb hp hd
  rw [step_presented hf hp]
  simp [stepPresented, hb, hd, State.clearPort]

/-- Settles O9: both dispatches, and the taking of a frame, look at `S.busy` before anything else of the command. -/
theorem commandWhileBusyFaults : Obligations.CommandWhileBusyFaults := by
  intro s hf hb
  refine ⟨fun i hi => exec_busy hi hf hb, fun p hp => ?_⟩
  rw [step_presented hf hp]
  exact if_pos hb

/-! ## The session check (44_control_surface.md R280) -/

theorem hostCommand_accepted {i : Instr} {run : State → State} {s : State} (h : ready s) (hs : sessionFault i s = none) :
    hostCommand i run s = .next (run (s.accept i)) := by
  simp [hostCommand, h.1, h.2, hs]

theorem hostCommand_refused {i : Instr} {run : State → State} {s : State} {f : FaultKind} (h : ready s)
    (hs : sessionFault i s = some f) : hostCommand i run s = .next (s.raiseFault f) := by
  simp [hostCommand, h.1, h.2, hs]

theorem exec_openSession_inSession {s : State} (h : ready s) (ho : s.sessionOpen = true) :
    exec .openSession s = .next (s.raiseFault .sessionOpen) := by
  rw [exec, execOpenSession, hostCommand_refused (f := .sessionOpen) h (by simp [sessionFault, ho])]

theorem exec_noSession {i : Instr} {s : State} (hi : isHostCommand i = true) (hne : i ≠ .openSession) (h : ready s)
    (ho : s.sessionOpen = false) : exec i s = .next (s.raiseFault .noSession) := by
  obtain ⟨run, hrun⟩ := exec_eq_hostCommand hi
  rw [hrun, hostCommand_refused (f := .noSession) h (by simp [sessionFault, hne, ho])]

/-- Settles O10: the session check refuses OPEN in a session, and every other host command without one. -/
theorem sessionMisuseFaults : Obligations.SessionMisuseFaults :=
  fun _ h => ⟨exec_openSession_inSession h, fun ho _ hi hne => exec_noSession hi hne h ho⟩

/-! ## The power hooks (44_control_surface.md R283, 60_exceptions.md R332) -/

/-- The event of a hook, if the hook is supplied. -/
def hookEvents (supplied : Bool) (k : Hook) : List Event := if supplied then [.hook k] else []

/-- A hook that returns at once leaves its event. -/
theorem withHook_returns {supplied : Bool} {k : Hook} {f : State → State} {s : State}
    (hr : supplied = true → s.hookReturns = true) :
    withHook supplied k f s = f (s.after (hookEvents supplied k) s.writeAnswers s.readAnswers) := by
  cases supplied with
  | false => exact congrArg f (State.after_nil s).symm
  | true => simp [withHook, hr rfl, State.emit_eq_after, hookEvents]

/-- What follows a hook delivers a result, and so does not read the position. -/
theorem afterHook_setControl (k : Hook) (s : State) (c : Control) : afterHook k (s.setControl c) = afterHook k s := by
  cases k <;> rfl

/-- A supplied hook that does not return holds the RSE; once it has returned, the next step comes to what a hook that returns at
once comes to. -/
theorem withHook_held (k : Hook) {s : State} (h : StepDue s) (hr : s.hookReturns = false) :
    (withHook true k (afterHook k) s).busy = true ∧
      step (withHook true k (afterHook k) s) = .fault .awaitingHook ∧
      step { withHook true k (afterHook k) s with hookReturns := true } =
        .next (withHook true k (afterHook k) { s with hookReturns := true }) := by
  have hheld : withHook true k (afterHook k) s = (s.emit (.hook k)).setControl (.hook k) := by simp [withHook, hr]
  rw [hheld]
  refine ⟨h.busy, ?_, ?_⟩
  · refine Eq.trans (StepDue.step_eq ⟨h.fault, h.busy, h.port⟩) ?_
    simp [stepRunning, hr]
  · refine Eq.trans (StepDue.step_eq ⟨h.fault, h.busy, h.port⟩) ?_
    exact congrArg _ (afterHook_setControl k ({ s with hookReturns := true }.emit (.hook k)) (.hook k))

/-! ## OPEN, CLOSE and GET_STATUS once accepted (44_control_surface.md R282, R284, R286) -/

theorem exec_openSession_ready {s : State} (h : ready s) (ho : s.sessionOpen = false) :
    exec .openSession s =
      .next (withHook s.cfg.powerOnHook .powerOn (afterHook .powerOn) (s.accept .openSession).acquireSession) := by
  rw [exec, execOpenSession, hostCommand_accepted h (by simp [sessionFault, ho])]
  rfl

theorem exec_closeSession_ready {s : State} (h : readyInSession s) :
    exec .closeSession s =
      .next (withHook s.cfg.powerOffHook .powerOff (afterHook .powerOff) (s.accept .closeSession)) := by
  rw [exec, execCloseSession, hostCommand_ready h (by simp)]
  rfl

/-- Settles O12: OPEN once accepted is the end of its work after the hook's event, and it is refused in a session. -/
theorem openCreatesSession : Obligations.OpenCreatesSession := by
  refine ⟨fun s h ho hr => ?_, fun s h ho => exec_openSession_inSession h ho, fun _ => rfl⟩
  rw [exec_openSession_ready h ho, withHook_returns (s := (s.accept .openSession).acquireSession) hr]
  simp [afterHook, afterPowerOn, completed, State.finish, State.clearMode, State.after, State.acquireSession, State.accept,
    hookEvents]

/-- Settles O13: CLOSE once accepted is the end of its work after the hook's event, and it is refused without a session. -/
theorem closeEndsSession : Obligations.CloseEndsSession := by
  refine ⟨fun s h hr => ?_, fun s h ho => exec_noSession rfl (by simp) h ho, fun _ => rfl⟩
  rw [exec_closeSession_ready h, withHook_returns (s := s.accept .closeSession) hr]
  simp [afterHook, afterPowerOff, completed, State.finish, State.releaseSession, State.after, State.accept, hookEvents]

/-- Settles O14: GET_STATUS once accepted only delivers `Ok`, and it is refused without a session. -/
theorem getStatusReadsNothing : Obligations.GetStatusReadsNothing := by
  refine ⟨fun s h => ?_, fun s h ho => exec_noSession rfl (by simp) h ho, fun _ => rfl⟩
  rw [exec, execGetStatus, hostCommand_ready h (by simp), accept_eq_after, completed_eq]

/-- Settles O15: once accepted, OPEN and CLOSE are their hook and what follows it, so `withHook_held` says both. -/
theorem hookThatDoesNotReturnHolds : Obligations.HookThatDoesNotReturnHolds := by
  rintro s i h hp hr (⟨rfl, ho, hsupplied⟩ | ⟨rfl, ho, hsupplied⟩)
  · have hdue : StepDue (s.accept .openSession).acquireSession := ⟨h.1, rfl, hp⟩
    obtain ⟨hbusy, hwaits, hends⟩ := withHook_held .powerOn hdue hr
    have hopen := exec_openSession_ready h ho
    have hagain := exec_openSession_ready (s := { s with hookReturns := true }) h ho
    simp only [hsupplied] at hopen hagain
    exact ⟨_, hopen, hbusy, hwaits, _, hends, hagain⟩
  · have hdue : StepDue (s.accept .closeSession) := ⟨h.1, rfl, hp⟩
    obtain ⟨hbusy, hwaits, hends⟩ := withHook_held .powerOff hdue hr
    have hclose := exec_closeSession_ready ⟨h, ho⟩
    have hagain := exec_closeSession_ready (s := { s with hookReturns := true }) ⟨h, ho⟩
    simp only [hsupplied] at hclose hagain
    exact ⟨_, hclose, hbusy, hwaits, _, hends, hagain⟩

/-! ## The frame of OPEN and CLOSE (44_control_surface.md R282, R284) -/

/-- A host command whose own work stays off the bus stays off the bus. -/
theorem hostCommand_silent_of_run {i : Instr} {run : State → State} {s t : State} (hrun : ∀ u, BusSilent u (run u))
    (he : hostCommand i run s = .next t) : BusSilent s t := by
  obtain ⟨-, ⟨-, rfl⟩ | ⟨-, ⟨f, rfl, -⟩ | ⟨-, rfl⟩⟩⟩ := hostCommand_cases he
  · exact .raiseFault s _
  · exact .raiseFault s f
  · exact (BusSilent.accept s i).trans (hrun _)

theorem exec_openSession_silent {s t : State} (he : exec .openSession s = .next t) : BusSilent s t := by
  rw [exec, execOpenSession] at he
  refine hostCommand_silent_of_run (fun u => ?_) he
  have hopen : BusSilent u u.acquireSession := .of_eq rfl rfl rfl
  exact hopen.trans (withHook_silent u.cfg.powerOnHook .powerOn u.acquireSession)

theorem exec_closeSession_silent {s t : State} (he : exec .closeSession s = .next t) : BusSilent s t :=
  hostCommand_silent_of_run (fun u => withHook_silent u.cfg.powerOffHook .powerOff u) he

/-- Settles O50: every instruction extends the state it starts in, and the hooks of OPEN and CLOSE do not use the bus. -/
theorem sessionCommandFrame : Obligations.SessionCommandFrame := by
  intro s t i hi he
  have hsilent : BusSilent s t := by
    rcases hi with rfl | rfl
    · exact exec_openSession_silent he
    · exact exec_closeSession_silent he
  exact ⟨exec_extends he, hsilent.writeAnswers, hsilent.readAnswers, hsilent.trace⟩

/-! ## One result per command (44_control_surface.md R280, R281) -/

/-- Between `s` and `t` a running command emitted no CMD, and a RESULT exactly if it ended, as its last event and with no
fault. -/
def ResultOnlyAtEnd (s t : State) : Prop :=
  ∃ evs, (∀ e ∈ evs, isPortEvent e = false) ∧
    ((t.busy = false ∧ t.fault = none ∧ ∃ r, t.trace = s.trace ++ (evs ++ [.result r])) ∨
      (t.busy = true ∧ t.trace = s.trace ++ evs))

/-- Where nothing was emitted, as when a fault stops it, the command has not ended. -/
theorem ResultOnlyAtEnd.of_running {s t : State} (hb : t.busy = true) (htr : t.trace = s.trace) : ResultOnlyAtEnd s t :=
  ⟨[], by simp, .inr ⟨hb, by simp [htr]⟩⟩

theorem Advanced.resultOnlyAtEnd {m : Option ModeId} {P : Result → Prop} {s t : State} (h : Advanced m P s t)
    (hb : s.busy = true) (hf : s.fault = none) : ResultOnlyAtEnd s t := by
  obtain ⟨evs, hport, ⟨r, htr, hbt, -, hft, -⟩ | ⟨htr, hbt, -⟩⟩ := h.outcome
  · exact ⟨evs, hport, .inl ⟨hbt, hft.trans hf, r, htr⟩⟩
  · exact ⟨evs, hport, .inr ⟨hbt.trans hb, htr⟩⟩

/-- The end of OPEN or CLOSE delivers `Ok`, after events `evs` that were none of the port's. -/
theorem afterHook_resultOnlyAtEnd (k : Hook) {s u : State} {evs : List Event} (hf : u.fault = none)
    (htr : u.trace = s.trace ++ evs) (hport : ∀ e ∈ evs, isPortEvent e = false) :
    ResultOnlyAtEnd s (afterHook k u) := by
  have hend : (afterHook k u).trace = s.trace ++ (evs ++ [.result .ok]) := by
    rw [← List.append_assoc, ← htr]
    cases k <;> rfl
  exact ⟨evs, hport, .inl ⟨by cases k <;> rfl, by cases k <;> exact hf, .ok, hend⟩⟩

theorem withHook_resultOnlyAtEnd (supplied : Bool) (k : Hook) {s : State} (hb : s.busy = true) (hf : s.fault = none) :
    ResultOnlyAtEnd s (withHook supplied k (afterHook k) s) := by
  have hhook : ∀ e ∈ [Event.hook k], isPortEvent e = false := by simp [isPortEvent]
  rcases withHook_cases supplied k (afterHook k) s with ⟨u, rfl | rfl, hu⟩ | hu <;> rw [hu]
  · exact afterHook_resultOnlyAtEnd k (evs := []) hf (by simp) (by simp)
  · exact afterHook_resultOnlyAtEnd k hf rfl hhook
  · exact ⟨_, hhook, .inr ⟨hb, rfl⟩⟩

/-- A command works from the state that accepted it, in which its CMD is the last event. -/
theorem CommandDoes.resultOnlyAtEnd {i : Instr} {s t : State} (h : CommandDoes i s t) (hf : s.fault = none) :
    ResultOnlyAtEnd (s.accept i) t := by
  rcases h with ⟨-, -, rfl⟩ | ⟨-, -, rfl⟩ | ⟨-, h⟩
  · exact withHook_resultOnlyAtEnd _ .powerOn (s := (s.accept i).acquireSession) rfl hf
  · exact withHook_resultOnlyAtEnd _ .powerOff (s := s.accept i) rfl hf
  · exact h.resultOnlyAtEnd rfl hf

theorem stepRunning_resultOnlyAtEnd {s t : State} (hs : StateInv s) (hb : s.busy = true) (hf : s.fault = none)
    (he : stepRunning s = .next t) : ResultOnlyAtEnd s t := by
  rcases stepRunning_cases hs he with ⟨f, rfl⟩ | h | ⟨k, -, rfl⟩
  · exact .of_running hb rfl
  · exact h.resultOnlyAtEnd hb hf
  · exact afterHook_resultOnlyAtEnd k (evs := []) hf (by simp) (by simp)

/-- Settles O60: a command that adds an event was accepted, and works from there; a step of a running command refuses a frame or
goes on with it. -/
theorem oneResultPerCommand : Obligations.OneResultPerCommand := by
  refine ⟨fun s t i h hi he hne => ?_, fun s t hs hb he => ?_⟩
  · rcases exec_command_cases hi he with ⟨f, rfl⟩ | ⟨-, hdoes⟩
    · exact absurd rfl hne
    · obtain ⟨evs, hport, hend⟩ := hdoes.resultOnlyAtEnd h.1
      exact ⟨evs, hport, by simpa using hend⟩
  · obtain ⟨hf, ⟨p, f, -, rfl⟩ | ⟨p, i, -, hidle, -⟩ | ⟨-, -, he⟩⟩ := step_cases he
    · exact ResultOnlyAtEnd.of_running hb rfl
    · exact absurd (hidle.symm.trans hb) (by simp)
    · exact stepRunning_resultOnlyAtEnd hs hb hf he

end Sys2Proof.Machine
end

section
/-! SUPPORT. The results that reach the host: the proofs of the statements of 60_exceptions.md. -/

namespace Sys2Proof.Machine

/-! ## The results of a host command (60_exceptions.md R312) -/

/-- Between `s` and `t` every RESULT that was added is one a host command can deliver. -/
def OnlyHostResults (s t : State) : Prop :=
  ∃ evs, t.trace = s.trace ++ evs ∧ ∀ r, .result r ∈ evs → isHostResult r

theorem OnlyHostResults.trans {s u t : State} (h : OnlyHostResults s u) (k : OnlyHostResults u t) :
    OnlyHostResults s t := by
  obtain ⟨first, hu, hfirst⟩ := h
  obtain ⟨last, ht, hlast⟩ := k
  exact ⟨first ++ last, by rw [ht, hu, List.append_assoc],
    fun r hr => (List.mem_append.1 hr).elim (hfirst r) (hlast r)⟩

theorem OnlyHostResults.of_noResult {s t : State} {evs : List Event} (htr : t.trace = s.trace ++ evs)
    (h : ∀ r, .result r ∉ evs) : OnlyHostResults s t :=
  ⟨evs, htr, fun r hr => absurd hr (h r)⟩

theorem OnlyHostResults.refl (s : State) : OnlyHostResults s s := .of_noResult (evs := []) (by simp) (by simp)

theorem OnlyHostResults.raiseFault (s : State) (f : FaultKind) : OnlyHostResults s (s.raiseFault f) := .refl s

theorem OnlyHostResults.accept (s : State) (i : Instr) : OnlyHostResults s (s.accept i) :=
  .of_noResult (evs := [.cmd i]) rfl (by simp)

/-- The events added are determined by the two traces, so a RESULT among them in one writing is among them in the other. -/
theorem OnlyHostResults.isHostResult_of_added {s t : State} {r : Result} (h : OnlyHostResults s t)
    (hr : ∃ evs, t.trace = s.trace ++ evs ∧ .result r ∈ evs) : isHostResult r := by
  obtain ⟨evs, htr, hkind⟩ := h
  obtain ⟨added, htr', hmem⟩ := hr
  have heq : added = evs := List.append_cancel_left (htr'.symm.trans htr)
  exact hkind r (heq ▸ hmem)

/-- Work whose result is a host command's adds no other RESULT: the rest of its events are those of its units. -/
theorem Advanced.onlyHostResults {m : Option ModeId} {s t : State} (h : Advanced m isHostResult s t) :
    OnlyHostResults s t := by
  obtain ⟨evs, hport, hout⟩ := h.outcome
  have hnone : ∀ r, .result r ∉ evs := fun r hr => by simpa [isPortEvent] using hport _ hr
  rcases hout with ⟨r, htr, -, -, -, hr, -⟩ | ⟨htr, -⟩
  · refine ⟨evs ++ [.result r], htr, fun r' hmem => ?_⟩
    obtain rfl : r' = r := by simpa [hnone] using hmem
    exact hr
  · exact .of_noResult htr hnone

/-- OPEN and CLOSE end with `Ok`. -/
theorem afterHook_onlyHostResults (k : Hook) (s : State) : OnlyHostResults s (afterHook k s) := by
  refine ⟨[.result .ok], by cases k <;> rfl, fun r hr => .inl ?_⟩
  simpa using hr

theorem withHook_onlyHostResults (supplied : Bool) (k : Hook) (s : State) :
    OnlyHostResults s (withHook supplied k (afterHook k) s) := by
  have hhook : OnlyHostResults s (s.emit (.hook k)) := .of_noResult (evs := [.hook k]) rfl (by simp)
  rcases withHook_cases supplied k (afterHook k) s with ⟨u, rfl | rfl, hu⟩ | hu <;> rw [hu]
  · exact afterHook_onlyHostResults k _
  · exact hhook.trans (afterHook_onlyHostResults k _)
  · exact hhook

/-- A host command that was accepted, from its CMD to its end or its wait. -/
theorem CommandDoes.onlyHostResults {i : Instr} {s t : State} (h : CommandDoes i s t) (hi : isHostCommand i = true) :
    OnlyHostResults s t := by
  refine (OnlyHostResults.accept s i).trans ?_
  rcases h with ⟨-, -, rfl⟩ | ⟨-, -, rfl⟩ | ⟨-, h⟩
  · exact withHook_onlyHostResults _ .powerOn (s.accept i).acquireSession
  · exact withHook_onlyHostResults _ .powerOff (s.accept i)
  · exact (h.mono fun _ hr => hr hi).onlyHostResults

theorem stepRunning_onlyHostResults {s t : State} (hs : StateInv s) (hpos : isHostPosition s.control = true)
    (he : stepRunning s = .next t) : OnlyHostResults s t := by
  rcases stepRunning_cases hs he with ⟨f, rfl⟩ | h | ⟨k, -, rfl⟩
  · exact .raiseFault s f
  · exact (h.mono fun _ hr => hr hpos).onlyHostResults
  · exact afterHook_onlyHostResults k s

/-- At a position of a host command a command runs. -/
theorem busy_of_isHostPosition {s : State} (hs : StateInv s) (hpos : isHostPosition s.control = true) :
    s.busy = true := by
  refine hs.busy_control.2 fun hidle => ?_
  rw [hidle] at hpos
  cases hpos

theorem isCommand_of_isHostCommand {i : Instr} (hi : isHostCommand i = true) : isCommand i = true := by
  cases i with
  | wr _ _ => cases hi
  | wait _ => cases hi
  | endTable _ => cases hi
  | _ => rfl

/-- Settles O59: an instruction faults or does the work of its command, and a step at a position of a host command refuses a
frame or goes on with that command; each adds only results of a host command. -/
theorem hostResultKinds : Obligations.HostResultKinds := by
  refine ⟨fun s t i r _ hi he => ?_, fun s t r hs hpos he => ?_⟩
  · refine OnlyHostResults.isHostResult_of_added ?_
    rcases exec_command_cases (isCommand_of_isHostCommand hi) he with ⟨f, rfl⟩ | ⟨-, hdoes⟩
    · exact .raiseFault s f
    · exact hdoes.onlyHostResults hi
  · refine OnlyHostResults.isHostResult_of_added ?_
    obtain ⟨-, ⟨p, f, -, rfl⟩ | ⟨p, i, -, hidle, -⟩ | ⟨-, -, he⟩⟩ := step_cases he
    · exact .raiseFault s f
    · exact absurd (hidle.symm.trans (busy_of_isHostPosition hs hpos)) (by simp)
    · exact stepRunning_onlyHostResults hs hpos he

end Sys2Proof.Machine
end

section
/-! SUPPORT. The state after reset: the proofs of the statements of 70_reset_and_hazards.md. -/

namespace Sys2Proof.Machine

/-! ## Reset (70_reset_and_hazards.md R350) -/

/-- Settles O55: these are the values `State.reset` is built with. -/
theorem resetState : Obligations.ResetState := ⟨rfl, rfl, rfl, rfl, rfl, rfl, rfl⟩

/-- A session that holds no transport and has never been initialized has nothing left to satisfy (10_state.md R33, R36, R37). -/
theorem SessionInv.of_uninitialized {s : State} (ht : s.transport = false) (hi : s.initialized = false)
    (hm : s.mode = none) : SessionInv s where
  initialized_mode := by simp [hi, hm]
  initialized_open := by simp [hi]
  transport_open := by simp [ht]

/-- Settles O54: after reset there is no transport, no initialization and no mode, and nothing runs. -/
theorem resetHasInvariant : Obligations.ResetHasInvariant := by
  obtain ⟨-, ht, hi, hm, hb, -, -⟩ := resetState
  exact (SessionInv.of_uninitialized ht hi hm).idle hb rfl

end Sys2Proof.Machine
end

section
/-! SUPPORT. Where there is no step: the proofs of the statements about the model's stops `idle` (log 4) and `noEntryDue` (log 17). -/

namespace Sys2Proof.Machine

/-! ## Nothing presented and nothing running (44_control_surface.md R280; log 4) -/

/-- With no frame to take, a machine that runs no command waits for the host. -/
theorem step_idle {s : State} (hf : s.fault = none) (hb : s.busy = false) (hp : s.port = none) :
    step s = .fault .idle := by
  simp [step, stepMachine, hf, hb, hp]

/-- Settles O11: a ready machine runs no command and has no fault. -/
theorem idleMachineWaits : Obligations.IdleMachineWaits := by
  intro s ⟨hf, hb⟩ hp
  exact step_idle hf hb hp

/-! ## An entry away from the cursor (42_table_interpreter.md R200; log 17) -/

/-- Every entry goes through the dispatch of entries. -/
theorem exec_eq_atEntry {i : Instr} (hi : isCommand i = false) : ∃ run, ∀ s, exec i s = atEntry run s := by
  cases i with
  | wr a v => exact ⟨_, fun _ => by rw [exec, execWr]⟩
  | wait ms => exact ⟨_, fun _ => by rw [exec, execWait]⟩
  | endTable x => exact ⟨_, fun _ => by rw [exec, execEndTable]⟩
  | _ => cases hi

/-- The dispatch of entries runs nothing at any other position than a table's cursor. -/
theorem atEntry_noEntryDue {run : TableId → Nat → TableRet → State → State} {s : State} (hf : s.fault = none)
    (hc : ∀ t k ret, s.control ≠ .table t k ret) : atEntry run s = .fault .noEntryDue := by
  cases hs : s.control with
  | table t k ret => exact absurd hs (hc t k ret)
  | _ => simp [atEntry, hf, hs]

/-- Settles O31: WR, WAIT and END share the dispatch of entries, which asks for a table's cursor. -/
theorem entryNeedsTable : Obligations.EntryNeedsTable := by
  intro s i hf hi hc
  obtain ⟨run, hrun⟩ := exec_eq_atEntry hi
  rw [hrun, atEntry_noEntryDue hf hc]

end Sys2Proof.Machine
end
